-- ==== Sys2Proof/Word.lean ====
section
/-! DEFINITION. The word types of the SM2/OAEP block (spec/00_scope.md R6, R7). -/

namespace Sys2Proof

/-- An 8-bit value of a byte string or a window byte (R7). -/
abbrev Byte := BitVec 8

/-- A 32-bit bus word: every host-visible register is this wide (R6). -/
abbrev Word := BitVec 32

/-- A 16-bit length field (R20 to R22, R24). -/
abbrev Half := BitVec 16

/-- A 4-bit command opcode or hash selector (R56). -/
abbrev Sel := BitVec 4

end Sys2Proof
end

