-- ==== Sys2Proof/Syntax.lean ====
section
/-! DEFINITION. The five commands of spec/opcode_table.json (spec/30_encoding.md R56, R59). -/

namespace Sys2Proof

/-- A command word with START = 1 and an assigned CMD. Each carries the two selector fields HSEL and MSEL, which
CTRL latches for every command, also for the two that ignore them (R17, R57, R62). The ignored bits [3:1] and
[31:16] of a word are no part of the command (R60). -/
inductive Instr where
  /-- SM2_SIGN, R68. -/
  | sm2Sign (hsel msel : Sel)
  /-- SM2_VERIFY, R77. -/
  | sm2Verify (hsel msel : Sel)
  /-- MGF1, R89. -/
  | mgf1 (hsel msel : Sel)
  /-- OAEP_ENC, R92. -/
  | oaepEnc (hsel msel : Sel)
  /-- OAEP_DEC, R99. -/
  | oaepDec (hsel msel : Sel)
  deriving DecidableEq, Repr

end Sys2Proof
end

