-- ==== Sys2Proof/Decode.lean ====
section
/-! DEFINITION. Decoding a command word, total and by name, and encoding a command (spec/30_encoding.md R56, R59, R60,
R61). -/

namespace Sys2Proof

/-- Why bytes are no command of the opcode table. -/
inductive DecodeError where
  /-- Not the four bytes of one 32-bit word; R61 gives no other length. -/
  | notAWord
  /-- START = 0: the word does nothing (R57). -/
  | notStarted
  /-- START = 1 with a reserved CMD: accepted, and completed with BAD_CMD (R59, R60). -/
  | reservedCmd (cmd : Sel)
  deriving DecidableEq, Repr

/-- START[0] of a command word (R56). -/
def startField (v : Word) : Bool := v.getLsbD 0

/-- CMD[7:4] (R56). -/
def cmdField (v : Word) : Sel := v.extractLsb' 4 4

/-- HSEL[11:8] (R56). -/
def hselField (v : Word) : Sel := v.extractLsb' 8 4

/-- MSEL[15:12] (R56). -/
def mselField (v : Word) : Sel := v.extractLsb' 12 4

/-- The opcode map of R59: the command a CMD value stands for, with its selector fields; none for the reserved
values 0 and 6 to 15. -/
def commandOf (cmd hsel msel : Sel) : Option Instr :=
  if cmd = 1 then some (.sm2Sign hsel msel)
  else if cmd = 2 then some (.sm2Verify hsel msel)
  else if cmd = 3 then some (.mgf1 hsel msel)
  else if cmd = 4 then some (.oaepEnc hsel msel)
  else if cmd = 5 then some (.oaepDec hsel msel)
  else none

/-- The decoder of command words (R56, R59). Bits [3:1] and [31:16] are ignored (R60). -/
def decode (v : Word) : Except DecodeError Instr :=
  if startField v then
    match commandOf (cmdField v) (hselField v) (mselField v) with
    | some i => .ok i
    | none => .error (.reservedCmd (cmdField v))
  else .error .notStarted

/-- The word whose bytes are given lowest address first: byte lanes are little-endian (spec/20_memory.md R42). -/
def wordOfLanes (b0 b1 b2 b3 : Byte) : Word := b3 ++ b2 ++ b1 ++ b0

/-- Decoding bytes, lowest address first. -/
def decodeBytes : List Byte → Except DecodeError Instr
  | [b0, b1, b2, b3] => decode (wordOfLanes b0 b1 b2 b3)
  | _ => .error .notAWord

/-- The CMD value of a command (R59). -/
def Instr.cmd : Instr → Sel
  | .sm2Sign _ _ => 1
  | .sm2Verify _ _ => 2
  | .mgf1 _ _ => 3
  | .oaepEnc _ _ => 4
  | .oaepDec _ _ => 5

/-- The HSEL operand of a command. -/
def Instr.hsel : Instr → Sel
  | .sm2Sign hsel _ => hsel
  | .sm2Verify hsel _ => hsel
  | .mgf1 hsel _ => hsel
  | .oaepEnc hsel _ => hsel
  | .oaepDec hsel _ => hsel

/-- The MSEL operand of a command. -/
def Instr.msel : Instr → Sel
  | .sm2Sign _ msel => msel
  | .sm2Verify _ msel => msel
  | .mgf1 _ msel => msel
  | .oaepEnc _ msel => msel
  | .oaepDec _ msel => msel

/-- The command word with the given fields, START = 1 and every ignored bit 0 (R56, R67). -/
def commandWord (cmd hsel msel : Sel) : Word := 0#16 ++ msel ++ hsel ++ cmd ++ 1#4

/-- The encoder: the command word of an instruction (R56, R59). -/
def encode (i : Instr) : Word := commandWord i.cmd i.hsel i.msel

/-- What the decoder reads from an instruction of `nbits` bits numbered as spec/opcode_table.json numbers them, every
higher bit 0: its four bytes laid out lowest address first (R42), then decoded. -/
def decodeTableWord (nbits w : Nat) : Option Instr :=
  let v : Word := BitVec.ofNat 32 (w % 2 ^ nbits)
  match decodeBytes [v.extractLsb' 0 8, v.extractLsb' 8 8, v.extractLsb' 16 8, v.extractLsb' 24 8] with
  | .ok i => some i
  | .error _ => none

end Sys2Proof
end

