-- ==== Sys2Proof/Config.lean ====
section
/-! DEFINITION. What an instance of the block fixes (spec/00_scope.md R4, R5, R12) and the values the spec leaves
free (spec/93_implementation_defined.md), the latter as constants without a body. -/

namespace Sys2Proof.Config

/-- The name of a hash algorithm of HASH_TABLE: those of the reference table (R64), the test hash of R5, and any further
algorithm of an instance. -/
inductive HashName where
  | sha1
  | sha224
  | sha256
  | sha384
  | sha512
  | sm3
  | toy2
  | other (id : Nat)
  deriving DecidableEq, Repr

/-- The function fn of a hash algorithm (R4), as plain data. `toy2` is the function R5 defines. `listed graph` is the
function an instance supplies, as pairs of a message and its digest. The block hashes labels of at most LMAX bytes and
strings of at most BMAX + 4, so a list can hold every digest it ever asks for; a message that is not listed has a free
digest. Assumption log 9. -/
inductive HashFn where
  | toy2
  | listed (graph : List (List Byte × List Byte))
  deriving DecidableEq, Repr

/-- Whether fn maps every message it gives to one digest of exactly `len` bytes (R4, R5, R122). -/
def HashFn.fits (len : Nat) : HashFn → Bool
  | .toy2 => len == 2
  | .listed graph => (graph.all fun e => e.2.length == len) && decide (graph.map Prod.fst).Nodup

/-- A hash algorithm `(name, len, fn)` of HASH_TABLE (R4). -/
structure HashAlg where
  name : HashName
  len : Nat
  fn : HashFn
  deriving DecidableEq, Repr

/-- SHA-1 of the reference table (R64), its function not supplied. -/
def HashAlg.sha1 : HashAlg := { name := .sha1, len := 20, fn := .listed [] }

/-- SHA-224 of the reference table (R64), its function not supplied. -/
def HashAlg.sha224 : HashAlg := { name := .sha224, len := 28, fn := .listed [] }

/-- SHA-256 of the reference table (R64), its function not supplied. -/
def HashAlg.sha256 : HashAlg := { name := .sha256, len := 32, fn := .listed [] }

/-- SHA-384 of the reference table (R64), its function not supplied. -/
def HashAlg.sha384 : HashAlg := { name := .sha384, len := 48, fn := .listed [] }

/-- SHA-512 of the reference table (R64), its function not supplied. -/
def HashAlg.sha512 : HashAlg := { name := .sha512, len := 64, fn := .listed [] }

/-- SM3 of the reference table (R64), its function not supplied. -/
def HashAlg.sm3 : HashAlg := { name := .sm3, len := 32, fn := .listed [] }

/-- TOY2 (R5). -/
def HashAlg.toy2 : HashAlg := { name := .toy2, len := 2, fn := .toy2 }

/-- CURVE, the group of the arithmetic provider (R4): the affine points 1·G, 2·G, ..., (n-1)·G in this order. A group
of prime order n is cyclic, so this list gives its order, its generator, its members and, adding multiples modulo n,
its group law. DEDUCED, assumption log 8. -/
structure Curve where
  points : List (Nat × Nat)
  deriving DecidableEq, Repr

/-- The order n of the group: its points and the point at infinity. -/
def Curve.order (c : Curve) : Nat := c.points.length + 1

/-- The parameters of an instance (R4). -/
structure Params where
  /-- BASE, the physical address of the window. -/
  base : Nat
  /-- SB, bytes of a scalar window. -/
  sb : Nat
  /-- EMAX, bytes of E_BUF. -/
  emax : Nat
  /-- BMAX, bytes of IN_BUF and of OUT_BUF. -/
  bmax : Nat
  /-- LMAX, bytes of LABEL_BUF. -/
  lmax : Nat
  /-- HMAX, the largest hash output length. -/
  hmax : Nat
  /-- HASH_TABLE, its assigned selectors. -/
  hashTable : List (Sel × HashAlg)
  /-- DEFAULT_HASH, what selector 0 stands for. -/
  defaultHash : Sel
  /-- CURVE. -/
  curve : Curve
  deriving DecidableEq, Repr

/-- The reference HASH_TABLE (R64). -/
def referenceTable : List (Sel × HashAlg) :=
  [(1, .sha1), (2, .sha224), (3, .sha256), (4, .sha384), (5, .sha512), (6, .sm3)]

/-- The default instance (R4), for a base address and a curve, which R4 leaves OPEN. -/
def defaultParams (base : Nat) (curve : Curve) : Params :=
  { base := base, sb := 32, emax := 64, bmax := 512, lmax := 256, hmax := 64,
    hashTable := referenceTable, defaultHash := 1, curve := curve }

/-- The curve TC29 of R5, the multiples k·G for k = 1..28 as R5 lists them. -/
def tc29 : Curve :=
  { points :=
      [(0, 7), (27, 36), (21, 28), (17, 13), (36, 26), (29, 26), (20, 22)] ++
      [(6, 7), (31, 30), (32, 17), (9, 11), (25, 23), (22, 10), (18, 4)] ++
      [(18, 33), (22, 27), (25, 14), (9, 26), (32, 20), (31, 7), (6, 30)] ++
      [(20, 15), (29, 11), (36, 11), (17, 24), (21, 9), (27, 1), (0, 30)] }

/-- TESTCFG (R5): the default instance with curve TC29 and selector 15 = TOY2. Its BASE is the model's choice.
DESIGN CHOICE, assumption log 2. -/
def testCfg : Params :=
  { defaultParams 0 tc29 with hashTable := referenceTable ++ [(15, .toy2)] }

/-- The digest of a message for which the instance lists none: a function of the algorithm's name and the message,
exactly `len` bytes long (R122, R124), and nothing more is known of it. Free, assumption log 9. -/
opaque hashFn (name : HashName) (len : Nat) (m : List Byte) : Vector Byte len

/-- Whether a provider call whose failure is not scripted fails: free at every call (R9, R122). Assumption log 6. -/
opaque freeFail : Nat → Bool

/-- An unscripted `RngRange` answer: any integer ≥ 0 (R122). Assumption log 6. -/
opaque freeRange : Nat → Nat

/-- An unscripted byte of an `RngBytes` answer: any byte (R122). Assumption log 6. -/
opaque freeByte : Nat → Byte

end Sys2Proof.Config
end

