-- ==== Sys2Proof/Machine/State.lean ====
section
/-! DEFINITION. The state of the block (spec/10_state.md R11 to R38), its reset value (spec/70_reset_and_hazards.md
R133), and the reasons a step can stop. -/

namespace Sys2Proof.Machine

open Sys2Proof.Config

/-- The hidden phase register (R34). -/
inductive Phase where
  | idle
  | check
  | sDraw
  | sMulg
  | sRs
  | vRange
  | vMul
  | vCmp
  | mBlock
  | eLhash
  | eSeed
  | eDbmask
  | eSeedmask
  | eOut
  | dPad
  | dSeedmask
  | dDbmask
  | dLhash
  | dScan
  deriving DecidableEq, Repr

/-- The completion codes of STATUS.ERR (R109). The codes 10 to 15 are never written and have no name here; `digest` is
named and never written. -/
inductive ErrCode where
  | ok
  | alloc
  | arith
  | rng
  | digest
  | invalidSig
  | oaepDecode
  | dataTooLarge
  | keyTooSmall
  | badCmd
  deriving DecidableEq, Repr

/-- The latched fields of CTRL (R17). -/
structure Ctrl where
  cmd : Sel
  hsel : Sel
  msel : Sel
  deriving DecidableEq, Repr

/-- The hidden working registers (R35). -/
structure Working where
  n : Nat
  e : Nat
  k : Nat
  x1 : Nat
  r : Nat
  s : Nat
  t : Nat
  hs : Sel
  ms : Sel
  h : Nat
  hm : Nat
  i : BitVec 32
  seed : List Byte
  lhash : List Byte
  db : List Byte
  em : List Byte
  out : List Byte
  bad : Bool
  good : Bool
  deriving DecidableEq, Repr

/-- Every working register at its zero value (R35, R36). -/
def Working.zero : Working :=
  { n := 0, e := 0, k := 0, x1 := 0, r := 0, s := 0, t := 0, hs := 0, ms := 0, h := 0, hm := 0, i := 0,
    seed := [], lhash := [], db := [], em := [], out := [], bad := false, good := false }

/-- The nine operand windows (R26 to R33). -/
inductive Win where
  | eBuf
  | da
  | r
  | s
  | paX
  | paY
  | inBuf
  | outBuf
  | labelBuf
  deriving DecidableEq, Repr

/-- The control and status registers of the map (R40). -/
inductive Reg where
  | id
  | cap0
  | cap1
  | ctrl
  | status
  | irqEn
  | inLen
  | tlen
  | labelLen
  | eLen
  | outLen
  | signIter
  deriving DecidableEq, Repr

/-- One operation of the outside world on the block: a bus access at a physical address, of any size, or the reset
input (R10, R41, R66); or the WAIT of a host script (R67), the read of STATUS that the host repeats until DONE reads 1.
For a write, `value` is the 32-bit data. `gaps` are the controller steps between the reads of a WAIT to come, and 1
after the last of them (assumption log 25). -/
inductive HostOp where
  | read (addr size : Nat)
  | write (addr size : Nat) (value : Word)
  | reset
  | waitDone (gaps : List Nat)
  deriving DecidableEq, Repr

/-- A host operation still to come, with the number of controller steps that come before it while the block is BUSY:
so every interleaving of R10 is the value of a list of these. DESIGN CHOICE, assumption log 3. -/
structure HostEvent where
  wait : Nat
  op : HostOp
  deriving DecidableEq, Repr

/-- What the last host operation was answered. Assumption log 5. -/
inductive BusResponse where
  /-- No access since reset. -/
  | none
  /-- A legal read returned this word (R45). -/
  | data (value : Word)
  /-- A legal write was taken: it had its effect or was ignored as R46 and R47 say. -/
  | written
  /-- The bus error of an illegal access (R41, R111). -/
  | busError
  /-- The address lies outside this block's window (R39). Assumption log 12. -/
  | notSelected
  deriving DecidableEq, Repr

/-- The provider draws of the run (R9, R122): the answers scripted for the calls to come, and how many unscripted
draws were made so far. An empty list leaves every further draw of its kind free. Assumption log 6. -/
structure Draws where
  /-- Whether the next provider calls fail. -/
  fails : List Bool
  /-- The next `RngRange` answers. -/
  ranges : List Nat
  /-- The next bytes of `RngBytes` answers. -/
  bytes : List Byte
  /-- The number of unscripted draws made. -/
  used : Nat
  deriving DecidableEq, Repr

/-- The window bytes, keyed by window offset: addresses strictly rising, no byte that equals the 0 an unlisted address
reads as (R133 gives that 0). -/
abbrev Memory := List Host.Cell

/-- The whole state: the architectural state of R11 and the model's own fields `cfg`, `inputs`, `bus` and `draws`. -/
structure State where
  /-- The instance's parameters (R4, R12); no step changes them. -/
  cfg : Params
  /-- CTRL (R17). -/
  ctrl : Ctrl
  /-- STATUS.DONE (R18). -/
  done : Bool
  /-- STATUS.VALID (R18). -/
  valid : Bool
  /-- STATUS.WERR (R18). -/
  werr : Bool
  /-- STATUS.ERR (R18, R109). -/
  err : ErrCode
  /-- IRQ_EN.EN (R19). -/
  irqEn : Bool
  /-- IN_LEN (R20). -/
  inLen : Half
  /-- TLEN (R21). -/
  tlen : Half
  /-- LABEL_LEN (R22). -/
  labelLen : Half
  /-- E_LEN (R23). -/
  eLen : BitVec 8
  /-- OUT_LEN (R24). -/
  outLen : Half
  /-- SIGN_ITER (R25). -/
  signIter : Word
  /-- The bytes of the nine windows (R26 to R33). -/
  mem : Memory
  /-- The phase register (R34). -/
  phase : Phase
  /-- The working registers (R35). -/
  w : Working
  /-- The host operations to come (R10). -/
  inputs : List HostEvent
  /-- The answer to the last host operation. -/
  bus : BusResponse
  /-- The provider draws to come (R9). -/
  draws : Draws
  deriving DecidableEq, Repr

/-- Why a step stops. The block itself has no trap (R109), and the spec gives it no stop. -/
inductive Fault where
  /-- Raised by a command whose latched CTRL and phase register disagree: the phase belongs to another command (R34). No
  run from reset reaches such a state, so the stop is safe: it only makes the model say nothing there. -/
  | phaseNotOfCommand
  deriving DecidableEq, Repr

/-- Why an instruction has no meaning. -/
inductive Refusal where
  /-- The instruction of this mnemonic is not modelled; safe. No arm of `exec` raises it. -/
  | notModelled (mnemonic : String)
  deriving DecidableEq, Repr

/-- What a step answers. -/
abbrev Result := Host.Outcome State Fault Refusal

/-- The state after reset for an instance (R133), with what the outside world still holds in store for it. -/
def State.resetWith (cfg : Params) (inputs : List HostEvent) (draws : Draws) : State :=
  { cfg := cfg
    ctrl := { cmd := 0, hsel := 0, msel := 0 }
    done := false
    valid := false
    werr := false
    err := .ok
    irqEn := false
    inLen := 0
    tlen := 0
    labelLen := 0
    eLen := 0
    outLen := 0
    signIter := 0
    mem := []
    phase := .idle
    w := Working.zero
    inputs := inputs
    bus := .none
    draws := draws }

/-- Right after reset (R133) of the reference instance TESTCFG (R5), with no host operation queued and no draw
scripted. DESIGN CHOICE for `cfg`, `inputs`, `bus` and `draws`, assumption log 1, 3, 5 and 6. -/
def State.reset : State :=
  State.resetWith testCfg [] { fails := [], ranges := [], bytes := [], used := 0 }

end Sys2Proof.Machine
end

