-- ==== Sys2Proof/Machine/Bytes.lean ====
section
/-! DEFINITION. Byte strings and integers (spec/00_scope.md R7), and the byte lanes of a bus word (spec/20_memory.md
R42). -/

namespace Sys2Proof.Machine

/-- BE(b): the big-endian value of a byte string, 0 for the empty one (R7). -/
def beNat (b : List Byte) : Nat := b.foldl (fun acc x => acc * 256 + x.toNat) 0

/-- I2BE_L(v): the L bytes, most significant first, whose big-endian value is v (R7). R7 defines it for v < 256^L; the
model keeps the low L bytes of a larger v, which no command writes. Assumption log 26. -/
def i2be : (L : Nat) → Nat → List Byte
  | 0, _ => []
  | L + 1, v => i2be L (v / 256) ++ [BitVec.ofNat 8 v]

/-- BE32 of the MGF1 counter (R7, R87). -/
def be32 (i : BitVec 32) : List Byte := i2be 4 i.toNat

/-- zeros(L) (R7). -/
def zeros (L : Nat) : List Byte := List.replicate L 0

/-- Bytewise exclusive-or of two strings of equal length (R7). -/
def xorBytes (a b : List Byte) : List Byte := List.zipWith (· ^^^ ·) a b

/-- The string followed by zeros, exactly L bytes long. -/
def padTo (L : Nat) (b : List Byte) : List Byte := (b ++ zeros L).take L

/-- The four byte lanes of a bus word, lowest offset first (R42). -/
def lanesOf (v : Word) : List Byte :=
  [v.extractLsb' 0 8, v.extractLsb' 8 8, v.extractLsb' 16 8, v.extractLsb' 24 8]

end Sys2Proof.Machine
end

