-- ==== Sys2Proof/Machine/Providers.lean ====
section
/-! DEFINITION. The non-failing answers of the hash and arithmetic providers as functions of the instance
(spec/60_exceptions.md R122, R124; spec/00_scope.md R4, R5, R8). Whether a call fails is a draw, in Ops.lean. -/

namespace Sys2Proof.Machine

open Sys2Proof.Config

/-- HASH_TABLE[sel], if assigned; entry 0 never is (R4, R63). -/
def hashEntry (cfg : Params) (sel : Sel) : Option HashAlg :=
  if sel = 0 then none else (cfg.hashTable.find? fun e => e.1 == sel).map Prod.snd

/-- HLEN(sel); 0 where the selector is unassigned and has no length (assumption log 13). -/
def hlen (cfg : Params) (sel : Sel) : Nat :=
  match hashEntry cfg sel with
  | some alg => alg.len
  | none => 0

/-- The running sums of TOY2 over the bytes from position `pos` on (R5). -/
def toy2Sums : List Byte → Nat → Nat × Nat → Nat × Nat
  | [], _, acc => acc
  | b :: bs, pos, (sum, weighted) => toy2Sums bs (pos + 1) (sum + b.toNat, weighted + pos * b.toNat)

/-- TOY2 (R5). -/
def toy2 (m : List Byte) : List Byte :=
  let sums := toy2Sums m 1 (0, 0)
  [BitVec.ofNat 8 (0x5A + sums.1), BitVec.ofNat 8 (0xA5 + sums.2)]

/-- The digest of a message: `HASH_TABLE[sel].fn(m)`, exactly HLEN bytes (R122). TOY2 is computed, a listed message has
its listed digest, and any other a free one (assumption log 9). In a well-formed instance the padding adds nothing. -/
def digest (alg : HashAlg) (m : List Byte) : List Byte :=
  match alg.fn with
  | .toy2 => padTo alg.len (toy2 m)
  | .listed graph =>
    match graph.find? fun e => e.1 == m with
    | some e => padTo alg.len e.2
    | none => (hashFn alg.name alg.len m).toList

/-- k·G as an affine point, for 1 ≤ k ≤ n − 1; none elsewhere, as the point at infinity has no affine form (R30). -/
def multipleOfG (c : Curve) (k : Nat) : Option (Nat × Nat) :=
  match k with
  | 0 => none
  | j + 1 => c.points[j]?

/-- EcMulG(k): the affine x-coordinate of k·G (R122). -/
def ecMulG (c : Curve) (k : Nat) : Option Nat := (multipleOfG c k).map Prod.fst

/-- The d with d·G = P, for a point P of CURVE; none for a pair that is no point of it (R79). -/
def discreteLog (c : Curve) (p : Nat × Nat) : Option Nat :=
  (c.points.idxOf? p).map (· + 1)

/-- The non-failing answer of EcMul2 (R9): an affine x-coordinate, or the point at infinity. -/
inductive EcSum where
  | affine (x : Nat)
  | inf
  deriving DecidableEq, Repr

/-- EcMul2(s, t, P) = s·G + t·P, with P = d·G the multiple (s + t·d) mod n of G (R4, R79, R122); none, which is a
FAULT, when P is not a point of CURVE. -/
def ecMul2 (c : Curve) (s t : Nat) (p : Nat × Nat) : Option EcSum :=
  match discreteLog c p with
  | none => none
  | some d =>
    match ecMulG c ((s + t * d) % c.order) with
    | some x => some (.affine x)
    | none => some .inf

/-- inv_n(a): the x in [1, n−1] with (a·x) mod n = 1, where there is one (R8). -/
def modInv (a n : Nat) : Option Nat := (List.range n).find? fun x => a * x % n == 1

end Sys2Proof.Machine
end

