-- ==== Sys2Proof/Machine/Ops.lean ====
section
/-! DEFINITION. The named operations over the memory, the windows and the registers; the provider calls with their
draws; accepting a command, and the completion `finish`, which is the block's taking of an exception
(spec/60_exceptions.md R115), beside the acknowledge in Flags.lean, its return. -/

namespace Sys2Proof.Machine

open Sys2Proof.Config

/-! ### The byte memory -/

/-- The byte at an offset; an unlisted byte reads 0, its reset value (R133). -/
def readByte : Memory → Nat → Byte
  | [], _ => 0
  | c :: m, a => if c.1 = a then c.2 else readByte m a

/-- Writing one byte, keeping the canonical form. -/
def writeByte : Memory → Nat → Byte → Memory
  | [], a, b => if b = 0 then [] else [(a, b)]
  | c :: m, a, b =>
    if c.1 < a then c :: writeByte m a b
    else if c.1 = a then (if b = 0 then m else (a, b) :: m)
    else if b = 0 then c :: m else (a, b) :: c :: m

/-- The canonical form of a memory: offsets strictly rising, no byte listed that equals the 0 of an unlisted one. -/
def Memory.wf : Memory → Bool
  | [] => true
  | c :: m => c.2 != 0 && (m.all fun d => decide (c.1 < d.1)) && Memory.wf m

/-- The n bytes from an offset on. -/
def readBytes (m : Memory) (a n : Nat) : List Byte := (List.range n).map fun i => readByte m (a + i)

/-- Writing a string of bytes from an offset on. -/
def writeBytes : Memory → Nat → List Byte → Memory
  | m, _, [] => m
  | m, a, b :: bs => writeBytes (writeByte m a b) (a + 1) bs

/-! ### The map of the window (R39, R40) -/

/-- The first offset of an operand window (R40). -/
def Win.base : Win → Nat
  | .eBuf => 0x100
  | .da => 0x180
  | .r => 0x200
  | .s => 0x280
  | .paX => 0x300
  | .paY => 0x380
  | .inBuf => 0x1000
  | .outBuf => 0x2000
  | .labelBuf => 0x3000

/-- The number of offsets a window spans in the map (R40). -/
def Win.span : Win → Nat
  | .eBuf => 0x80
  | .da => 0x80
  | .r => 0x80
  | .s => 0x80
  | .paX => 0x80
  | .paY => 0x80
  | .inBuf => 0x1000
  | .outBuf => 0x1000
  | .labelBuf => 0x1000

/-- The number of its bytes that are storage (R26 to R33, R40). -/
def Win.capacity (cfg : Params) : Win → Nat
  | .eBuf => cfg.emax
  | .da => cfg.sb
  | .r => cfg.sb
  | .s => cfg.sb
  | .paX => cfg.sb
  | .paY => cfg.sb
  | .inBuf => cfg.bmax
  | .outBuf => cfg.bmax
  | .labelBuf => cfg.lmax

/-- The register at an offset (R40). -/
def regAt (off : Nat) : Option Reg :=
  if off = 0x000 then some .id
  else if off = 0x004 then some .cap0
  else if off = 0x008 then some .cap1
  else if off = 0x010 then some .ctrl
  else if off = 0x014 then some .status
  else if off = 0x018 then some .irqEn
  else if off = 0x020 then some .inLen
  else if off = 0x024 then some .tlen
  else if off = 0x028 then some .labelLen
  else if off = 0x02C then some .eLen
  else if off = 0x030 then some .outLen
  else if off = 0x034 then some .signIter
  else none

/-- The operand window an offset lies in (R40). -/
def winAt (off : Nat) : Option Win :=
  if 0x100 ≤ off ∧ off < 0x180 then some .eBuf
  else if 0x180 ≤ off ∧ off < 0x200 then some .da
  else if 0x200 ≤ off ∧ off < 0x280 then some .r
  else if 0x280 ≤ off ∧ off < 0x300 then some .s
  else if 0x300 ≤ off ∧ off < 0x380 then some .paX
  else if 0x380 ≤ off ∧ off < 0x400 then some .paY
  else if 0x1000 ≤ off ∧ off < 0x2000 then some .inBuf
  else if 0x2000 ≤ off ∧ off < 0x3000 then some .outBuf
  else if 0x3000 ≤ off ∧ off < 0x4000 then some .labelBuf
  else none

/-- Whether the byte at an offset is storage: inside a window and below its capacity (R40, R46). -/
def isStorage (cfg : Params) (off : Nat) : Bool :=
  match winAt off with
  | some win => decide (off < win.base + win.capacity cfg)
  | none => false

/-- The window offset of a physical address, if the address lies in this block's 16 KiB at BASE (R39). -/
def windowOffset (cfg : Params) (addr : Nat) : Option Nat :=
  if cfg.base ≤ addr ∧ addr < cfg.base + 0x4000 then some (addr - cfg.base) else none

/-- Whether an access is legal: 4 bytes at a multiple of 4 (R41). -/
def legalAccess (off size : Nat) : Bool := size == 4 && off % 4 == 0

/-! ### The state -/

/-- STATUS.BUSY: the phase is not IDLE (R18, R34). -/
def State.busy (s : State) : Bool := s.phase != .idle

/-- `goto PHASE` (R9, R34). -/
def State.goto (s : State) (p : Phase) : State := { s with phase := p }

/-- Writing the working registers. -/
def State.setW (s : State) (w : Working) : State := { s with w := w }

/-- Writing the window bytes. -/
def State.setMem (s : State) (m : Memory) : State := { s with mem := m }

/-- Consuming provider draws. -/
def State.setDraws (s : State) (d : Draws) : State := { s with draws := d }

/-- Answering a host operation. -/
def State.answer (s : State) (r : BusResponse) : State := { s with bus := r }

/-- Putting a host operation at the head of the queue. -/
def State.queueFirst (s : State) (ev : HostEvent) : State := { s with inputs := ev :: s.inputs }

/-- The first n bytes of a window, as the controller reads them. -/
def State.winBytes (s : State) (win : Win) (n : Nat) : List Byte := readBytes s.mem win.base n

/-- Replacing all of a window's storage by a string followed by zeros (R72, R89, R96, R105). -/
def State.fillWin (s : State) (win : Win) (b : List Byte) : State :=
  s.setMem (writeBytes s.mem win.base (padTo (win.capacity s.cfg) b))

/-! ### Provider calls (R122, R123)

Every call first draws whether it fails; a call that succeeds answers the exact value. A call outside the request range
of R122 (an unassigned selector, a multiple outside 1..n−1), which no run makes, is a failure too: the providers "fail
explicitly" (R124). Assumption log 6 and 21. -/

/-- Draws whether the next provider call fails. -/
def drawFail (d : Draws) : Bool × Draws :=
  match d.fails with
  | b :: rest => (b, { d with fails := rest })
  | [] => (freeFail d.used, { d with used := d.used + 1 })

/-- Whether the next provider call fails. -/
def State.callFails (s : State) : Bool := (drawFail s.draws).1

/-- The state once that was drawn. -/
def State.drawn (s : State) : State := s.setDraws (drawFail s.draws).2

/-- A provider call whose non-failing answer is `v`. -/
def callProvider {α : Type} (v : Option α) (s : State) : Option α × State :=
  (if s.callFails then none else v, s.drawn)

/-- `Hash(sel, m)`. -/
def callHash (sel : Sel) (m : List Byte) (s : State) : Option (List Byte) × State :=
  callProvider ((hashEntry s.cfg sel).map fun alg => digest alg m) s

/-- `EcOrder()`. -/
def callOrder (s : State) : Option Nat × State := callProvider (some s.cfg.curve.order) s

/-- `EcMulG(k)`. -/
def callMulG (k : Nat) (s : State) : Option Nat × State := callProvider (ecMulG s.cfg.curve k) s

/-- `EcMul2(s, t, P)`: always a failure when P is no point of CURVE (R79, R122). -/
def callMul2 (a t : Nat) (p : Nat × Nat) (s : State) : Option EcSum × State :=
  callProvider (ecMul2 s.cfg.curve a t p) s

/-- One `ModOp` line of a rule, with its exact result; none for an inverse that does not exist (R8). One failure is drawn
for all the operations of the line (assumption log 7). -/
def callModOp (v : Option Nat) (s : State) : Option Nat × State := callProvider v s

/-- The integer the random provider draws next. -/
def drawRange (d : Draws) : Nat × Draws :=
  match d.ranges with
  | k :: rest => (k, { d with ranges := rest })
  | [] => (freeRange d.used, { d with used := d.used + 1 })

/-- `RngRange(n)`: any integer ≥ 0, or a failure (R69, R122). -/
def callRange (s : State) : Option Nat × State :=
  if s.callFails then (none, s.drawn)
  else (some (drawRange s.drawn.draws).1, s.drawn.setDraws (drawRange s.drawn.draws).2)

/-- The byte the random provider draws next. -/
def drawByte (d : Draws) : Byte × Draws :=
  match d.bytes with
  | b :: rest => (b, { d with bytes := rest })
  | [] => (freeByte d.used, { d with used := d.used + 1 })

/-- The next L bytes of the random provider. -/
def drawBytes : Nat → Draws → List Byte × Draws
  | 0, d => ([], d)
  | L + 1, d => ((drawByte d).1 :: (drawBytes L (drawByte d).2).1, (drawBytes L (drawByte d).2).2)

/-- `RngBytes(L)`: any L-byte string, or a failure (R95, R122). -/
def callBytes (L : Nat) (s : State) : Option (List Byte) × State :=
  if s.callFails then (none, s.drawn)
  else (some (drawBytes L s.drawn.draws).1, s.drawn.setDraws (drawBytes L s.drawn.draws).2)

/-- What a step does after a provider call: `fail` on a failure, `k` on an answer (R9, R123). -/
def afterCall {α : Type} (c : Option α × State) (fail : State → State) (k : α → State → State) : State :=
  match c.1 with
  | none => fail c.2
  | some a => k a c.2

/-! ### Commands -/

/-- An accepted command (R57): the fields are latched, the outcome flags and counters cleared, WERR kept. -/
def accept (cmd hsel msel : Sel) (s : State) : State :=
  { s with
    ctrl := { cmd := cmd, hsel := hsel, msel := msel }
    done := false
    valid := false
    err := .ok
    outLen := 0
    signIter := 0
    phase := .check }

/-- A host write that the busy lock ignores: it sets WERR and nothing else (R47, R58, R112). -/
def turnAway (s : State) : State := { s with werr := true }

/-- `finish(code)` (R115), with the command-specific writes as a function of the state: the outcome is recorded, every
working register zeroed, the phase IDLE and DONE set. -/
def finish (code : ErrCode) (writes : State → State) (s : State) : State :=
  { writes { s with err := code, valid := s.ctrl.cmd == 2 && code == .ok } with
    w := Working.zero
    phase := .idle
    done := true }

/-- The command-specific writes of MGF1, OAEP_ENC and OAEP_DEC (R89, R96, R105): on OK the result, then zeros, and its
length; otherwise all zeros and length 0. -/
def outputWrites (code : ErrCode) (result : List Byte) (s : State) : State :=
  if code = .ok then { s.fillWin .outBuf result with outLen := BitVec.ofNat 16 result.length }
  else { s.fillWin .outBuf [] with outLen := 0 }

/-- What a step of a masking phase does with its hash block (R88): it is appended to w.out; when L bytes are there, the
mask of exactly L bytes is used with w.out and w.i cleared; until then the phase stays. -/
def takeBlock (L : Nat) (use : List Byte → State → State) (blk : List Byte) (s : State) : State :=
  if L ≤ (s.w.out ++ blk).length then
    use ((s.w.out ++ blk).take L) (s.setW { s.w with out := [], i := 0 })
  else s.setW { s.w with out := s.w.out ++ blk, i := s.w.i + 1 }

/-- One step of a masking phase (R88): the next MGF1 block over `src` is hashed and taken; a hash fault ends the
command. -/
def blockStep (src : List Byte) (L : Nat) (fail : State → State) (use : List Byte → State → State) (s : State) :
    State := afterCall (callHash s.w.ms (src ++ be32 s.w.i) s) fail (takeBlock L use)

/-- What a command word does at a state: on an IDLE block it is accepted (R57); on a block BUSY with this very command
the controller takes the step of its phase (R37); on a block BUSY with another, the word cannot start (R58, R119).
Assumption log 15. -/
def command (cmd hsel msel : Sel) (phaseStep : State → Result) (s : State) : Result :=
  if s.phase = .idle then .next (accept cmd hsel msel s)
  else if s.ctrl = { cmd := cmd, hsel := hsel, msel := msel } then phaseStep s
  else .next (turnAway s)

/-- The controller's step of an accepted command with a reserved CMD: its CHECK completes with BAD_CMD and changes
nothing else (R59, R113, R115). -/
def reservedStep (s : State) : Result :=
  if s.phase = .check then .next (finish .badCmd id s) else .fault .phaseNotOfCommand

end Sys2Proof.Machine
end

