-- ==== Sys2Proof/Machine/Operands.lean ====
section
/-! DEFINITION. The operands of the commands: scalars and byte strings read from the windows (spec/20_memory.md R43, R44;
spec/43_oaep.md), the hash selectors (spec/30_encoding.md R62, R63), the lengths, and the mask function MGF1
(spec/42_mgf1.md R84). -/

namespace Sys2Proof.Machine

open Sys2Proof.Config

/-- val(W) of a scalar window: its SB bytes, big-endian (R43). -/
def scalar (s : State) (win : Win) : Nat := beNat (s.winBytes win s.cfg.sb)

/-- The scalar e: E_LEN bytes of E_BUF, big-endian, not reduced (R44). -/
def scalarE (s : State) : Nat := beNat (s.winBytes .eBuf s.eLen.toNat)

/-- Writing an integer to a scalar window as SB big-endian bytes (R43). -/
def storeScalar (win : Win) (v : Nat) (s : State) : State := s.fillWin win (i2be s.cfg.sb v)

/-- IN_BUF[0..IN_LEN−1]: the seed, the message or the encoded block (R31). -/
def inputBytes (s : State) : List Byte := s.winBytes .inBuf s.inLen.toNat

/-- LABEL_BUF[0..LABEL_LEN−1] (R33). -/
def labelBytes (s : State) : List Byte := s.winBytes .labelBuf s.labelLen.toNat

/-- The resolved OAEP hash selector (R62). -/
def resolvedHs (s : State) : Sel := if s.ctrl.hsel = 0 then s.cfg.defaultHash else s.ctrl.hsel

/-- The resolved MGF1 hash selector (R62). -/
def resolvedMs (s : State) : Sel := if s.ctrl.msel = 0 then resolvedHs s else s.ctrl.msel

/-- Whether a resolved selector is valid: HASH_TABLE has an entry for it (R63). -/
def validSel (s : State) (sel : Sel) : Bool := (hashEntry s.cfg sel).isSome

/-- CHECK's storing of the resolved selectors and their lengths (R62). -/
def storeSelectors (s : State) : State :=
  s.setW { s.w with
    hs := resolvedHs s
    ms := resolvedMs s
    h := hlen s.cfg (resolvedHs s)
    hm := hlen s.cfg (resolvedMs s) }

/-- dblen = emlen − h = TLEN − 1 − h, for encoding and decoding alike (43_oaep.md, names list). -/
def dblen (s : State) : Nat := s.tlen.toNat - 1 - s.w.h

/-- The loop of R84, which a bound on its rounds makes structural: each round adds one block while fewer than L bytes
are there. -/
def mgf1Loop (alg : HashAlg) (seed : List Byte) (L : Nat) : Nat → List Byte → BitVec 32 → List Byte
  | 0, T, _ => T
  | rounds + 1, T, i =>
    if T.length < L then mgf1Loop alg seed L rounds (T ++ digest alg (seed ++ be32 i)) (i + 1) else T

/-- MGF1(sel, seed, L) for the algorithm of the selector (R84). L rounds suffice, as every HLEN is at least 1 (R4). -/
def mgf1 (alg : HashAlg) (seed : List Byte) (L : Nat) : List Byte := (mgf1Loop alg seed L L [] 0).take L

end Sys2Proof.Machine
end

