-- ==== Sys2Proof/Machine/Flags.lean ====
section
/-! DEFINITION. The words of the control and status registers as the host reads and writes them (spec/10_state.md R14 to
R25), the completion codes (spec/60_exceptions.md R109), the acknowledge (R118) and the interrupt line (R38, R121). -/

namespace Sys2Proof.Machine

open Sys2Proof.Config

/-- The number of a completion code in STATUS.ERR (R109). -/
def ErrCode.code : ErrCode → BitVec 4
  | .ok => 0
  | .alloc => 1
  | .arith => 2
  | .rng => 3
  | .digest => 4
  | .invalidSig => 5
  | .oaepDecode => 6
  | .dataTooLarge => 7
  | .keyTooSmall => 8
  | .badCmd => 9

/-- ID (R14). -/
def idWord : Word := 0x534D0001

/-- CAP0: LMAX[31:16], BMAX[15:0] (R15). -/
def cap0Word (cfg : Params) : Word := BitVec.ofNat 16 cfg.lmax ++ BitVec.ofNat 16 cfg.bmax

/-- CAP1: HMAX[23:16], EMAX[15:8], SB[7:0] (R16). -/
def cap1Word (cfg : Params) : Word :=
  0#8 ++ BitVec.ofNat 8 cfg.hmax ++ BitVec.ofNat 8 cfg.emax ++ BitVec.ofNat 8 cfg.sb

/-- CTRL as read: MSEL[15:12], HSEL[11:8], CMD[7:4], every other bit 0 (R17). -/
def ctrlWord (s : State) : Word := 0#16 ++ s.ctrl.msel ++ s.ctrl.hsel ++ s.ctrl.cmd ++ 0#4

/-- STATUS as read: ERR[7:4], WERR[3], VALID[2], DONE[1], BUSY[0] (R18). -/
def statusWord (s : State) : Word :=
  0#24 ++ s.err.code ++ BitVec.ofBool s.werr ++ BitVec.ofBool s.valid ++ BitVec.ofBool s.done ++
    BitVec.ofBool s.busy

/-- IRQ_EN as read: EN[0] (R19). -/
def irqEnWord (s : State) : Word := 0#31 ++ BitVec.ofBool s.irqEn

/-- The word a register reads as (R45), with OUT_LEN hidden while BUSY (R48). -/
def readReg (s : State) : Reg → Word
  | .id => idWord
  | .cap0 => cap0Word s.cfg
  | .cap1 => cap1Word s.cfg
  | .ctrl => ctrlWord s
  | .status => statusWord s
  | .irqEn => irqEnWord s
  | .inLen => s.inLen.setWidth 32
  | .tlen => s.tlen.setWidth 32
  | .labelLen => s.labelLen.setWidth 32
  | .eLen => s.eLen.setWidth 32
  | .outLen => if s.busy then 0 else s.outLen.setWidth 32
  | .signIter => s.signIter

/-- A STATUS write: bit 1 clears DONE, bit 3 clears WERR, every other bit is ignored (R18, R46); the acknowledge of
R118, taken while BUSY too. -/
def writeStatus (v : Word) (s : State) : State :=
  { s with done := s.done && !v.getLsbD 1, werr := s.werr && !v.getLsbD 3 }

/-- An IRQ_EN write stores bit 0, while BUSY too (R19, R46). -/
def writeIrqEn (v : Word) (s : State) : State := { s with irqEn := v.getLsbD 0 }

/-- The registers under the busy lock (R47); CTRL has its own rule (R57, R58). -/
def storeLength (r : Reg) (v : Word) (s : State) : State :=
  match r with
  | .inLen => { s with inLen := v.extractLsb' 0 16 }
  | .tlen => { s with tlen := v.extractLsb' 0 16 }
  | .labelLen => { s with labelLen := v.extractLsb' 0 16 }
  | .eLen => { s with eLen := v.extractLsb' 0 8 }
  | .id => s
  | .cap0 => s
  | .cap1 => s
  | .ctrl => s
  | .status => s
  | .irqEn => s
  | .outLen => s
  | .signIter => s

/-- The interrupt output: DONE AND EN (R38, R121). -/
def State.irq (s : State) : Bool := s.done && s.irqEn

end Sys2Proof.Machine
end

