-- ==== Sys2Proof/Machine/Bus.lean ====
section
/-! DEFINITION. Host accesses and reset (spec/20_memory.md R41 to R49; spec/30_encoding.md R57, R58;
spec/70_reset_and_hazards.md R132, R133), and which agent takes the next step (spec/00_scope.md R10). -/

namespace Sys2Proof.Machine

open Sys2Proof.Config

/-! ### Reads -/

/-- The byte a host read sees at an offset of a window: storage, or 0 beyond capacity (R45). -/
def laneByte (s : State) (off : Nat) : Byte := if isStorage s.cfg off then readByte s.mem off else 0

/-- Whether a window reads 0 whatever it holds: DA always (R27), and R, S and OUT_BUF while BUSY (R48). -/
def readsZero (s : State) (win : Win) : Bool :=
  win == .da || (s.busy && (win == .r || win == .s || win == .outBuf))

/-- The word a window reads as at a multiple of 4 (R42, R45, R48). -/
def readWindow (s : State) (win : Win) (off : Nat) : Word :=
  if readsZero s win then 0
  else wordOfLanes (laneByte s off) (laneByte s (off + 1)) (laneByte s (off + 2)) (laneByte s (off + 3))

/-- `MemRead(off, 4)`, a legal read (R45); it changes nothing. -/
def memRead (s : State) (off : Nat) : Word :=
  match regAt off with
  | some r => readReg s r
  | none =>
    match winAt off with
    | some win => readWindow s win off
    | none => 0

/-! ### Writes -/

/-- Storing bytes from an offset on, each only where it is storage (R42, R46). -/
def storeLanes (cfg : Params) : Memory → Nat → List Byte → Memory
  | m, _, [] => m
  | m, off, b :: bs => storeLanes cfg (if isStorage cfg off then writeByte m off b else m) (off + 1) bs

/-- Whether any of the four bytes at an offset is storage. A word wholly beyond its window's capacity is a reserved
offset (R40); DEDUCED, assumption log 11. -/
def anyStorage (cfg : Params) (off : Nat) : Bool :=
  isStorage cfg off || isStorage cfg (off + 1) || isStorage cfg (off + 2) || isStorage cfg (off + 3)

/-- Whether a register is one of the length registers, which the busy lock covers (R47). -/
def isLength : Reg → Bool
  | .inLen => true
  | .tlen => true
  | .labelLen => true
  | .eLen => true
  | .id => false
  | .cap0 => false
  | .cap1 => false
  | .ctrl => false
  | .status => false
  | .irqEn => false
  | .outLen => false
  | .signIter => false

/-- A legal write to a register other than CTRL (R46, R47). -/
def writeReg (r : Reg) (v : Word) (s : State) : State :=
  if r = .status then writeStatus v s
  else if r = .irqEn then writeIrqEn v s
  else if isLength r then (if s.busy then turnAway s else storeLength r v s)
  else s

/-- A legal write to a word of a window (R46, R47): OUT_BUF and words without storage ignore it. -/
def writeWindow (win : Win) (off : Nat) (v : Word) (s : State) : State :=
  if win = .outBuf then s
  else if !anyStorage s.cfg off then s
  else if s.busy then turnAway s
  else s.setMem (storeLanes s.cfg s.mem off (lanesOf v))

/-- `MemWrite(off, 4, v)`, a legal write, at an offset other than CTRL's (R46, R47). -/
def memWrite (off : Nat) (v : Word) (s : State) : State :=
  match regAt off with
  | some r => writeReg r v s
  | none =>
    match winAt off with
    | some win => writeWindow win off v s
    | none => s

/-! ### Reset -/

/-- The reset input (R132, R133): every piece of the block's state at its reset value, whatever the phase; the instance
and what the outside world holds in store stay (assumption log 20). -/
def applyReset (s : State) : State := State.resetWith s.cfg s.inputs s.draws

/-! ### Which agent moves -/

/-- What the next step is: settled already, or the run of a command at a state. -/
inductive Action where
  | settled (r : Result)
  | run (i : Instr) (s : State)
  deriving Repr

/-- A legal CTRL write (R57, R58): ignored with WERR while BUSY; nothing at all with START = 0; else a command, run by
its own meaning or, for a reserved CMD, accepted here (R59). -/
def commandWrite (v : Word) (s : State) : Action :=
  if s.busy then .settled (.next (turnAway s))
  else
    match decode v with
    | .ok i => .run i s
    | .error (.reservedCmd cmd) => .settled (.next (accept cmd (hselField v) (mselField v) s))
    | .error .notStarted => .settled (.next s)
    | .error .notAWord => .settled (.next s)

/-- A host write inside the window (R41, R46). -/
def hostWrite (off size : Nat) (v : Word) (s : State) : Action :=
  if !legalAccess off size then .settled (.next (s.answer .busError))
  else if regAt off = some .ctrl then commandWrite v (s.answer .written)
  else .settled (.next ((memWrite off v s).answer .written))

/-- A host read inside the window (R41, R45). -/
def hostRead (off size : Nat) (s : State) : State :=
  if !legalAccess off size then s.answer .busError else s.answer (.data (memRead s off))

/-- One read of a WAIT (R67): STATUS is read, and unless bit 1, DONE, of the value is 1 the host reads again, after as many
controller steps as it chooses. Assumption log 25. -/
def waitRead (gaps : List Nat) (s : State) : State :=
  if (memRead s 0x014).getLsbD 1 then s.answer (.data (memRead s 0x014))
  else (s.answer (.data (memRead s 0x014))).queueFirst { wait := gaps.headD 1, op := .waitDone gaps.tail }

/-- The step of a host operation (R10, R39, R67, R132). -/
def hostAction (op : HostOp) (s : State) : Action :=
  match op with
  | .reset => .settled (.next (applyReset s))
  | .waitDone gaps => .settled (.next (waitRead gaps s))
  | .read addr size =>
    match windowOffset s.cfg addr with
    | some off => .settled (.next (hostRead off size s))
    | none => .settled (.next (s.answer .notSelected))
  | .write addr size v =>
    match windowOffset s.cfg addr with
    | some off => hostWrite off size v s
    | none => .settled (.next (s.answer .notSelected))

/-- The word whose fields CTRL holds latched, with START = 1. -/
def latchedWord (s : State) : Word := commandWord s.ctrl.cmd s.ctrl.hsel s.ctrl.msel

/-- The step of the controller while BUSY (R37): the latched command's, or the completion of a reserved CMD (R59). -/
def controllerAction (s : State) : Action :=
  match decode (latchedWord s) with
  | .ok i => .run i s
  | .error _ => .settled (reservedStep s)

/-- Which agent moves (R10): the head of the host's queue when its wait is over or the controller has no step, else the
controller, whose step uses up one of the head's waits. On an IDLE block with an empty queue no agent has a step and the
state stays. DESIGN CHOICE, assumption log 3 and 4. -/
def nextAction (s : State) : Action :=
  match s.inputs with
  | [] => if s.phase = .idle then .settled (.next s) else controllerAction s
  | ev :: rest =>
    if ev.wait = 0 ∨ s.phase = .idle then hostAction ev.op { s with inputs := rest }
    else controllerAction { s with inputs := { ev with wait := ev.wait - 1 } :: rest }

end Sys2Proof.Machine
end

