-- ==== Sys2Proof/Machine/Mgf1.lean ====
section
/-! DEFINITION. The command MGF1 (spec/42_mgf1.md R89 to R91). -/

namespace Sys2Proof.Machine

/-- The completion of MGF1 with the mask as result (R89, R115). -/
def mgf1Finish (code : ErrCode) (mask : List Byte) (s : State) : State := finish code (outputWrites code mask) s

/-- CHECK of MGF1 (R89, R113): the mask selector, the capacities, and the empty mask. HSEL is checked only through
MSEL = 0. -/
def mgf1Check (s : State) : State :=
  let s := storeSelectors s
  if !validSel s s.w.ms then mgf1Finish .badCmd [] s
  else if s.cfg.bmax < s.inLen.toNat ∨ s.cfg.bmax < s.tlen.toNat then mgf1Finish .alloc [] s
  else
    let s := s.setW { s.w with out := [], i := 0 }
    if s.tlen = 0 then mgf1Finish .ok [] s else s.goto .mBlock

/-- M_BLOCK (R88, R89): one block of MGF1(ms, IN_BUF[0..IN_LEN−1], TLEN); the last one completes the command. -/
def mgf1Block (s : State) : State :=
  blockStep (inputBytes s) s.tlen.toNat (mgf1Finish .arith []) (fun mask => mgf1Finish .ok mask) s

/-- The controller's step of a running MGF1, by phase (R37, R89). -/
def mgf1Phase (s : State) : Result :=
  match s.phase with
  | .check => .next (mgf1Check s)
  | .mBlock => .next (mgf1Block s)
  | _ => .fault .phaseNotOfCommand

/-- MGF1 (R89). -/
def execMgf1 (hsel msel : Sel) (s : State) : Result := command 3 hsel msel mgf1Phase s

end Sys2Proof.Machine
end

