-- ==== Sys2Proof/Machine/OaepDec.lean ====
section
/-! DEFINITION. OAEP_DEC (spec/43_oaep.md R99 to R106). -/

namespace Sys2Proof.Machine

/-- The completion of OAEP_DEC with the recovered message as result (R105, R115). -/
def decFinish (code : ErrCode) (message : List Byte) (s : State) : State := finish code (outputWrites code message) s

/-- CHECK of OAEP_DEC (R99, R100, R113): selectors, capacities, then num ≥ 2h + 2. -/
def decCheck (s : State) : State :=
  let s := storeSelectors s
  if !(validSel s s.w.hs && validSel s s.w.ms) then decFinish .badCmd [] s
  else if s.cfg.bmax < s.inLen.toNat ∨ s.cfg.bmax < s.tlen.toNat ∨ s.cfg.lmax < s.labelLen.toNat then
    decFinish .alloc [] s
  else if s.tlen.toNat < 2 * s.w.h + 2 then decFinish .keyTooSmall [] s
  else s.goto .dPad

/-- The working block of exactly num bytes (R99, R101): the input left-padded with zeros, or its first num bytes when it
is longer. -/
def paddedBlock (s : State) : List Byte :=
  if s.tlen.toNat < s.inLen.toNat then s.winBytes .inBuf s.tlen.toNat
  else zeros (s.tlen.toNat - s.inLen.toNat) ++ inputBytes s

/-- D_PAD (R99, R101, R102): the working block, its flags and its two parts; no early return. -/
def decPad (s : State) : State :=
  let bad := decide (s.tlen.toNat < s.inLen.toNat)
  let em := paddedBlock s
  (s.setW { s.w with
    bad := bad
    em := em
    good := (em.head? == some 0x00) && !bad
    seed := (em.drop 1).take s.w.h
    db := em.drop (s.w.h + 1)
    out := []
    i := 0 }).goto .dSeedmask

/-- The end of D_SEEDMASK (R99): w.seed becomes the seed. -/
def unmaskSeed (mask : List Byte) (s : State) : State :=
  (s.setW { s.w with seed := xorBytes s.w.seed mask }).goto .dDbmask

/-- D_SEEDMASK (R88, R99): the mask of h bytes over the masked DB. -/
def decSeedmask (s : State) : State := blockStep s.w.db s.w.h (decFinish .arith []) unmaskSeed s

/-- The end of D_DBMASK (R99): w.db becomes DB. -/
def unmaskDb (mask : List Byte) (s : State) : State := (s.setW { s.w with db := xorBytes s.w.db mask }).goto .dLhash

/-- D_DBMASK (R88, R99): the mask of dblen bytes over the seed. -/
def decDbmask (s : State) : State := blockStep s.w.seed (dblen s) (decFinish .arith []) unmaskDb s

/-- CTEQ(a, b): equality, folded over every byte of both (R99, R103). -/
def cteq (a b : List Byte) : Bool :=
  a.length == b.length && (List.zipWith (· ^^^ ·) a b).foldl (fun acc x => acc ||| x) 0 == 0

/-- What D_LHASH does with the label hash (R99, R103): it is compared and folded into w.good. -/
def foldLhash (lhash : List Byte) (s : State) : State :=
  (s.setW { s.w with lhash := lhash, good := s.w.good && cteq (s.w.db.take s.w.h) lhash }).goto .dScan

/-- D_LHASH (R99, R103). -/
def decLhash (s : State) : State := afterCall (callHash s.w.hs (labelBytes s) s) (decFinish .arith []) foldLhash

/-- The index of the first nonzero byte of DB from index h on, if there is one (R99). -/
def separatorIndex (db : List Byte) (h : Nat) : Option Nat :=
  ((db.drop h).findIdx? fun b => b != 0x00).map (· + h)

/-- Whether the separator found is 0x01 (R99). -/
def separatorGood (db : List Byte) (h : Nat) : Bool :=
  match separatorIndex db h with
  | some idx => db[idx]? == some 0x01
  | none => false

/-- The message: what follows the separator (R105). -/
def recoveredMessage (db : List Byte) (h : Nat) : List Byte :=
  match separatorIndex db h with
  | some idx => db.drop (idx + 1)
  | none => []

/-- D_SCAN (R99, R103, R104): the separator is folded into w.good, and only the completion code depends on it. -/
def decScan (s : State) : State :=
  let s := s.setW { s.w with good := s.w.good && separatorGood s.w.db s.w.h }
  if s.w.good then decFinish .ok (recoveredMessage s.w.db s.w.h) s else decFinish .oaepDecode [] s

/-- The hash call that the step of a running OAEP_DEC makes: the selector and the bytes hashed (R88, R99, R103). -/
def decHashRequest (s : State) : Option (Sel × List Byte) :=
  match s.phase with
  | .dSeedmask => some (s.w.ms, s.w.db ++ be32 s.w.i)
  | .dDbmask => some (s.w.ms, s.w.seed ++ be32 s.w.i)
  | .dLhash => some (s.w.hs, labelBytes s)
  | _ => none

/-- What that step does with the digest. -/
def decWithDigest (s : State) : List Byte → State → State :=
  match s.phase with
  | .dSeedmask => takeBlock s.w.h unmaskSeed
  | .dDbmask => takeBlock (dblen s) unmaskDb
  | .dLhash => foldLhash
  | _ => fun _ t => t

/-- The controller's step of a running OAEP_DEC, by phase (R37, R99). -/
def decPhase (s : State) : Result :=
  match s.phase with
  | .check => .next (decCheck s)
  | .dPad => .next (decPad s)
  | .dSeedmask => .next (decSeedmask s)
  | .dDbmask => .next (decDbmask s)
  | .dLhash => .next (decLhash s)
  | .dScan => .next (decScan s)
  | _ => .fault .phaseNotOfCommand

/-- OAEP_DEC (R99). -/
def execOaepDec (hsel msel : Sel) (s : State) : Result := command 5 hsel msel decPhase s

end Sys2Proof.Machine
end

