-- ==== Sys2Proof/Machine/OaepEnc.lean ====
section
/-! DEFINITION. OAEP_ENC (spec/43_oaep.md R92 to R98). -/

namespace Sys2Proof.Machine

/-- The completion of OAEP_ENC with the encoded block as result (R96, R115). -/
def encFinish (code : ErrCode) (block : List Byte) (s : State) : State := finish code (outputWrites code block) s

/-- CHECK of OAEP_ENC (R92, R93, R113): selectors, capacities, key size, then message size, on exact integers. -/
def encCheck (s : State) : State :=
  let s := storeSelectors s
  let emlen : Int := (s.tlen.toNat : Int) - 1
  if !(validSel s s.w.hs && validSel s s.w.ms) then encFinish .badCmd [] s
  else if s.cfg.bmax < s.inLen.toNat ∨ s.cfg.bmax < s.tlen.toNat ∨ s.cfg.lmax < s.labelLen.toNat then
    encFinish .alloc [] s
  else if emlen < 2 * (s.w.h : Int) + 1 then encFinish .keyTooSmall [] s
  else if emlen - 2 * (s.w.h : Int) - 1 < (s.inLen.toNat : Int) then encFinish .dataTooLarge [] s
  else s.goto .eLhash

/-- DB = lHash || PS || 0x01 || M (R92). -/
def dataBlock (s : State) (lhash : List Byte) : List Byte :=
  lhash ++ zeros (dblen s - s.inLen.toNat - s.w.h - 1) ++ [0x01] ++ inputBytes s

/-- E_LHASH (R92): the label hash and DB. -/
def encLhash (s : State) : State :=
  afterCall (callHash s.w.hs (labelBytes s) s) (encFinish .arith []) fun lhash s =>
    (s.setW { s.w with lhash := lhash, db := dataBlock s lhash }).goto .eSeed

/-- E_SEED (R92, R95): one draw of h bytes. -/
def encSeed (s : State) : State :=
  afterCall (callBytes s.w.h s) (encFinish .rng []) fun seed s => (s.setW { s.w with seed := seed, out := [], i := 0 }).goto .eDbmask

/-- E_DBMASK (R88, R92): w.db becomes maskedDB. -/
def encDbmask (s : State) : State :=
  blockStep s.w.seed (dblen s) (encFinish .arith [])
    (fun mask s => (s.setW { s.w with db := xorBytes s.w.db mask }).goto .eSeedmask) s

/-- E_SEEDMASK (R88, R92): w.seed becomes maskedSeed. -/
def encSeedmask (s : State) : State :=
  blockStep s.w.db s.w.h (encFinish .arith [])
    (fun mask s => (s.setW { s.w with seed := xorBytes s.w.seed mask }).goto .eOut) s

/-- E_OUT (R92, R96): the block 0x00 || maskedSeed || maskedDB. -/
def encOut (s : State) : State := encFinish .ok ([0x00] ++ s.w.seed ++ s.w.db) s

/-- The controller's step of a running OAEP_ENC, by phase (R37, R92). -/
def encPhase (s : State) : Result :=
  match s.phase with
  | .check => .next (encCheck s)
  | .eLhash => .next (encLhash s)
  | .eSeed => .next (encSeed s)
  | .eDbmask => .next (encDbmask s)
  | .eSeedmask => .next (encSeedmask s)
  | .eOut => .next (encOut s)
  | _ => .fault .phaseNotOfCommand

/-- OAEP_ENC (R92). -/
def execOaepEnc (hsel msel : Sel) (s : State) : Result := command 4 hsel msel encPhase s

end Sys2Proof.Machine
end

