-- ==== Sys2Proof/Machine/Sm2Sign.lean ====
section
/-! DEFINITION. SM2_SIGN (spec/40_sm2_sign.md R68 to R76). -/

namespace Sys2Proof.Machine

/-- The writes of an SM2_SIGN completion (R72): the signature on OK, zeros otherwise; DA cleared on every outcome. -/
def signWrites (code : ErrCode) (s : State) : State :=
  if code = .ok then ((s.fillWin .r (i2be s.cfg.sb s.w.r)).fillWin .s (i2be s.cfg.sb s.w.s)).fillWin .da []
  else ((s.fillWin .r []).fillWin .s []).fillWin .da []

/-- The completion of SM2_SIGN (R72, R115). -/
def signFinish (code : ErrCode) (s : State) : State := finish code (signWrites code) s

/-- CHECK of SM2_SIGN (R68, R113): capacity, order, then dA in [1, n − 2]. -/
def signCheck (s : State) : State :=
  if s.cfg.emax < s.eLen.toNat then signFinish .alloc s
  else
    afterCall (callOrder s) (signFinish .arith) fun n s =>
      if 1 ≤ scalar s .da ∧ (scalar s .da : Int) ≤ (n : Int) - 2 then
        (s.setW { s.w with n := n, e := scalarE s }).goto .sDraw
      else signFinish .arith (s.setW { s.w with n := n, e := scalarE s })

/-- S_DRAW (R68, R69): the draw is counted before the call; a failure or a draw ≥ n ends with RNG, a draw of 0 is made
again. -/
def signDraw (s : State) : State :=
  afterCall (callRange { s with signIter := s.signIter + 1 }) (signFinish .rng) fun k s =>
    if s.w.n ≤ k then signFinish .rng s
    else if k = 0 then s.goto .sDraw
    else (s.setW { s.w with k := k }).goto .sMulg

/-- S_MULG (R68): the affine x-coordinate of k·G. -/
def signMulg (s : State) : State :=
  afterCall (callMulG s.w.k s) (signFinish .arith) fun x1 s => (s.setW { s.w with x1 := x1 }).goto .sRs

/-- (inv_n(1 + dA) · (k − r·dA)) mod n, exactly (R71); none when 1 + dA has no inverse. -/
def signS (n dA k r : Nat) : Option Nat :=
  (modInv (1 + dA) n).map fun inv => ((inv : Int) * ((k : Int) - (r : Int) * (dA : Int)) % (n : Int)).toNat

/-- S_RS (R68, R70, R71): r, its two rejections, s, its rejection, then the signature. -/
def signRs (s : State) : State :=
  afterCall (callModOp (some ((s.w.e + s.w.x1) % s.w.n)) s) (signFinish .arith) fun r s =>
    let s := s.setW { s.w with r := r }
    if r = 0 then s.goto .sDraw
    else if r + s.w.k = s.w.n then s.goto .sDraw
    else
      afterCall (callModOp (signS s.w.n (scalar s .da) s.w.k r) s) (signFinish .arith) fun sv s =>
        let s := s.setW { s.w with s := sv }
        if sv = 0 then s.goto .sDraw else signFinish .ok s

/-- The controller's step of a running SM2_SIGN, by phase (R37, R68). -/
def signPhase (s : State) : Result :=
  match s.phase with
  | .check => .next (signCheck s)
  | .sDraw => .next (signDraw s)
  | .sMulg => .next (signMulg s)
  | .sRs => .next (signRs s)
  | _ => .fault .phaseNotOfCommand

/-- SM2_SIGN (R68). HSEL and MSEL are latched and otherwise ignored. -/
def execSm2Sign (hsel msel : Sel) (s : State) : Result := command 1 hsel msel signPhase s

end Sys2Proof.Machine
end

