-- ==== Sys2Proof/Machine/Sm2Verify.lean ====
section
/-! DEFINITION. SM2_VERIFY (spec/41_sm2_verify.md R77 to R83). -/

namespace Sys2Proof.Machine

/-- The completion of SM2_VERIFY, which writes no window (R81, R115); OK sets VALID. -/
def verifyFinish (code : ErrCode) (s : State) : State := finish code id s

/-- CHECK of SM2_VERIFY (R77, R113): capacity, order, then the scalars as they stand. -/
def verifyCheck (s : State) : State :=
  if s.cfg.emax < s.eLen.toNat then verifyFinish .alloc s
  else
    afterCall (callOrder s) (verifyFinish .arith) fun n s =>
      (s.setW { s.w with n := n, e := scalarE s, r := scalar s .r, s := scalar s .s }).goto .vRange

/-- 1 ≤ v ≤ n − 1 on exact integers (R78). -/
def inRange (v n : Nat) : Bool := decide (1 ≤ v ∧ (v : Int) ≤ (n : Int) - 1)

/-- V_RANGE (R77, R78): both range checks before any group operation, then t = (r + s) mod n. -/
def verifyRange (s : State) : State :=
  if !inRange s.w.r s.w.n then verifyFinish .invalidSig s
  else if !inRange s.w.s s.w.n then verifyFinish .invalidSig s
  else
    afterCall (callModOp (some ((s.w.r + s.w.s) % s.w.n)) s) (verifyFinish .arith) fun t s =>
      let s := s.setW { s.w with t := t }
      if t = 0 then verifyFinish .invalidSig s else s.goto .vMul

/-- V_MUL (R77, R79): s·G + t·PA; infinity is INVALID_SIG, a fault or an invalid PA is ARITH. -/
def verifyMul (s : State) : State :=
  afterCall (callMul2 s.w.s s.w.t (scalar s .paX, scalar s .paY) s) (verifyFinish .arith) fun sum s =>
    match sum with
    | .inf => verifyFinish .invalidSig s
    | .affine x1 => (s.setW { s.w with x1 := x1 }).goto .vCmp

/-- V_CMP (R77): accept when (e + x1) mod n = r. -/
def verifyCmp (s : State) : State :=
  afterCall (callModOp (some ((s.w.e + s.w.x1) % s.w.n)) s) (verifyFinish .arith) fun v s =>
    if v = s.w.r then verifyFinish .ok s else verifyFinish .invalidSig s

/-- The controller's step of a running SM2_VERIFY, by phase (R37, R77). -/
def verifyPhase (s : State) : Result :=
  match s.phase with
  | .check => .next (verifyCheck s)
  | .vRange => .next (verifyRange s)
  | .vMul => .next (verifyMul s)
  | .vCmp => .next (verifyCmp s)
  | _ => .fault .phaseNotOfCommand

/-- SM2_VERIFY (R77). HSEL and MSEL are latched and otherwise ignored. -/
def execSm2Verify (hsel msel : Sel) (s : State) : Result := command 2 hsel msel verifyPhase s

end Sys2Proof.Machine
end

