-- ==== Sys2Proof/Machine/Dispatch.lean ====
section
/-! DEFINITION. One arm per command of spec/opcode_table.json. -/

namespace Sys2Proof.Machine

def exec (i : Instr) (s : State) : Host.Outcome State Fault Refusal :=
  match i with
  | .sm2Sign hsel msel => Sys2Proof.Machine.execSm2Sign hsel msel s
  | .sm2Verify hsel msel => Sys2Proof.Machine.execSm2Verify hsel msel s
  | .mgf1 hsel msel => Sys2Proof.Machine.execMgf1 hsel msel s
  | .oaepEnc hsel msel => Sys2Proof.Machine.execOaepEnc hsel msel s
  | .oaepDec hsel msel => Sys2Proof.Machine.execOaepDec hsel msel s

end Sys2Proof.Machine
end

