-- ==== Sys2Proof/Machine/Step.lean ====
section
/-! DEFINITION. One step of the machine (spec/00_scope.md R10, spec/10_state.md R37). -/

namespace Sys2Proof.Machine

/-- The outcome of an action: the one it settled on, or that of the command it runs. -/
def takeAction : Action → Host.Outcome State Fault Refusal
  | .settled r => r
  | .run i s => exec i s

/-- One step of one agent: a host operation, a step of the controller, or nothing where no agent has a step. -/
def step (s : State) : Host.Outcome State Fault Refusal := takeAction (nextAction s)

/-- The state with a command word placed where the block takes its next command: the host's next operation is the legal
CTRL write of that word (R57), and the block is IDLE with zero working registers (R36), as an accepted command needs.
Assumption log 18. -/
def State.withFetchWord (s : State) (nbits w : Nat) : State :=
  { s with
    phase := .idle
    w := Working.zero
    inputs :=
      { wait := 0, op := .write (s.cfg.base + 0x010) 4 (BitVec.ofNat 32 (w % 2 ^ nbits)) } :: s.inputs }

end Sys2Proof.Machine
end

