-- ==== Sys2Proof/Machine/Script.lean ====
section
/-! DEFINITION. Host scripts, their pseudo-operations and the words they read (spec/30_encoding.md R66, R67). -/

namespace Sys2Proof.Machine

open Sys2Proof.Config

/-- A line of a host script (R66): a word write or read at a window offset, or the reset; or the loop of WAIT (R67), the
host's own control flow around one read of STATUS. -/
inductive ScriptLine where
  | w (off : Nat) (value : Word)
  | r (off : Nat)
  | reset
  | waitDone (gaps : List Nat)
  deriving DecidableEq, Repr

/-- The bus transaction of a line (R66), at the instance's base address (R39). -/
def ScriptLine.op (cfg : Params) : ScriptLine → HostOp
  | .w off value => .write (cfg.base + off) 4 value
  | .r off => .read (cfg.base + off) 4
  | .reset => .reset
  | .waitDone gaps => .waitDone gaps

/-- A script as host events, each line after the given number of controller steps. -/
def scriptEvents (cfg : Params) (lines : List (Nat × ScriptLine)) : List HostEvent :=
  lines.map fun l => { wait := l.1, op := l.2.op cfg }

/-- The registers WREG names (R67). -/
inductive NamedReg where
  | inLen
  | tlen
  | labelLen
  | eLen
  | irqEn
  deriving DecidableEq, Repr

/-- The offset of a register WREG names (R40). -/
def NamedReg.off : NamedReg → Nat
  | .inLen => 0x020
  | .tlen => 0x024
  | .labelLen => 0x028
  | .eLen => 0x02C
  | .irqEn => 0x018

/-- The pseudo-operations (R67). WAIT carries the controller steps between its reads, whose number nothing bounds
(assumption log 25). -/
inductive Pseudo where
  | start (cmd hsel msel : Sel)
  | wait (gaps : List Nat)
  | ack
  | wscalar (win : Win) (v : Nat)
  | wbytes (win : Win) (b : List Byte)
  | rbytes (win : Win) (L : Nat)
  | wreg (reg : NamedReg) (v : Word)
  deriving DecidableEq, Repr

/-- The bus word of four bytes of a string from index 4w on, 0 where the string ends (R67). -/
def scriptWord (b : List Byte) (w : Nat) : Word :=
  wordOfLanes (b.getD (4 * w) 0) (b.getD (4 * w + 1) 0) (b.getD (4 * w + 2) 0) (b.getD (4 * w + 3) 0)

/-- ⌈L/4⌉. -/
def wordCount (L : Nat) : Nat := (L + 3) / 4

/-- Writing a byte string to a window, word by word (R67). -/
def writeLines (win : Win) (b : List Byte) : List ScriptLine :=
  (List.range (wordCount b.length)).map fun w => .w (win.base + 4 * w) (scriptWord b w)

/-- Reading the first L bytes of a window, word by word (R67). -/
def readLines (win : Win) (L : Nat) : List ScriptLine :=
  (List.range (wordCount L)).map fun w => .r (win.base + 4 * w)

/-- The expansion of a pseudo-operation (R67). -/
def Pseudo.expand (cfg : Params) : Pseudo → List ScriptLine
  | .start cmd hsel msel => [.w 0x010 (commandWord cmd hsel msel)]
  | .wait gaps => [.waitDone gaps]
  | .ack => [.w 0x014 0x0000000A]
  | .wscalar win v => writeLines win (i2be cfg.sb v)
  | .wbytes win b => writeLines win b
  | .rbytes win L => readLines win L
  | .wreg reg v => [.w reg.off v]

/-- Whether the next step is the host's (R10). -/
def hostTurn (s : State) : Bool :=
  match s.inputs with
  | [] => false
  | ev :: _ => ev.wait == 0 || s.phase == .idle

/-- The words that the host's reads among the next k steps return (R45, R66). -/
def wordsRead : Nat → State → List Word
  | 0, _ => []
  | k + 1, s =>
    match step s with
    | .next t =>
      match hostTurn s, t.bus with
      | true, .data v => v :: wordsRead k t
      | _, _ => wordsRead k t
    | .fault _ => []
    | .refused _ => []

/-- The L bytes that words read one after the other hold: byte i is lane i mod 4 of word ⌊i/4⌋ (R67). -/
def bytesOfWords (words : List Word) (L : Nat) : List Byte :=
  (List.range L).map fun i => (lanesOf (words.getD (i / 4) 0)).getD (i % 4) 0

/-- The result of RBYTES of L bytes whose reads are those of the next k steps (R67). -/
def rbytesResult (L k : Nat) (s : State) : List Byte := bytesOfWords (wordsRead k s) L

end Sys2Proof.Machine
end

