-- ==== Sys2Proof/WellFormed.lean ====
section
/-! DEFINITION. What is well-formed: a command, a command word as an assembler writes it (spec/30_encoding.md R56, R59),
and an instance's parameters (spec/00_scope.md R4). -/

namespace Sys2Proof

/-- Every term of `Instr` is a well-formed command: each operand is a selector of exactly the 4 bits its field has
(R56), the block has no other operand, and an unassigned selector is no encoding error (it completes with BAD_CMD, R63). -/
def Instr.wf : Instr → Bool
  | .sm2Sign _ _ => true
  | .sm2Verify _ _ => true
  | .mgf1 _ _ => true
  | .oaepEnc _ _ => true
  | .oaepDec _ _ => true

/-- A command word as START expands to it (R67): START = 1, an assigned CMD (R59), and every ignored bit 0. The block
accepts other words too (R60); this is the form an encoder writes. -/
def canonicalWord (v : Word) : Bool :=
  v.getLsbD 0 && (1 ≤ (v.extractLsb' 4 4).toNat && (v.extractLsb' 4 4).toNat ≤ 5) &&
    v.extractLsb' 1 3 == 0 && v.extractLsb' 16 16 == 0

namespace Config

/-- The constraints R4 puts on an instance, one field each. -/
structure Params.WellFormed (p : Params) : Prop where
  base_aligned : p.base % 0x4000 = 0
  sb_pos : 1 ≤ p.sb
  sb_le : p.sb ≤ 128
  emax_pos : 1 ≤ p.emax
  emax_le : p.emax ≤ 128
  bmax_pos : 1 ≤ p.bmax
  bmax_le : p.bmax ≤ 4096
  lmax_le : p.lmax ≤ 4096
  hmax_pos : 1 ≤ p.hmax
  hmax_le : p.hmax ≤ 255
  /-- Entry 0 is never assigned. -/
  hash_sel_ne_zero : ∀ e ∈ p.hashTable, e.1 ≠ 0
  /-- HASH_TABLE is a map: one entry a selector. -/
  hash_sel_unique : (p.hashTable.map Prod.fst).Nodup
  hash_len_pos : ∀ e ∈ p.hashTable, 1 ≤ e.2.len
  hash_len_le : ∀ e ∈ p.hashTable, e.2.len ≤ p.hmax
  /-- Every fn gives each message one digest of the algorithm's length. -/
  hash_fn_fits : ∀ e ∈ p.hashTable, e.2.fn.fits e.2.len = true
  default_assigned : p.defaultHash ∈ p.hashTable.map Prod.fst
  order_prime : p.curve.order.Prime
  order_lt : p.curve.order < 256 ^ p.sb
  /-- G has order n: its multiples differ. -/
  points_distinct : p.curve.points.Nodup
  coord_lt : ∀ q ∈ p.curve.points, q.1 < 256 ^ p.sb ∧ q.2 < 256 ^ p.sb

end Config

end Sys2Proof
end

