-- ==== Sys2Proof/Safety.lean ====
section
/-! DEFINITION. The terms claims about the block are stated in: runs, the invariants of a reachable state, what a command
leaves unchanged, how a completion looks, and the public part of a state. -/

namespace Sys2Proof.Machine

open Sys2Proof.Config

/-! ### Runs -/

/-- k steps, stopping at the first fault or refusal. -/
def steps : Nat → State → Host.Outcome State Fault Refusal
  | 0, s => .next s
  | k + 1, s =>
    match step s with
    | .next s' => steps k s'
    | .fault r => .fault r
    | .refused r => .refused r

/-- The host's queue begins with this operation, and it is its turn (R10). -/
def HostNext (op : HostOp) (rest : List HostEvent) (s : State) : Prop :=
  ∃ wait, s.inputs = { wait := wait, op := op } :: rest ∧ (wait = 0 ∨ s.phase = .idle)

/-- Through the first n controller steps from here the block stays BUSY. -/
def BusyThrough (n : Nat) (s : State) : Prop := ∀ j < n, ∃ u, steps j s = .next u ∧ u.phase ≠ .idle

/-- CTRL holds the fields of this command. -/
def Latched (i : Instr) (s : State) : Prop := s.ctrl = { cmd := i.cmd, hsel := i.hsel, msel := i.msel }

/-- The next n provider calls are scripted not to fail, and `rest` is scripted after them. -/
def NoFail (n : Nat) (rest : List Bool) (s : State) : Prop := s.draws.fails = List.replicate n false ++ rest

/-! ### Reachable states -/

/-- Whether a phase belongs to a command with this CMD value (R34, R68, R77, R89, R92, R99). -/
def phaseOf (cmd : Sel) : Phase → Bool
  | .idle => true
  | .check => true
  | .sDraw => cmd == 1
  | .sMulg => cmd == 1
  | .sRs => cmd == 1
  | .vRange => cmd == 2
  | .vMul => cmd == 2
  | .vCmp => cmd == 2
  | .mBlock => cmd == 3
  | .eLhash => cmd == 4
  | .eSeed => cmd == 4
  | .eDbmask => cmd == 4
  | .eSeedmask => cmd == 4
  | .eOut => cmd == 4
  | .dPad => cmd == 5
  | .dSeedmask => cmd == 5
  | .dDbmask => cmd == 5
  | .dLhash => cmd == 5
  | .dScan => cmd == 5

/-- The invariant of the registers, the memory and the phase. -/
structure State.Consistent (s : State) : Prop where
  cfg_wf : s.cfg.WellFormed
  /-- The memory is in canonical form and lists storage bytes only (R40). -/
  mem_wf : Memory.wf s.mem = true
  mem_storage : ∀ c ∈ s.mem, isStorage s.cfg c.1 = true
  /-- R36. -/
  idle_zero : s.phase = .idle → s.w = Working.zero
  /-- R34: the phase is one of the latched command's. -/
  phase_cmd : phaseOf s.ctrl.cmd s.phase = true
  /-- R57, R137: no outcome stands while a command runs. -/
  busy_clear : s.phase ≠ .idle → s.done = false ∧ s.valid = false ∧ s.err = .ok ∧ s.outLen = 0
  /-- R18, R80: VALID implies an SM2_VERIFY that completed with OK. -/
  valid_ok : s.valid = true → s.err = .ok ∧ s.ctrl.cmd = 2
  /-- R109: DIGEST is never written. -/
  err_not_digest : s.err ≠ .digest

/-- The phases of a running SM2_SIGN after CHECK (R68). -/
def Phase.signing (p : Phase) : Bool := p == .sDraw || p == .sMulg || p == .sRs

/-- The phases of a running SM2_VERIFY after CHECK (R77). -/
def Phase.verifying (p : Phase) : Bool := p == .vRange || p == .vMul || p == .vCmp

/-- The phases of a running OAEP_ENC after CHECK (R92). -/
def Phase.encoding (p : Phase) : Bool :=
  p == .eLhash || p == .eSeed || p == .eDbmask || p == .eSeedmask || p == .eOut

/-- The phases of a running OAEP_DEC after CHECK (R99). -/
def Phase.decoding (p : Phase) : Bool :=
  p == .dPad || p == .dSeedmask || p == .dDbmask || p == .dLhash || p == .dScan

/-- The target length of a masking phase (R88, R89, R92, R99). -/
def maskLength (s : State) : Option Nat :=
  match s.phase with
  | .mBlock => some s.tlen.toNat
  | .eDbmask => some (dblen s)
  | .dDbmask => some (dblen s)
  | .eSeedmask => some s.w.h
  | .dSeedmask => some s.w.h
  | _ => none

/-- What the working registers hold in the phases of a running command: the operands each phase reads. -/
structure State.InFlight (s : State) : Prop where
  check_zero : s.phase = .check → s.w = Working.zero
  sm2 : s.phase.signing = true ∨ s.phase.verifying = true →
    s.w.n = s.cfg.curve.order ∧ s.w.e = scalarE s ∧ s.eLen.toNat ≤ s.cfg.emax
  sign_key : s.phase.signing = true → 1 ≤ scalar s .da ∧ scalar s .da + 2 ≤ s.w.n
  sign_regs : s.phase.signing = true →
    s.w.k < s.w.n ∧ s.w.x1 < 256 ^ s.cfg.sb ∧ s.w.r < s.w.n ∧ s.w.s < s.w.n
  sign_nonce : s.phase = .sMulg ∨ s.phase = .sRs → 1 ≤ s.w.k
  sign_point : s.phase = .sRs → ecMulG s.cfg.curve s.w.k = some s.w.x1
  verify_operands : s.phase.verifying = true → s.w.r = scalar s .r ∧ s.w.s = scalar s .s
  verify_range : s.phase = .vMul ∨ s.phase = .vCmp →
    1 ≤ s.w.r ∧ s.w.r < s.w.n ∧ 1 ≤ s.w.s ∧ s.w.s < s.w.n ∧ s.w.t = (s.w.r + s.w.s) % s.w.n ∧ s.w.t ≠ 0
  verify_sum : s.phase = .vCmp →
    ecMul2 s.cfg.curve s.w.s s.w.t (scalar s .paX, scalar s .paY) = some (.affine s.w.x1)
  mask_sel : s.phase = .mBlock ∨ s.phase.encoding = true ∨ s.phase.decoding = true →
    s.w.ms = resolvedMs s ∧ validSel s s.w.ms = true ∧ s.w.hm = hlen s.cfg s.w.ms ∧
      s.inLen.toNat ≤ s.cfg.bmax ∧ s.tlen.toNat ≤ s.cfg.bmax ∧ s.tlen ≠ 0
  oaep_sel : s.phase.encoding = true ∨ s.phase.decoding = true →
    s.w.hs = resolvedHs s ∧ validSel s s.w.hs = true ∧ s.w.h = hlen s.cfg s.w.hs ∧
      s.labelLen.toNat ≤ s.cfg.lmax ∧ 2 * s.w.h + 2 ≤ s.tlen.toNat
  enc_room : s.phase.encoding = true → s.inLen.toNat + 2 * s.w.h + 2 ≤ s.tlen.toNat
  seed_length : s.phase = .eDbmask ∨ s.phase = .eSeedmask ∨ s.phase = .eOut ∨
      (s.phase.decoding = true ∧ s.phase ≠ .dPad) → s.w.seed.length = s.w.h
  db_length : (s.phase.encoding = true ∧ s.phase ≠ .eLhash) ∨ (s.phase.decoding = true ∧ s.phase ≠ .dPad) →
    s.w.db.length = dblen s
  mask_partial : ∀ L ∈ maskLength s, s.w.out.length < L

/-- A reachable state in which this command is latched and runs its given phase. -/
structure Running (i : Instr) (p : Phase) (s : State) : Prop where
  consistent : s.Consistent
  inFlight : s.InFlight
  latched : Latched i s
  phase : s.phase = p

/-! ### What a step leaves unchanged -/

/-- The registers no controller step writes (R55), with the model's own fields that only the host's side moves. -/
structure SameControl (s t : State) : Prop where
  cfg : t.cfg = s.cfg
  ctrl : t.ctrl = s.ctrl
  werr : t.werr = s.werr
  irqEn : t.irqEn = s.irqEn
  inLen : t.inLen = s.inLen
  tlen : t.tlen = s.tlen
  labelLen : t.labelLen = s.labelLen
  eLen : t.eLen = s.eLen
  inputs : t.inputs = s.inputs
  bus : t.bus = s.bus

/-- Every byte of memory reads as before, except the storage bytes of the given windows. -/
def SameBytesOutside (wins : List Win) (s t : State) : Prop :=
  ∀ a, (∀ win ∈ wins, ¬ (win.base ≤ a ∧ a < win.base + win.capacity s.cfg)) → readByte t.mem a = readByte s.mem a

/-- A step inside a running command from phase to phase (R116): nothing the host can see changes but, at most, SIGN_ITER;
DONE, VALID, ERR, OUT_LEN and every byte of memory stay. -/
structure StaysRunning (s t : State) (p : Phase) : Prop where
  control : SameControl s t
  phase : t.phase = p
  done : t.done = s.done
  valid : t.valid = s.valid
  err : t.err = s.err
  outLen : t.outLen = s.outLen
  bytes : SameBytesOutside [] s t

/-- A completion with this code (R115), less the command-specific writes. -/
structure Completes (s t : State) (code : ErrCode) : Prop where
  control : SameControl s t
  phase : t.phase = .idle
  w : t.w = Working.zero
  done : t.done = true
  err : t.err = code
  valid : t.valid = (s.ctrl.cmd == 2 && code == .ok)

/-- The command-specific writes of an SM2_SIGN completion (R72): R, S and DA hold these integers, every other byte and
OUT_LEN as before. -/
structure WritesSignature (s t : State) (r sv : Nat) : Prop where
  sigR : scalar t .r = r
  sigS : scalar t .s = sv
  cleared : scalar t .da = 0
  bytes : SameBytesOutside [.r, .s, .da] s t
  outLen : t.outLen = s.outLen

/-- The command-specific writes of an MGF1 or OAEP completion (R89, R96, R105): OUT_BUF holds the result and zeros after
it, OUT_LEN its length, every other byte and SIGN_ITER as before. -/
structure WritesOutput (s t : State) (result : List Byte) : Prop where
  buffer : t.winBytes .outBuf s.cfg.bmax = result ++ zeros (s.cfg.bmax - result.length)
  length : t.outLen.toNat = result.length
  bytes : SameBytesOutside [.outBuf] s t
  signIter : t.signIter = s.signIter

/-- The windows a command writes at its completion (R55, R65). -/
def writtenWindows : Instr → List Win
  | .sm2Sign _ _ => [.r, .s, .da]
  | .sm2Verify _ _ => []
  | .mgf1 _ _ => [.outBuf]
  | .oaepEnc _ _ => [.outBuf]
  | .oaepDec _ _ => [.outBuf]

/-- The codes with which a command may complete in a phase (R68, R77, R89, R92, R99, R109). -/
def possibleCodes : Instr → Phase → List ErrCode
  | .sm2Sign _ _, .check => [.alloc, .arith]
  | .sm2Sign _ _, .sDraw => [.rng]
  | .sm2Sign _ _, .sMulg => [.arith]
  | .sm2Sign _ _, .sRs => [.arith, .ok]
  | .sm2Verify _ _, .check => [.alloc, .arith]
  | .sm2Verify _ _, .vRange => [.invalidSig, .arith]
  | .sm2Verify _ _, .vMul => [.invalidSig, .arith]
  | .sm2Verify _ _, .vCmp => [.ok, .invalidSig, .arith]
  | .mgf1 _ _, .check => [.badCmd, .alloc, .ok]
  | .mgf1 _ _, .mBlock => [.ok, .arith]
  | .oaepEnc _ _, .check => [.badCmd, .alloc, .keyTooSmall, .dataTooLarge]
  | .oaepEnc _ _, .eLhash => [.arith]
  | .oaepEnc _ _, .eSeed => [.rng]
  | .oaepEnc _ _, .eDbmask => [.arith]
  | .oaepEnc _ _, .eSeedmask => [.arith]
  | .oaepEnc _ _, .eOut => [.ok]
  | .oaepDec _ _, .check => [.badCmd, .alloc, .keyTooSmall]
  | .oaepDec _ _, .dSeedmask => [.arith]
  | .oaepDec _ _, .dDbmask => [.arith]
  | .oaepDec _ _, .dLhash => [.arith]
  | .oaepDec _ _, .dScan => [.ok, .oaepDecode]
  | _, _ => []

/-! ### The results, as the rules give them -/

/-- r of a signing attempt with nonce k (R68): (e + x1) mod n for the x-coordinate x1 of k·G. -/
def IsSigR (s : State) (k r : Nat) : Prop :=
  ∃ q, multipleOfG s.cfg.curve k = some q ∧ r = (scalarE s + q.1) % s.cfg.curve.order

/-- s of a signing attempt (R71): (inv_n(1 + dA) · (k − r·dA)) mod n, with the inverse as R8 defines it. -/
def IsSigS (n dA k r sv : Nat) : Prop :=
  ∃ inv, 1 ≤ inv ∧ inv < n ∧ (1 + dA) * inv % n = 1 ∧
    (sv : Int) = (inv : Int) * ((k : Int) - (r : Int) * (dA : Int)) % (n : Int)

/-- A nonce that SM2_SIGN does not use, or whose signature it rejects (R69 to R71). -/
def Rejected (s : State) (k : Nat) : Prop :=
  k = 0 ∨
    (k < s.cfg.curve.order ∧
      ∃ r sv, IsSigR s k r ∧ IsSigS s.cfg.curve.order (scalar s .da) k r sv ∧
        (r = 0 ∨ r + k = s.cfg.curve.order ∨ sv = 0))

/-- The steps a draw takes when it is rejected (R75). -/
def drawSteps (k : Nat) : Nat := if k = 0 then 1 else 3

/-- ⌈a / b⌉. -/
def ceilDiv (a b : Nat) : Nat := (a + b - 1) / b

/-- DB of an OAEP encoding (R94). -/
def encodedDB (lhash message : List Byte) (dblen : Nat) : List Byte :=
  lhash ++ zeros (dblen - message.length - lhash.length - 1) ++ [0x01] ++ message

/-- The OAEP block of R94 for a seed, with the mask function of the algorithm `ma`. -/
def encodedBlock (ma : HashAlg) (seed db : List Byte) : List Byte :=
  let maskedDB := xorBytes db (mgf1 ma seed db.length)
  [0x00] ++ xorBytes seed (mgf1 ma maskedDB seed.length) ++ maskedDB

/-- The seed and DB of an OAEP block of h + dblen + 1 bytes (R99). -/
def unmaskedDB (ma : HashAlg) (h : Nat) (em : List Byte) : List Byte :=
  let maskedDB := em.drop (h + 1)
  let seed := xorBytes ((em.drop 1).take h) (mgf1 ma maskedDB h)
  xorBytes maskedDB (mgf1 ma seed maskedDB.length)

/-- The first nonzero byte of DB from index h on is the 0x01 at this index (R99). -/
def SeparatorAt (db : List Byte) (h idx : Nat) : Prop :=
  h ≤ idx ∧ db[idx]? = some 0x01 ∧ ∀ j, h ≤ j → j < idx → db[j]? = some 0x00

/-! ### What the outcome of OAEP_DEC may depend on -/

/-- Two states that agree on everything public of a running OAEP_DEC (R103): parameters, selectors, lengths, phase,
counters, the sizes of the working strings, and the provider draws; not the bytes of any window or string, nor the
flags. -/
structure SamePublic (s t : State) : Prop where
  cfg : t.cfg = s.cfg
  ctrl : t.ctrl = s.ctrl
  phase : t.phase = s.phase
  inLen : t.inLen = s.inLen
  tlen : t.tlen = s.tlen
  labelLen : t.labelLen = s.labelLen
  inputs : t.inputs = s.inputs
  draws : t.draws = s.draws
  hs : t.w.hs = s.w.hs
  ms : t.w.ms = s.w.ms
  h : t.w.h = s.w.h
  hm : t.w.hm = s.w.hm
  i : t.w.i = s.w.i
  seed : t.w.seed.length = s.w.seed.length
  db : t.w.db.length = s.w.db.length
  out : t.w.out.length = s.w.out.length

end Sys2Proof.Machine
end

