-- ==== Sys2Proof/Certificates/Slice0/Obligations.lean ====
section
/-! DEFINITION. The statements about the block, rule by rule. -/

open Sys2Proof Sys2Proof.Machine Sys2Proof.Config

/-! ### The command word -/

/-- R56, R59, R60: decoding inverts encoding for every command and every selector, as a word and as its four bytes; and
a word decodes to a command exactly when its unignored bits are that command's encoding. -/
def Obligations.DecodeInvertsEncode : Prop :=
  (∀ i : Instr, i.wf = true → decode (encode i) = .ok i ∧ decodeBytes (lanesOf (encode i)) = .ok i) ∧
    ∀ (v : Word) (i : Instr), decode v = .ok i ↔ v &&& 0x0000FFF1 = encode i

/-- R59, R57, R60: the mask 0x000000F1 selects the command; START = 1 with a reserved CMD is the one illegal encoding;
START = 0 is no command. -/
def Obligations.MaskSelectsCommand : Prop :=
  ∀ v : Word,
    (v &&& 0x000000F1 = 0x00000011 ↔ ∃ h m, decode v = .ok (.sm2Sign h m)) ∧
    (v &&& 0x000000F1 = 0x00000021 ↔ ∃ h m, decode v = .ok (.sm2Verify h m)) ∧
    (v &&& 0x000000F1 = 0x00000031 ↔ ∃ h m, decode v = .ok (.mgf1 h m)) ∧
    (v &&& 0x000000F1 = 0x00000041 ↔ ∃ h m, decode v = .ok (.oaepEnc h m)) ∧
    (v &&& 0x000000F1 = 0x00000051 ↔ ∃ h m, decode v = .ok (.oaepDec h m)) ∧
    (v.getLsbD 0 = true ∧ (v.extractLsb' 4 4 = 0 ∨ 6 ≤ (v.extractLsb' 4 4).toNat) ↔
      ∃ c, decode v = .error (.reservedCmd c)) ∧
    (v.getLsbD 0 = false ↔ decode v = .error .notStarted)

/-- R56, R59: a few words written out bit by bit, MSEL HSEL CMD 000 START. -/
def Obligations.SampleWordsDecode : Prop :=
  decode 0b0000000000000000_0000_0000_0001_000_1 = .ok (.sm2Sign 0 0) ∧
    decode 0b0000000000000000_0000_0000_0010_000_1 = .ok (.sm2Verify 0 0) ∧
    decode 0b0000000000000000_1111_0000_0011_000_1 = .ok (.mgf1 0 15) ∧
    decode 0b0000000000000000_0011_0110_0100_000_1 = .ok (.oaepEnc 6 3) ∧
    decode 0b1000000000000001_0001_1111_0101_111_1 = .ok (.oaepDec 15 1)

/-! ### The step -/

/-- The step runs the decoded command. A CTRL write on an IDLE block runs the command its word decodes to, with the write
taken off the host's queue and answered (R57); a BUSY block runs the latched command (R37), and counts down the wait of
the queue's head where there is one. That the host's operations stand in a queue with waits, which a controller step
counts down, is the model's choice (assumption log 3), and so is that a controller step is `exec` of the latched command
(assumption log 15); R10 fixes neither. -/
def Obligations.StepRunsDecodedCommand : Prop :=
  (∀ (s : State) (v : Word) (i : Instr) (rest : List HostEvent),
      HostNext (.write (s.cfg.base + 0x010) 4 v) rest s → s.phase = .idle → decode v = .ok i →
      step s = exec i { s with inputs := rest, bus := .written }) ∧
    (∀ (s : State) (i : Instr), s.inputs = [] → s.phase ≠ .idle → Latched i s → step s = exec i s) ∧
    ∀ (s : State) (i : Instr) (wait : Nat) (op : HostOp) (rest : List HostEvent),
      s.inputs = { wait := wait + 1, op := op } :: rest → s.phase ≠ .idle → Latched i s →
      step s = exec i { s with inputs := { wait := wait, op := op } :: rest }

/-- R57, for each command: on an IDLE block its own meaning is its acceptance, and changes nothing else. -/
def Obligations.CommandIsAccepted : Prop :=
  ∀ (i : Instr) (s : State), s.phase = .idle →
    exec i s = .next { s with
      ctrl := { cmd := i.cmd, hsel := i.hsel, msel := i.msel }
      done := false, valid := false, err := .ok, outLen := 0, signIter := 0, phase := .check }

/-- R57: what a CTRL write on a block that is not BUSY does, for every word. -/
def Obligations.CtrlWriteStartsCommand : Prop :=
  ∀ (s : State) (v : Word) (rest : List HostEvent),
    HostNext (.write (s.cfg.base + 0x010) 4 v) rest s → s.phase = .idle →
    (v.getLsbD 0 = true →
      step s = .next { s with
        ctrl := { cmd := v.extractLsb' 4 4, hsel := v.extractLsb' 8 4, msel := v.extractLsb' 12 4 }
        done := false, valid := false, err := .ok, outLen := 0, signIter := 0, phase := .check
        inputs := rest, bus := .written }) ∧
    (v.getLsbD 0 = false → step s = .next { s with inputs := rest, bus := .written })

/-- R58: a CTRL write while BUSY is ignored and sets WERR. -/
def Obligations.CtrlWriteWhileBusyIgnored : Prop :=
  ∀ (s : State) (v : Word) (rest : List HostEvent),
    HostNext (.write (s.cfg.base + 0x010) 4 v) rest s → s.phase ≠ .idle →
    step s = .next { s with werr := true, inputs := rest, bus := .written }

/-- R59: an accepted reserved CMD completes in CHECK with BAD_CMD and changes nothing else; where a host operation still
waits, one of its waits is used up (the queue and its waits are the model's choice, assumption log 3). -/
def Obligations.ReservedCommandIsBadCmd : Prop :=
  ∀ s : State, s.phase = .check → (s.ctrl.cmd = 0 ∨ 6 ≤ s.ctrl.cmd.toNat) →
    (s.inputs = [] →
      step s = .next { s with err := .badCmd, valid := false, w := Working.zero, phase := .idle, done := true }) ∧
    ∀ (wait : Nat) (op : HostOp) (rest : List HostEvent), s.inputs = { wait := wait + 1, op := op } :: rest →
      step s = .next { s with
        err := .badCmd, valid := false, w := Working.zero, phase := .idle, done := true,
        inputs := { wait := wait, op := op } :: rest }

/-! ### Host accesses -/

/-- R41, R111: an access that is not an aligned word gets a bus error and changes nothing; an aligned one gets none. -/
def Obligations.IllegalAccessIsBusError : Prop :=
  ∀ (s : State) (off size : Nat) (op : HostOp) (rest : List HostEvent),
    off < 0x4000 →
    (op = .read (s.cfg.base + off) size ∨ ∃ v, op = .write (s.cfg.base + off) size v) →
    HostNext op rest s →
    (¬ (size = 4 ∧ off % 4 = 0) → step s = .next { s with inputs := rest, bus := .busError }) ∧
    (size = 4 ∧ off % 4 = 0 → ∃ t, step s = .next t ∧ t.bus ≠ .busError)

/-- R14 to R25, R45, R48, R109: the word every register of the map reads as; the read changes nothing. -/
def Obligations.RegistersReadAsTheirFields : Prop :=
  (∀ (s : State) (off value : Nat) (rest : List HostEvent),
      s.cfg.WellFormed →
      (off, value) ∈
        [(0x000, 0x534D0001), (0x004, s.cfg.bmax + 2 ^ 16 * s.cfg.lmax),
          (0x008, s.cfg.sb + 2 ^ 8 * s.cfg.emax + 2 ^ 16 * s.cfg.hmax),
          (0x010, 2 ^ 4 * s.ctrl.cmd.toNat + 2 ^ 8 * s.ctrl.hsel.toNat + 2 ^ 12 * s.ctrl.msel.toNat),
          (0x014, (if s.phase = .idle then 0 else 1) + 2 * s.done.toNat + 4 * s.valid.toNat + 8 * s.werr.toNat +
            16 * s.err.code.toNat),
          (0x018, s.irqEn.toNat), (0x020, s.inLen.toNat), (0x024, s.tlen.toNat), (0x028, s.labelLen.toNat),
          (0x02C, s.eLen.toNat), (0x030, if s.phase = .idle then s.outLen.toNat else 0),
          (0x034, s.signIter.toNat)] →
      HostNext (.read (s.cfg.base + off) 4) rest s →
      value < 2 ^ 32 ∧ step s = .next { s with inputs := rest, bus := .data (BitVec.ofNat 32 value) }) ∧
    [ErrCode.ok, .alloc, .arith, .rng, .digest, .invalidSig, .oaepDecode, .dataTooLarge, .keyTooSmall, .badCmd].map
        (fun c => c.code.toNat) = [0, 1, 2, 3, 4, 5, 6, 7, 8, 9]

/-- R27, R42, R45, R48: the word a window reads as, byte lane by byte lane; the read changes nothing. -/
def Obligations.WindowsReadTheirBytes : Prop :=
  ∀ (s : State) (win : Win) (off : Nat) (rest : List HostEvent),
    win.base ≤ off → off < win.base + win.span → off % 4 = 0 →
    HostNext (.read (s.cfg.base + off) 4) rest s →
    ∃ v : Word, step s = .next { s with inputs := rest, bus := .data v } ∧
      ∀ j < 4, v.extractLsb' (8 * j) 8 =
        if win = .da ∨ (s.phase ≠ .idle ∧ (win = .r ∨ win = .s ∨ win = .outBuf)) then 0
        else if off + j < win.base + win.capacity s.cfg then readByte s.mem (off + j) else 0

/-- R40: a reserved offset reads 0 and ignores writes, whatever the phase. -/
def Obligations.ReservedOffsetsReadZero : Prop :=
  ∀ (s : State) (off : Nat) (rest : List HostEvent),
    off % 4 = 0 →
    (off = 0x00C ∨ off = 0x01C ∨ (0x038 ≤ off ∧ off < 0x100) ∨ (0x400 ≤ off ∧ off < 0x1000)) →
    (HostNext (.read (s.cfg.base + off) 4) rest s → step s = .next { s with inputs := rest, bus := .data 0 }) ∧
    ∀ v : Word, HostNext (.write (s.cfg.base + off) 4 v) rest s →
      step s = .next { s with inputs := rest, bus := .written }

/-- R42, R46: on a block that is not BUSY, a legal write to a writable window stores its lanes below the capacity, and
every other byte and register stays; a legal write to OUT_BUF or to a read-only register, ID, CAP0, CAP1, OUT_LEN or
SIGN_ITER, is ignored. -/
def Obligations.WindowWriteStoresItsLanes : Prop :=
  ∀ (s : State) (off : Nat) (v : Word) (rest : List HostEvent),
    s.Consistent → off % 4 = 0 → s.phase = .idle → HostNext (.write (s.cfg.base + off) 4 v) rest s →
    (∀ win : Win, win ≠ .outBuf → win.base ≤ off → off < win.base + win.span →
      ∃ m, step s = .next { s with mem := m, inputs := rest, bus := .written } ∧
        ∀ a, readByte m a =
          if off ≤ a ∧ a < off + 4 ∧ a < win.base + win.capacity s.cfg then v.extractLsb' (8 * (a - off)) 8
          else readByte s.mem a) ∧
    (off ∈ [0x000, 0x004, 0x008, 0x030, 0x034] ∨ (0x2000 ≤ off ∧ off < 0x3000) →
      step s = .next { s with inputs := rest, bus := .written })

/-- R47, R40, R46: while BUSY, a legal write to CTRL, a length register or a stored byte of a writable window is ignored
and sets WERR; STATUS and IRQ_EN writes take effect; read-only registers, OUT_BUF and reserved offsets ignore the write
and leave WERR. That a word wholly beyond its window's capacity counts as reserved is the model's reading (assumption
log 11). -/
def Obligations.BusyLockKeepsOperands : Prop :=
  ∀ (s : State) (off : Nat) (v : Word) (rest : List HostEvent),
    s.phase ≠ .idle → off % 4 = 0 → HostNext (.write (s.cfg.base + off) 4 v) rest s →
    (off ∈ [0x010, 0x020, 0x024, 0x028, 0x02C] →
      step s = .next { s with werr := true, inputs := rest, bus := .written }) ∧
    (∀ win : Win, win ≠ .outBuf → win.base ≤ off → off < win.base + win.span → off < win.base + win.capacity s.cfg →
      step s = .next { s with werr := true, inputs := rest, bus := .written }) ∧
    (off = 0x014 →
      step s = .next { s with
        done := s.done && !v.getLsbD 1, werr := s.werr && !v.getLsbD 3, inputs := rest, bus := .written }) ∧
    (off = 0x018 → step s = .next { s with irqEn := v.getLsbD 0, inputs := rest, bus := .written }) ∧
    (off ∈ [0x000, 0x004, 0x008, 0x030, 0x034] ∨ (0x2000 ≤ off ∧ off < 0x3000) ∨ off = 0x00C ∨ off = 0x01C ∨
        (0x038 ≤ off ∧ off < 0x100) ∨ (0x400 ≤ off ∧ off < 0x1000) →
      step s = .next { s with inputs := rest, bus := .written }) ∧
    (∀ win : Win, win.base ≤ off → off < win.base + win.span → win.base + win.capacity s.cfg ≤ off →
      step s = .next { s with inputs := rest, bus := .written })

/-- R18, R38, R46, R118: the acknowledge clears DONE with bit 1 and WERR with bit 3, at any time, and restores nothing
else; a cleared DONE deasserts IRQ. -/
def Obligations.StatusWriteAcknowledges : Prop :=
  ∀ (s : State) (v : Word) (rest : List HostEvent),
    HostNext (.write (s.cfg.base + 0x014) 4 v) rest s →
    ∃ t, step s = .next t ∧
      t = { s with
        done := s.done && !v.getLsbD 1, werr := s.werr && !v.getLsbD 3, inputs := rest, bus := .written } ∧
      (v.getLsbD 1 = true → t.irq = false)

/-- R19: IRQ_EN stores bit 0 of every write, also while BUSY; its other bits read 0; it resets to 0. -/
def Obligations.IrqEnableHoldsItsBit : Prop :=
  (∀ (s : State) (v : Word) (rest : List HostEvent), HostNext (.write (s.cfg.base + 0x018) 4 v) rest s →
      step s = .next { s with irqEn := v.getLsbD 0, inputs := rest, bus := .written }) ∧
    (∀ (s : State) (rest : List HostEvent), HostNext (.read (s.cfg.base + 0x018) 4) rest s →
      step s = .next { s with inputs := rest, bus := .data (if s.irqEn then 1 else 0) }) ∧
    (∀ s : State, s.irq = true ↔ s.done = true ∧ s.irqEn = true) ∧
    (∀ (s : State) (rest : List HostEvent), HostNext .reset rest s → ∃ t, step s = .next t ∧ t.irqEn = false)

/-- R20 to R23, R141: a length register of a block that is not BUSY stores the low bits written, whatever their value. -/
def Obligations.LengthRegistersStoreAsWritten : Prop :=
  ∀ (s : State) (v : Word) (rest : List HostEvent), s.phase = .idle →
    (HostNext (.write (s.cfg.base + 0x020) 4 v) rest s →
      step s = .next { s with inLen := BitVec.ofNat 16 v.toNat, inputs := rest, bus := .written }) ∧
    (HostNext (.write (s.cfg.base + 0x024) 4 v) rest s →
      step s = .next { s with tlen := BitVec.ofNat 16 v.toNat, inputs := rest, bus := .written }) ∧
    (HostNext (.write (s.cfg.base + 0x028) 4 v) rest s →
      step s = .next { s with labelLen := BitVec.ofNat 16 v.toNat, inputs := rest, bus := .written }) ∧
    (HostNext (.write (s.cfg.base + 0x02C) 4 v) rest s →
      step s = .next { s with eLen := BitVec.ofNat 8 v.toNat, inputs := rest, bus := .written })

/-- R132, R133: reset sets every piece of state to its value, whatever the phase; the instance stays, and so do ID, CAP0
and CAP1, which are functions of it. -/
def Obligations.ResetSetsEveryState : Prop :=
  ∀ (s : State) (rest : List HostEvent), HostNext .reset rest s →
    ∃ t, step s = .next t ∧ t.cfg = s.cfg ∧ ctrlWord t = 0 ∧ statusWord t = 0 ∧ irqEnWord t = 0 ∧ t.inLen = 0 ∧
      t.tlen = 0 ∧ t.labelLen = 0 ∧ t.eLen = 0 ∧ t.outLen = 0 ∧ t.signIter = 0 ∧ (∀ a, readByte t.mem a = 0) ∧
      t.phase = .idle ∧ t.w = Working.zero ∧ t.irq = false ∧ idWord = 0x534D0001 ∧
      cap0Word t.cfg = cap0Word s.cfg ∧ cap1Word t.cfg = cap1Word s.cfg

/-- R43, R66, R67: the script of WSCALAR stores the integer in its scalar window, word by word, and nothing else. -/
def Obligations.ScalarScriptStoresItsValue : Prop :=
  ∀ (s : State) (win : Win) (v : Nat) (rest : List HostEvent),
    s.Consistent → s.phase = .idle → win ∈ [Win.da, .r, .s, .paX, .paY] → v < 256 ^ s.cfg.sb →
    s.inputs = scriptEvents s.cfg (((Pseudo.wscalar win v).expand s.cfg).map fun line => (0, line)) ++ rest →
    ∃ m, steps (wordCount s.cfg.sb) s = .next { s with mem := m, inputs := rest, bus := .written } ∧
      scalar { s with mem := m } win = v ∧ SameBytesOutside [win] s { s with mem := m }

/-! ### SM2_SIGN -/

/-- R68, R72, R113: the CHECK of SM2_SIGN. -/
def Obligations.SignCheckOutcome : Prop :=
  ∀ (h m : Sel) (s : State), Running (.sm2Sign h m) .check s →
    (s.cfg.emax < s.eLen.toNat →
      ∃ t, exec (.sm2Sign h m) s = .next t ∧ Completes s t .alloc ∧ WritesSignature s t 0 0 ∧
        t.signIter = s.signIter ∧ t.draws = s.draws) ∧
    (s.eLen.toNat ≤ s.cfg.emax →
      (s.callFails = true ∨ scalar s .da = 0 ∨ s.cfg.curve.order ≤ scalar s .da + 1 →
        ∃ t, exec (.sm2Sign h m) s = .next t ∧ Completes s t .arith ∧ WritesSignature s t 0 0 ∧
          t.signIter = s.signIter ∧ t.draws = s.drawn.draws) ∧
      (s.callFails = false → 1 ≤ scalar s .da → scalar s .da + 2 ≤ s.cfg.curve.order →
        exec (.sm2Sign h m) s = .next { s with
          w := { s.w with n := s.cfg.curve.order, e := scalarE s }, phase := .sDraw, draws := s.drawn.draws }))

/-- R69: the draw is counted before the call; a failure or a draw ≥ n ends the command with RNG; a draw of 0 is made
again; any other draw is the nonce. The draw is free: the next of the scripted ones, or any integer. -/
def Obligations.SignDrawOutcome : Prop :=
  ∀ (h m : Sel) (s : State), Running (.sm2Sign h m) .sDraw s →
    (s.callFails = true →
      ∃ t, exec (.sm2Sign h m) s = .next t ∧ Completes s t .rng ∧ WritesSignature s t 0 0 ∧
        t.signIter = s.signIter + 1 ∧ t.draws = s.drawn.draws) ∧
    (s.callFails = false →
      ∃ k d, (∀ k' ks, s.draws.ranges = k' :: ks → k = k' ∧ d = { s.drawn.draws with ranges := ks }) ∧
        (s.w.n ≤ k →
          ∃ t, exec (.sm2Sign h m) s = .next t ∧ Completes s t .rng ∧ WritesSignature s t 0 0 ∧
            t.signIter = s.signIter + 1 ∧ t.draws = d) ∧
        (k = 0 → exec (.sm2Sign h m) s = .next { s with signIter := s.signIter + 1, draws := d }) ∧
        (1 ≤ k → k < s.w.n →
          exec (.sm2Sign h m) s = .next { s with
            signIter := s.signIter + 1, w := { s.w with k := k }, phase := .sMulg, draws := d }))

/-- R68, R122: S_MULG takes the affine x-coordinate of k·G, or ends with ARITH on a provider fault. -/
def Obligations.SignMulgOutcome : Prop :=
  ∀ (h m : Sel) (s : State), Running (.sm2Sign h m) .sMulg s →
    (s.callFails = true →
      ∃ t, exec (.sm2Sign h m) s = .next t ∧ Completes s t .arith ∧ WritesSignature s t 0 0 ∧
        t.signIter = s.signIter ∧ t.draws = s.drawn.draws) ∧
    (s.callFails = false →
      ∃ q, multipleOfG s.cfg.curve s.w.k = some q ∧
        exec (.sm2Sign h m) s = .next { s with w := { s.w with x1 := q.1 }, phase := .sRs, draws := s.drawn.draws })

/-- R70, R71, R72: S_RS rejects r = 0, then r + k = n on the unreduced sum, then s = 0, each with a fresh draw and no
other effect; otherwise it completes with OK and the signature (r, s), and DA cleared. That one failure is drawn for all
the ModOps of a line is the model's choice (assumption log 7). -/
def Obligations.SignRsOutcome : Prop :=
  ∀ (h m : Sel) (s : State), Running (.sm2Sign h m) .sRs s →
    ∀ r, r = (s.w.e + s.w.x1) % s.w.n →
    (s.callFails = true →
      ∃ t, exec (.sm2Sign h m) s = .next t ∧ Completes s t .arith ∧ WritesSignature s t 0 0 ∧
        t.signIter = s.signIter ∧ t.draws = s.drawn.draws) ∧
    (s.callFails = false →
      (r = 0 ∨ r + s.w.k = s.w.n →
        exec (.sm2Sign h m) s = .next { s with w := { s.w with r := r }, phase := .sDraw, draws := s.drawn.draws }) ∧
      (r ≠ 0 → r + s.w.k ≠ s.w.n →
        (s.drawn.callFails = true →
          ∃ t, exec (.sm2Sign h m) s = .next t ∧ Completes s t .arith ∧ WritesSignature s t 0 0 ∧
            t.signIter = s.signIter ∧ t.draws = s.drawn.drawn.draws) ∧
        (s.drawn.callFails = false →
          ∃ sv, IsSigS s.w.n (scalar s .da) s.w.k r sv ∧
            (sv = 0 →
              exec (.sm2Sign h m) s = .next { s with
                w := { s.w with r := r, s := sv }, phase := .sDraw, draws := s.drawn.drawn.draws }) ∧
            (sv ≠ 0 →
              ∃ t, exec (.sm2Sign h m) s = .next t ∧ Completes s t .ok ∧ WritesSignature s t r sv ∧
                t.signIter = s.signIter ∧ t.draws = s.drawn.drawn.draws))))

/-- R73: after a completion with OK, R and S lie in [1, n − 1], and R plus the nonce is not n. -/
def Obligations.SignatureIsInRange : Prop :=
  ∀ (h m : Sel) (p : Phase) (s t : State), Running (.sm2Sign h m) p s → p ≠ .idle →
    exec (.sm2Sign h m) s = .next t → t.phase = .idle → t.err = .ok →
    1 ≤ scalar t .r ∧ scalar t .r ≤ s.cfg.curve.order - 1 ∧ 1 ≤ scalar t .s ∧
      scalar t .s ≤ s.cfg.curve.order - 1 ∧ scalar t .r + s.w.k ≠ s.cfg.curve.order

/-- R74: no number of rejected draws ends the loop: after any of them the block stands in S_DRAW, BUSY, with its operands
as they were. How many failures a draw consumes, at most 4, rests on one failure for each line of ModOps, the model's
choice (assumption log 7). -/
def Obligations.RejectedDrawsKeepSigning : Prop :=
  ∀ (h m : Sel) (s : State) (ks more : List Nat) (rest : List Bool),
    Running (.sm2Sign h m) .sDraw s → s.inputs = [] → (∀ k ∈ ks, Rejected s k) → s.draws.ranges = ks ++ more →
    NoFail (4 * ks.length) rest s →
    BusyThrough ((ks.map drawSteps).sum + 1) s ∧
      ∃ t used, steps (ks.map drawSteps).sum s = .next t ∧ Running (.sm2Sign h m) .sDraw t ∧
        SameControl s t ∧ t.mem = s.mem ∧ t.done = s.done ∧ t.err = s.err ∧ t.valid = s.valid ∧
        t.outLen = s.outLen ∧ t.signIter = s.signIter + BitVec.ofNat 32 ks.length ∧
        used ≤ 4 * ks.length ∧ t.draws = { s.draws with
          ranges := more, fails := List.replicate (4 * ks.length - used) false ++ rest }

/-- R68, R75: a whole SM2_SIGN from CHECK, with any rejected draws before the accepted nonce and no host operation in
between: its step count, its signature, and its count of draws. The number of calls that are scripted not to fail counts
one failure for each line of ModOps, the model's choice (assumption log 7). -/
def Obligations.SignRunsToItsSignature : Prop :=
  ∀ (h m : Sel) (s : State) (ks more : List Nat) (k r sv : Nat) (rest : List Bool),
    Running (.sm2Sign h m) .check s → s.inputs = [] → s.eLen.toNat ≤ s.cfg.emax →
    1 ≤ scalar s .da → scalar s .da + 2 ≤ s.cfg.curve.order →
    (∀ k' ∈ ks, Rejected s k') → 1 ≤ k → k < s.cfg.curve.order → IsSigR s k r →
    IsSigS s.cfg.curve.order (scalar s .da) k r sv → r ≠ 0 → r + k ≠ s.cfg.curve.order → sv ≠ 0 →
    s.draws.ranges = ks ++ k :: more → NoFail (4 * ks.length + 5) rest s →
    BusyThrough (1 + (ks.map drawSteps).sum + 3) s ∧
      ∃ t, steps (1 + (ks.map drawSteps).sum + 3) s = .next t ∧ Completes s t .ok ∧ WritesSignature s t r sv ∧
        t.signIter = s.signIter + BitVec.ofNat 32 (ks.length + 1) ∧ t.draws.ranges = more

/-- R76: a signature that SM2_SIGN completes with is accepted by SM2_VERIFY for the same e and PA = dA·G, in four steps,
when no provider call fails. -/
def Obligations.SignThenVerifyAccepts : Prop :=
  ∀ (h m h' m' : Sel) (s t u : State) (rest : List Bool),
    Running (.sm2Sign h m) .sRs s → exec (.sm2Sign h m) s = .next t → t.phase = .idle → t.err = .ok →
    Running (.sm2Verify h' m') .check u → u.inputs = [] → u.cfg = s.cfg → u.eLen.toNat ≤ u.cfg.emax →
    scalarE u = scalarE s → scalar u .r = scalar t .r → scalar u .s = scalar t .s →
    multipleOfG s.cfg.curve (scalar s .da) = some (scalar u .paX, scalar u .paY) → NoFail 4 rest u →
    ∃ v, steps 4 u = .next v ∧ Completes u v .ok ∧ v.valid = true

/-! ### SM2_VERIFY -/

/-- R77, R81, R113: the CHECK of SM2_VERIFY reads its scalars as they stand. -/
def Obligations.VerifyCheckOutcome : Prop :=
  ∀ (h m : Sel) (s : State), Running (.sm2Verify h m) .check s →
    (s.cfg.emax < s.eLen.toNat →
      exec (.sm2Verify h m) s = .next { s with
        err := .alloc, valid := false, w := Working.zero, phase := .idle, done := true }) ∧
    (s.eLen.toNat ≤ s.cfg.emax →
      (s.callFails = true →
        exec (.sm2Verify h m) s = .next { s with
          err := .arith, valid := false, w := Working.zero, phase := .idle, done := true,
          draws := s.drawn.draws }) ∧
      (s.callFails = false →
        exec (.sm2Verify h m) s = .next { s with
          w := { s.w with n := s.cfg.curve.order, e := scalarE s, r := scalar s .r, s := scalar s .s }
          phase := .vRange, draws := s.drawn.draws }))

/-- R77, R78: the range checks reject both bounds of r and of s before any provider call, as a verification failure; then
t = 0 is rejected. -/
def Obligations.VerifyRangeOutcome : Prop :=
  ∀ (h m : Sel) (s : State), Running (.sm2Verify h m) .vRange s →
    (s.w.r = 0 ∨ s.w.n ≤ s.w.r ∨ s.w.s = 0 ∨ s.w.n ≤ s.w.s →
      exec (.sm2Verify h m) s = .next { s with
        err := .invalidSig, valid := false, w := Working.zero, phase := .idle, done := true }) ∧
    (1 ≤ s.w.r → s.w.r < s.w.n → 1 ≤ s.w.s → s.w.s < s.w.n →
      (s.callFails = true →
        exec (.sm2Verify h m) s = .next { s with
          err := .arith, valid := false, w := Working.zero, phase := .idle, done := true,
          draws := s.drawn.draws }) ∧
      (s.callFails = false → s.w.r + s.w.s = s.w.n →
        exec (.sm2Verify h m) s = .next { s with
          err := .invalidSig, valid := false, w := Working.zero, phase := .idle, done := true,
          draws := s.drawn.draws }) ∧
      (s.callFails = false → s.w.r + s.w.s ≠ s.w.n →
        exec (.sm2Verify h m) s = .next { s with
          w := { s.w with t := (s.w.r + s.w.s) % s.w.n }, phase := .vMul, draws := s.drawn.draws }))

/-- R79: with PA = d·G the sum is (s + t·d)·G: infinity is INVALID_SIG, an affine point gives its x-coordinate. A
provider fault, and a PA that is no point of CURVE, are ARITH. -/
def Obligations.VerifyMulOutcome : Prop :=
  ∀ (h m : Sel) (s : State), Running (.sm2Verify h m) .vMul s →
    (s.callFails = true ∨ (scalar s .paX, scalar s .paY) ∉ s.cfg.curve.points →
      exec (.sm2Verify h m) s = .next { s with
        err := .arith, valid := false, w := Working.zero, phase := .idle, done := true, draws := s.drawn.draws }) ∧
    ∀ d, s.callFails = false → multipleOfG s.cfg.curve d = some (scalar s .paX, scalar s .paY) →
      ((s.w.s + s.w.t * d) % s.w.n = 0 →
        exec (.sm2Verify h m) s = .next { s with
          err := .invalidSig, valid := false, w := Working.zero, phase := .idle, done := true,
          draws := s.drawn.draws }) ∧
      ((s.w.s + s.w.t * d) % s.w.n ≠ 0 →
        ∃ q, multipleOfG s.cfg.curve ((s.w.s + s.w.t * d) % s.w.n) = some q ∧
          exec (.sm2Verify h m) s = .next { s with
            w := { s.w with x1 := q.1 }, phase := .vCmp, draws := s.drawn.draws })

/-- R77, R81: V_CMP accepts exactly when (e + x1) mod n = r, and the command writes nothing but STATUS. -/
def Obligations.VerifyCmpOutcome : Prop :=
  ∀ (h m : Sel) (s : State), Running (.sm2Verify h m) .vCmp s →
    (s.callFails = true →
      exec (.sm2Verify h m) s = .next { s with
        err := .arith, valid := false, w := Working.zero, phase := .idle, done := true, draws := s.drawn.draws }) ∧
    (s.callFails = false → (s.w.e + s.w.x1) % s.w.n = s.w.r →
      exec (.sm2Verify h m) s = .next { s with
        err := .ok, valid := true, w := Working.zero, phase := .idle, done := true, draws := s.drawn.draws }) ∧
    (s.callFails = false → (s.w.e + s.w.x1) % s.w.n ≠ s.w.r →
      exec (.sm2Verify h m) s = .next { s with
        err := .invalidSig, valid := false, w := Working.zero, phase := .idle, done := true,
        draws := s.drawn.draws })

/-- R77, R81, R83: a whole SM2_VERIFY with scalars in range, r + s ≠ n, PA = d·G and a finite sum: it takes four steps,
accepts exactly when (e + x1) mod n = r for the x-coordinate x1 of s·G + t·PA, and changes nothing but STATUS. -/
def Obligations.VerifyDecidesTheEquation : Prop :=
  ∀ (h m : Sel) (s : State) (d t : Nat) (q : Nat × Nat) (rest : List Bool),
    Running (.sm2Verify h m) .check s → s.inputs = [] → s.eLen.toNat ≤ s.cfg.emax →
    1 ≤ scalar s .r → scalar s .r < s.cfg.curve.order → 1 ≤ scalar s .s → scalar s .s < s.cfg.curve.order →
    t = (scalar s .r + scalar s .s) % s.cfg.curve.order → t ≠ 0 →
    multipleOfG s.cfg.curve d = some (scalar s .paX, scalar s .paY) →
    multipleOfG s.cfg.curve ((scalar s .s + t * d) % s.cfg.curve.order) = some q → NoFail 4 rest s →
    BusyThrough 4 s ∧
      ((scalarE s + q.1) % s.cfg.curve.order = scalar s .r →
        steps 4 s = .next { s with
          err := .ok, valid := true, w := Working.zero, phase := .idle, done := true,
          draws := { s.draws with fails := rest } }) ∧
      ((scalarE s + q.1) % s.cfg.curve.order ≠ scalar s .r →
        steps 4 s = .next { s with
          err := .invalidSig, valid := false, w := Working.zero, phase := .idle, done := true,
          draws := { s.draws with fails := rest } })

/-- R80: VALID = 1 implies ERR = OK, and only the accepting V_CMP of an SM2_VERIFY sets it. -/
def Obligations.ValidOnlyAfterAccepting : Prop :=
  ∀ s t : State, s.Consistent → step s = .next t → t.valid = true →
    t.err = .ok ∧ (s.valid = false → s.phase = .vCmp ∧ s.ctrl.cmd = 2 ∧ (s.w.e + s.w.x1) % s.w.n = s.w.r)

/-! ### MGF1 -/

/-- R85: byte j of the mask is byte j mod hm of the block with counter ⌊j / hm⌋, and the mask has exactly L bytes. -/
def Obligations.MaskBytesAreHashBytes : Prop :=
  ∀ (alg : HashAlg) (seed : List Byte) (L : Nat), 1 ≤ alg.len →
    (mgf1 alg seed L).length = L ∧
      ∀ j < L, (mgf1 alg seed L)[j]? =
        (digest alg (seed ++ be32 (BitVec.ofNat 32 (j / alg.len))))[j % alg.len]?

/-- R86: a shorter mask is the beginning of a longer one. -/
def Obligations.MaskPrefix : Prop :=
  ∀ (alg : HashAlg) (seed : List Byte) (L L' : Nat), 1 ≤ alg.len → L ≤ L' →
    mgf1 alg seed L = (mgf1 alg seed L').take L

/-- R89, R113: the CHECK of MGF1: a bad mask selector, then the capacities, then the empty mask. That w.h holds 0 for an
unassigned HSEL, which has no length, is the model's choice (assumption log 13). -/
def Obligations.Mgf1CheckOutcome : Prop :=
  ∀ (h m : Sel) (s : State), Running (.mgf1 h m) .check s →
    (hashEntry s.cfg (resolvedMs s) = none →
      ∃ t, exec (.mgf1 h m) s = .next t ∧ Completes s t .badCmd ∧ WritesOutput s t [] ∧ t.draws = s.draws) ∧
    (∀ ma, hashEntry s.cfg (resolvedMs s) = some ma →
      (s.cfg.bmax < s.inLen.toNat ∨ s.cfg.bmax < s.tlen.toNat →
        ∃ t, exec (.mgf1 h m) s = .next t ∧ Completes s t .alloc ∧ WritesOutput s t [] ∧ t.draws = s.draws) ∧
      (s.inLen.toNat ≤ s.cfg.bmax → s.tlen.toNat ≤ s.cfg.bmax →
        (s.tlen = 0 →
          ∃ t, exec (.mgf1 h m) s = .next t ∧ Completes s t .ok ∧ WritesOutput s t [] ∧ t.draws = s.draws) ∧
        (s.tlen ≠ 0 →
          exec (.mgf1 h m) s = .next { s with
            w := { s.w with
              hs := resolvedHs s, ms := resolvedMs s, h := hlen s.cfg (resolvedHs s), hm := ma.len, out := [], i := 0 }
            phase := .mBlock })))

/-- R88, R89, R92, R99, R123: one MGF1 block step. In M_BLOCK it appends one hash block; when TLEN bytes are there it
completes with the first TLEN of them. In E_DBMASK, E_SEEDMASK, D_SEEDMASK and D_DBMASK it appends one block over the
string that makes the mask; when as many bytes are there as the other string has, that string is masked and the next
phase begins. In each of them a hash fault ends the command with ARITH and zeroed output. -/
def Obligations.Mgf1BlockOutcome : Prop :=
  (∀ (h m : Sel) (s : State), Running (.mgf1 h m) .mBlock s →
      (s.callFails = true →
        ∃ t, exec (.mgf1 h m) s = .next t ∧ Completes s t .arith ∧ WritesOutput s t [] ∧ t.draws = s.drawn.draws) ∧
      (s.callFails = false →
        ∃ ma, hashEntry s.cfg (resolvedMs s) = some ma ∧
          ∀ out, out = s.w.out ++ digest ma (inputBytes s ++ be32 s.w.i) →
            (s.tlen.toNat ≤ out.length →
              ∃ t, exec (.mgf1 h m) s = .next t ∧ Completes s t .ok ∧ WritesOutput s t (out.take s.tlen.toNat) ∧
                t.draws = s.drawn.draws) ∧
            (out.length < s.tlen.toNat →
              exec (.mgf1 h m) s = .next { s with
                w := { s.w with out := out, i := s.w.i + 1 }, draws := s.drawn.draws }))) ∧
    ∀ (i : Instr) (p next : Phase) (onSeed : Bool) (s : State),
      (i.cmd, p, next, onSeed) ∈
        [(4, Phase.eDbmask, Phase.eSeedmask, false), (4, .eSeedmask, .eOut, true), (5, .dSeedmask, .dDbmask, true),
          (5, .dDbmask, .dLhash, false)] →
      Running i p s →
      (s.callFails = true →
        ∃ t, exec i s = .next t ∧ Completes s t .arith ∧ WritesOutput s t [] ∧ t.draws = s.drawn.draws) ∧
      (s.callFails = false →
        ∃ ha ma, hashEntry s.cfg (resolvedHs s) = some ha ∧ hashEntry s.cfg (resolvedMs s) = some ma ∧
          ∀ out L, out = s.w.out ++ digest ma ((if onSeed then s.w.db else s.w.seed) ++ be32 s.w.i) →
            L = (if onSeed then ha.len else s.tlen.toNat - 1 - ha.len) →
            (L ≤ out.length →
              exec i s = .next { s with
                w := { s.w with
                  out := [], i := 0
                  seed := if onSeed then xorBytes s.w.seed (out.take L) else s.w.seed
                  db := if onSeed then s.w.db else xorBytes s.w.db (out.take L) }
                phase := next, draws := s.drawn.draws }) ∧
            (out.length < L →
              exec i s = .next { s with w := { s.w with out := out, i := s.w.i + 1 }, draws := s.drawn.draws }))

/-- R89, R90, R91: a whole MGF1 from CHECK: 1 + ⌈TLEN / hm⌉ steps, and OUT_BUF holds exactly the TLEN bytes of the mask,
then zeros. -/
def Obligations.Mgf1RunsToItsMask : Prop :=
  ∀ (h m : Sel) (s : State) (ma : HashAlg) (rest : List Bool),
    Running (.mgf1 h m) .check s → s.inputs = [] → hashEntry s.cfg (resolvedMs s) = some ma →
    s.inLen.toNat ≤ s.cfg.bmax → s.tlen.toNat ≤ s.cfg.bmax → NoFail (ceilDiv s.tlen.toNat ma.len) rest s →
    BusyThrough (1 + ceilDiv s.tlen.toNat ma.len) s ∧
      ∃ t, steps (1 + ceilDiv s.tlen.toNat ma.len) s = .next t ∧ Completes s t .ok ∧
        WritesOutput s t (mgf1 ma (inputBytes s) s.tlen.toNat) ∧ t.draws = { s.draws with fails := rest }

/-! ### OAEP_ENC -/

/-- R92, R93, R113: the CHECK of OAEP_ENC: selectors, capacities, key size, then message size. -/
def Obligations.EncCheckOutcome : Prop :=
  ∀ (h m : Sel) (s : State), Running (.oaepEnc h m) .check s →
    (hashEntry s.cfg (resolvedHs s) = none ∨ hashEntry s.cfg (resolvedMs s) = none →
      ∃ t, exec (.oaepEnc h m) s = .next t ∧ Completes s t .badCmd ∧ WritesOutput s t [] ∧ t.draws = s.draws) ∧
    (∀ ha ma, hashEntry s.cfg (resolvedHs s) = some ha → hashEntry s.cfg (resolvedMs s) = some ma →
      (s.cfg.bmax < s.inLen.toNat ∨ s.cfg.bmax < s.tlen.toNat ∨ s.cfg.lmax < s.labelLen.toNat →
        ∃ t, exec (.oaepEnc h m) s = .next t ∧ Completes s t .alloc ∧ WritesOutput s t [] ∧ t.draws = s.draws) ∧
      (s.inLen.toNat ≤ s.cfg.bmax → s.tlen.toNat ≤ s.cfg.bmax → s.labelLen.toNat ≤ s.cfg.lmax →
        (s.tlen.toNat < 2 * ha.len + 2 →
          ∃ t, exec (.oaepEnc h m) s = .next t ∧ Completes s t .keyTooSmall ∧ WritesOutput s t [] ∧
            t.draws = s.draws) ∧
        (2 * ha.len + 2 ≤ s.tlen.toNat → s.tlen.toNat < s.inLen.toNat + 2 * ha.len + 2 →
          ∃ t, exec (.oaepEnc h m) s = .next t ∧ Completes s t .dataTooLarge ∧ WritesOutput s t [] ∧
            t.draws = s.draws) ∧
        (s.inLen.toNat + 2 * ha.len + 2 ≤ s.tlen.toNat →
          exec (.oaepEnc h m) s = .next { s with
            w := { s.w with hs := resolvedHs s, ms := resolvedMs s, h := ha.len, hm := ma.len }
            phase := .eLhash })))

/-- R92: E_LHASH hashes the label and lays DB out. -/
def Obligations.EncLhashOutcome : Prop :=
  ∀ (h m : Sel) (s : State), Running (.oaepEnc h m) .eLhash s →
    (s.callFails = true →
      ∃ t, exec (.oaepEnc h m) s = .next t ∧ Completes s t .arith ∧ WritesOutput s t [] ∧ t.draws = s.drawn.draws) ∧
    (s.callFails = false →
      ∃ ha, hashEntry s.cfg (resolvedHs s) = some ha ∧
        ∀ lhash, lhash = digest ha (labelBytes s) →
          exec (.oaepEnc h m) s = .next { s with
            w := { s.w with lhash := lhash, db := encodedDB lhash (inputBytes s) (s.tlen.toNat - 1 - ha.len) }
            phase := .eSeed, draws := s.drawn.draws })

/-- R95: E_SEED makes one draw of h bytes, any of which is legal: the next of the scripted ones, or any. A failure ends
the command with RNG. -/
def Obligations.EncSeedOutcome : Prop :=
  ∀ (h m : Sel) (s : State), Running (.oaepEnc h m) .eSeed s →
    (s.callFails = true →
      ∃ t, exec (.oaepEnc h m) s = .next t ∧ Completes s t .rng ∧ WritesOutput s t [] ∧ t.draws = s.drawn.draws) ∧
    (s.callFails = false →
      ∃ seed d, seed.length = s.w.h ∧
        (∀ b more, s.draws.bytes = b ++ more → b.length = s.w.h →
          seed = b ∧ d = { s.drawn.draws with bytes := more }) ∧
        exec (.oaepEnc h m) s = .next { s with
          w := { s.w with seed := seed, out := [], i := 0 }, phase := .eDbmask, draws := d })

/-- R92, R96: E_OUT completes with OK and the block 0x00, masked seed, masked DB, exactly TLEN bytes. -/
def Obligations.EncOutCompletes : Prop :=
  ∀ (h m : Sel) (s : State), Running (.oaepEnc h m) .eOut s →
    ∃ t, exec (.oaepEnc h m) s = .next t ∧ Completes s t .ok ∧ WritesOutput s t (0x00 :: (s.w.seed ++ s.w.db)) ∧
      t.outLen = s.tlen ∧ t.draws = s.draws

/-- R94, R98: a whole OAEP_ENC from CHECK: 4 + ⌈dblen / hm⌉ + ⌈h / hm⌉ steps, and OUT_BUF holds the block of R94. -/
def Obligations.EncRunsToItsBlock : Prop :=
  ∀ (h m : Sel) (s : State) (ha ma : HashAlg) (seed more : List Byte) (dblen n : Nat) (rest : List Bool),
    Running (.oaepEnc h m) .check s → s.inputs = [] →
    hashEntry s.cfg (resolvedHs s) = some ha → hashEntry s.cfg (resolvedMs s) = some ma →
    s.tlen.toNat ≤ s.cfg.bmax → s.labelLen.toNat ≤ s.cfg.lmax → s.inLen.toNat + 2 * ha.len + 2 ≤ s.tlen.toNat →
    dblen = s.tlen.toNat - 1 - ha.len → n = ceilDiv dblen ma.len + ceilDiv ha.len ma.len →
    s.draws.bytes = seed ++ more → seed.length = ha.len → NoFail (2 + n) rest s →
    BusyThrough (4 + n) s ∧
      ∃ t, steps (4 + n) s = .next t ∧ Completes s t .ok ∧
        WritesOutput s t
          (encodedBlock ma seed (encodedDB (digest ha (labelBytes s)) (inputBytes s) dblen)) ∧
        t.outLen = s.tlen ∧ t.draws = { s.draws with fails := rest, bytes := more }

/-! ### OAEP_DEC -/

/-- R99, R100, R113: the CHECK of OAEP_DEC: selectors, capacities, then num ≥ 2h + 2. -/
def Obligations.DecCheckOutcome : Prop :=
  ∀ (h m : Sel) (s : State), Running (.oaepDec h m) .check s →
    (hashEntry s.cfg (resolvedHs s) = none ∨ hashEntry s.cfg (resolvedMs s) = none →
      ∃ t, exec (.oaepDec h m) s = .next t ∧ Completes s t .badCmd ∧ WritesOutput s t [] ∧ t.draws = s.draws) ∧
    (∀ ha ma, hashEntry s.cfg (resolvedHs s) = some ha → hashEntry s.cfg (resolvedMs s) = some ma →
      (s.cfg.bmax < s.inLen.toNat ∨ s.cfg.bmax < s.tlen.toNat ∨ s.cfg.lmax < s.labelLen.toNat →
        ∃ t, exec (.oaepDec h m) s = .next t ∧ Completes s t .alloc ∧ WritesOutput s t [] ∧ t.draws = s.draws) ∧
      (s.inLen.toNat ≤ s.cfg.bmax → s.tlen.toNat ≤ s.cfg.bmax → s.labelLen.toNat ≤ s.cfg.lmax →
        (s.tlen.toNat < 2 * ha.len + 2 →
          ∃ t, exec (.oaepDec h m) s = .next t ∧ Completes s t .keyTooSmall ∧ WritesOutput s t [] ∧
            t.draws = s.draws) ∧
        (2 * ha.len + 2 ≤ s.tlen.toNat →
          exec (.oaepDec h m) s = .next { s with
            w := { s.w with hs := resolvedHs s, ms := resolvedMs s, h := ha.len, hm := ma.len }
            phase := .dPad })))

/-- R99, R101, R102: D_PAD always builds num bytes and goes on: left-padded with zeros, or the first num bytes of a longer
input; the flags record a longer input and a nonzero leading byte. -/
def Obligations.DecPadOutcome : Prop :=
  ∀ (h m : Sel) (s : State), Running (.oaepDec h m) .dPad s →
    ∃ em : List Byte, em.length = s.tlen.toNat ∧
      (s.inLen.toNat ≤ s.tlen.toNat → em = zeros (s.tlen.toNat - s.inLen.toNat) ++ inputBytes s) ∧
      (s.tlen.toNat < s.inLen.toNat → em = (inputBytes s).take s.tlen.toNat) ∧
      exec (.oaepDec h m) s = .next { s with
        w := { s.w with
          em := em, bad := decide (s.tlen.toNat < s.inLen.toNat)
          good := decide (s.inLen.toNat ≤ s.tlen.toNat ∧ em[0]? = some 0x00)
          seed := (em.drop 1).take s.w.h, db := em.drop (1 + s.w.h), out := [], i := 0 }
        phase := .dSeedmask }

/-- R99, R103: D_LHASH compares the label hash with the first h bytes of DB, byte by byte, and goes on whatever it
finds. -/
def Obligations.DecLhashOutcome : Prop :=
  ∀ (h m : Sel) (s : State), Running (.oaepDec h m) .dLhash s →
    (s.callFails = true →
      ∃ t, exec (.oaepDec h m) s = .next t ∧ Completes s t .arith ∧ WritesOutput s t [] ∧ t.draws = s.drawn.draws) ∧
    (s.callFails = false →
      ∃ ha, hashEntry s.cfg (resolvedHs s) = some ha ∧
        ∀ lhash, lhash = digest ha (labelBytes s) →
          exec (.oaepDec h m) s = .next { s with
            w := { s.w with lhash := lhash, good := s.w.good && decide (s.w.db.take ha.len = lhash) }
            phase := .dScan, draws := s.drawn.draws })

/-- R99, R104, R105: D_SCAN completes with the message after the separator, or with OAEP_DECODE, all zeros and length 0,
for every failure alike. -/
def Obligations.DecScanOutcome : Prop :=
  ∀ (h m : Sel) (s : State), Running (.oaepDec h m) .dScan s →
    (∀ idx, s.w.good = true → SeparatorAt s.w.db s.w.h idx →
      ∃ t, exec (.oaepDec h m) s = .next t ∧ Completes s t .ok ∧ WritesOutput s t (s.w.db.drop (idx + 1)) ∧
        t.draws = s.draws) ∧
    (s.w.good = false ∨ (∀ idx, ¬ SeparatorAt s.w.db s.w.h idx) →
      ∃ t, exec (.oaepDec h m) s = .next t ∧ Completes s t .oaepDecode ∧ WritesOutput s t [] ∧ t.draws = s.draws)

/-- R99, R104, R106: a whole OAEP_DEC that passes CHECK, without faults: 4 + ⌈h / hm⌉ + ⌈dblen / hm⌉ steps, the same for
OK and OAEP_DECODE; OK exactly when no content failure of R104 is there, with the message after the separator. -/
def Obligations.DecRunsToItsOutcome : Prop :=
  ∀ (h m : Sel) (s : State) (ha ma : HashAlg) (em db : List Byte) (n : Nat) (rest : List Bool),
    Running (.oaepDec h m) .check s → s.inputs = [] →
    hashEntry s.cfg (resolvedHs s) = some ha → hashEntry s.cfg (resolvedMs s) = some ma →
    s.inLen.toNat ≤ s.cfg.bmax → s.tlen.toNat ≤ s.cfg.bmax → s.labelLen.toNat ≤ s.cfg.lmax →
    2 * ha.len + 2 ≤ s.tlen.toNat →
    em = (if s.tlen.toNat < s.inLen.toNat then (inputBytes s).take s.tlen.toNat
      else zeros (s.tlen.toNat - s.inLen.toNat) ++ inputBytes s) →
    db = unmaskedDB ma ha.len em →
    n = ceilDiv ha.len ma.len + ceilDiv (s.tlen.toNat - 1 - ha.len) ma.len → NoFail (n + 1) rest s →
    BusyThrough (4 + n) s ∧
      ∃ t, steps (4 + n) s = .next t ∧ t.draws = { s.draws with fails := rest } ∧
        (∀ idx, s.inLen.toNat ≤ s.tlen.toNat → em[0]? = some 0x00 → db.take ha.len = digest ha (labelBytes s) →
          SeparatorAt db ha.len idx → Completes s t .ok ∧ WritesOutput s t (db.drop (idx + 1))) ∧
        (s.tlen.toNat < s.inLen.toNat ∨ em[0]? ≠ some 0x00 ∨ db.take ha.len ≠ digest ha (labelBytes s) ∨
            (∀ idx, ¬ SeparatorAt db ha.len idx) →
          Completes s t .oaepDecode ∧ WritesOutput s t [])

/-- R107: what OAEP_ENC completes with OK, OAEP_DEC takes back to the message, with the block as it was written or with
leading zero bytes stripped, when no provider call fails. -/
def Obligations.OaepRoundTrip : Prop :=
  ∀ (h m : Sel) (s t u : State) (k z n : Nat) (ha ma : HashAlg) (rest : List Bool),
    Running (.oaepEnc h m) .check s → s.inputs = [] → steps k s = .next t → t.phase = .idle → t.err = .ok →
    hashEntry s.cfg (resolvedHs s) = some ha → hashEntry s.cfg (resolvedMs s) = some ma →
    n = ceilDiv ha.len ma.len + ceilDiv (s.tlen.toNat - 1 - ha.len) ma.len →
    Running (.oaepDec h m) .check u → u.inputs = [] → u.cfg = s.cfg → u.tlen = s.tlen →
    u.labelLen = s.labelLen → labelBytes u = labelBytes s →
    zeros z ++ inputBytes u = t.winBytes .outBuf s.tlen.toNat → NoFail (n + 1) rest u →
    ∃ v, steps (4 + n) u = .next v ∧ Completes u v .ok ∧ WritesOutput u v (inputBytes s)

/-- R103: a step of OAEP_DEC makes the hash call `decHashRequest` names and no other provider call; and two runs of
OAEP_DEC with equal public parameters and the same draws take the same phases, make hash calls of the same selector with
inputs of the same length, and complete at the same step, whatever the bytes of their windows and strings. -/
def Obligations.DecStepsAreDataIndependent : Prop :=
  (∀ (h m : Sel) (p : Phase) (s : State), Running (.oaepDec h m) p s → p ≠ .idle →
      (∀ sel msg, decHashRequest s = some (sel, msg) →
        exec (.oaepDec h m) s =
          .next (afterCall (callHash sel msg s) (decFinish .arith []) (decWithDigest s))) ∧
      (decHashRequest s = none → ∃ t, exec (.oaepDec h m) s = .next t ∧ t.draws = s.draws)) ∧
    ∀ (k : Nat) (s t : State), s.Consistent → t.Consistent → s.ctrl.cmd = 5 → s.inputs = [] → SamePublic s t →
      ∃ s' t', steps k s = .next s' ∧ steps k t = .next t' ∧ SamePublic s' t' ∧
        (decHashRequest s').map (fun q => (q.1, q.2.length)) = (decHashRequest t').map fun q => (q.1, q.2.length)

/-! ### The whole machine -/

/-- R36, R40, R109, R137, R80: a step keeps the invariant of the registers, the memory and the phase. -/
def Obligations.StepKeepsConsistent : Prop :=
  ∀ s t : State, s.Consistent → step s = .next t → t.Consistent

/-- A step keeps what the working registers hold in the phases of a running command (R35, R53, R68, R77, R89, R92, R99). -/
def Obligations.StepKeepsInFlight : Prop :=
  ∀ s t : State, s.Consistent → s.InFlight → step s = .next t → t.InFlight

/-- R133: the state after reset of every instance has both invariants, and TESTCFG is an instance. -/
def Obligations.ResetIsConsistent : Prop :=
  (∀ cfg inputs draws, cfg.WellFormed →
      (State.resetWith cfg inputs draws).Consistent ∧ (State.resetWith cfg inputs draws).InFlight) ∧
    testCfg.WellFormed ∧ State.reset.Consistent ∧ State.reset.InFlight

/-- R10, R37, R109: the block has no trap and no stop: from every consistent state a step answers a next state. -/
def Obligations.ConsistentStatesStep : Prop :=
  ∀ s : State, s.Consistent → ∃ t, step s = .next t

/-- R55, R65: a controller step writes no operand, no CTRL field and no enable: of the windows only those of its command,
OUT_LEN only for the commands with an output string, SIGN_ITER only for SM2_SIGN. -/
def Obligations.ControllerWritesOnlyItsState : Prop :=
  ∀ (i : Instr) (p : Phase) (s t : State), Running i p s → p ≠ .idle → exec i s = .next t →
    SameControl s t ∧ SameBytesOutside (writtenWindows i) s t ∧
      (t.signIter ≠ s.signIter → i.cmd = 1 ∧ p = .sDraw) ∧
      (t.outLen ≠ s.outLen → i.cmd = 3 ∨ i.cmd = 4 ∨ i.cmd = 5)

/-- R116: completion is precise: a step that does not complete changes nothing the host can see but SIGN_ITER; a step
that does sets the common outcome. -/
def Obligations.CompletionIsPrecise : Prop :=
  ∀ (i : Instr) (p : Phase) (s t : State), Running i p s → p ≠ .idle → exec i s = .next t →
    (t.phase ≠ .idle →
      StaysRunning s t t.phase ∧ t.mem = s.mem ∧
        (t.signIter = s.signIter ∨ (p = .sDraw ∧ t.signIter = s.signIter + 1))) ∧
    (t.phase = .idle → Completes s t t.err)

/-- R68, R77, R89, R92, R99, R109: the codes each command may complete with, phase by phase; a failing command with an
output string leaves OUT_BUF all zero and OUT_LEN 0, a failing SM2_SIGN leaves R and S zero. -/
def Obligations.CompletionCodes : Prop :=
  ∀ (i : Instr) (p : Phase) (s t : State), Running i p s → p ≠ .idle → exec i s = .next t → t.phase = .idle →
    t.err ∈ possibleCodes i p ∧
      (t.err ≠ .ok → i.cmd = 3 ∨ i.cmd = 4 ∨ i.cmd = 5 → WritesOutput s t []) ∧
      (i.cmd = 1 → scalar t .da = 0 ∧ (t.err ≠ .ok → WritesSignature s t 0 0))

/-- R25, R127: SIGN_ITER changes only in an S_DRAW step, by one, or to 0 when a command is accepted or at reset. -/
def Obligations.SignIterCountsDraws : Prop :=
  ∀ s t : State, s.Consistent → step s = .next t → t.signIter ≠ s.signIter →
    (t.signIter = s.signIter + 1 ∧ s.phase = .sDraw ∧ s.ctrl.cmd = 1) ∨
      (t.signIter = 0 ∧ ((s.phase = .idle ∧ t.phase = .check) ∨ ∃ rest, HostNext .reset rest s))

/-- R38, R121: only a completion raises IRQ, or a write that sets EN while DONE is pending. -/
def Obligations.IrqRisesOnCompletion : Prop :=
  ∀ s t : State, s.Consistent → step s = .next t → s.irq = false → t.irq = true →
    (s.phase ≠ .idle ∧ t.phase = .idle ∧ t.done = true) ∨
      (s.done = true ∧ s.irqEn = false ∧
        ∃ v rest, HostNext (.write (s.cfg.base + 0x018) 4 v) rest s ∧ v.getLsbD 0 = true)

/-- R112: WERR is set only by a host write that the busy lock ignored, and stays until a STATUS write with bit 3 or a
reset. -/
def Obligations.WerrIsSticky : Prop :=
  ∀ s t : State, s.Consistent → step s = .next t →
    (s.werr = false → t.werr = true →
      s.phase ≠ .idle ∧ t.phase = s.phase ∧ t.mem = s.mem ∧ ∃ addr v rest, HostNext (.write addr 4 v) rest s) ∧
    (s.werr = true → t.werr = false →
      (∃ rest, HostNext .reset rest s) ∨
        ∃ v rest, HostNext (.write (s.cfg.base + 0x014) 4 v) rest s ∧ v.getLsbD 3 = true)
end

