-- ==== Sys2Proof/Laws/Bytes.lean ====
section
/-! SUPPORT. Laws of byte strings, of the big-endian value, and of the providers' answers. -/

namespace Sys2Proof.Machine

open Sys2Proof.Config

@[simp] theorem zeros_length (L : Nat) : (zeros L).length = L := by simp [zeros]

@[simp] theorem i2be_length (L v : Nat) : (i2be L v).length = L := by
  induction L generalizing v with
  | zero => rfl
  | succ L ih => simp [i2be, ih]

@[simp] theorem be32_length (i : BitVec 32) : (be32 i).length = 4 := by simp [be32]

@[simp] theorem padTo_length (L : Nat) (b : List Byte) : (padTo L b).length = L := by simp [padTo]

@[simp] theorem xorBytes_length (a b : List Byte) : (xorBytes a b).length = min a.length b.length := by
  simp [xorBytes]

/-- A string that fits is padded with zeros only. -/
theorem padTo_of_le {L : Nat} {b : List Byte} (h : b.length ≤ L) : padTo L b = b ++ zeros (L - b.length) := by
  rw [padTo, List.take_append_of_le_length_add h]
  where
  List.take_append_of_le_length_add {L : Nat} {b : List Byte} (h : b.length ≤ L) :
      (b ++ zeros L).take L = b ++ zeros (L - b.length) := by
    rw [List.take_append, List.take_of_length_le h, zeros, List.take_replicate, zeros]
    congr 2; omega

@[simp] theorem padTo_nil (L : Nat) : padTo L [] = zeros L := by
  rw [padTo_of_le (Nat.zero_le _)]; simp

theorem padTo_exact {L : Nat} {b : List Byte} (h : b.length = L) : padTo L b = b := by
  rw [padTo_of_le (by omega), h]; simp [zeros]

/-- Masking twice with the same mask gives the string back. -/
theorem xorBytes_xorBytes {a b : List Byte} (h : a.length = b.length) : xorBytes (xorBytes a b) b = a := by
  induction a generalizing b with
  | nil => simp [xorBytes]
  | cons x a ih =>
    cases b with
    | nil => simp at h
    | cons y b =>
      simp only [xorBytes, List.zipWith_cons_cons] at ih ⊢
      rw [ih (by simpa using h), BitVec.xor_assoc, BitVec.xor_self, BitVec.xor_zero]

theorem beNat_append_singleton (b : List Byte) (x : Byte) : beNat (b ++ [x]) = beNat b * 256 + x.toNat := by
  simp [beNat]

/-- BE(I2BE_L(v)) = v for v < 256^L (R7). -/
theorem beNat_i2be {L v : Nat} (h : v < 256 ^ L) : beNat (i2be L v) = v := by
  induction L generalizing v with
  | zero => simp at h; subst h; rfl
  | succ L ih =>
    rw [i2be, beNat_append_singleton, ih (by rw [Nat.pow_succ] at h; omega)]
    simp
    omega

theorem beNat_lt (b : List Byte) : beNat b < 256 ^ b.length := by
  induction b using List.reverseRecOn with
  | nil => simp [beNat]
  | append_singleton b x ih =>
    rw [beNat_append_singleton, List.length_append, List.length_singleton, Nat.pow_succ]
    have := x.isLt
    omega

theorem beNat_zeros (L : Nat) : beNat (zeros L) = 0 := by
  induction L with
  | zero => rfl
  | succ L ih =>
    have : zeros (L + 1) = zeros L ++ [0] := by simp [zeros, List.replicate_succ']
    rw [this, beNat_append_singleton, ih]; simp

/-- A digest is exactly HLEN bytes long (R122, R124). -/
@[simp] theorem digest_length (alg : HashAlg) (m : List Byte) : (digest alg m).length = alg.len := by
  unfold digest
  split
  · exact padTo_length _ _
  · split
    · exact padTo_length _ _
    · exact Vector.length_toList

/-- The length of an assigned selector's digests. -/
theorem hlen_of_entry {cfg : Params} {sel : Sel} {alg : HashAlg} (h : hashEntry cfg sel = some alg) :
    hlen cfg sel = alg.len := by simp [hlen, h]

end Sys2Proof.Machine
end

