-- ==== Sys2Proof/Laws/Memory.lean ====
section
/-! SUPPORT. The laws of the byte memory: a read after a write, and that every memory operation keeps the canonical
form. -/

namespace Sys2Proof.Machine

open Sys2Proof.Config

/-! ### One byte -/

theorem Memory.wf_cons {c : Host.Cell} {m : Memory} :
    Memory.wf (c :: m) = true ↔ c.2 ≠ 0 ∧ (∀ d ∈ m, c.1 < d.1) ∧ Memory.wf m = true := by
  simp [Memory.wf, and_assoc]

@[simp] theorem Memory.wf_nil : Memory.wf [] = true := rfl

theorem mem_writeByte {m : Memory} {a : Nat} {b : Byte} {d : Host.Cell} (h : d ∈ writeByte m a b) :
    d ∈ m ∨ d = (a, b) := by
  induction m with
  | nil => unfold writeByte at h; split at h <;> simp_all
  | cons c m ih =>
    unfold writeByte at h
    split at h
    · rcases List.mem_cons.1 h with h | h
      · simp [h]
      · rcases ih h with h | h <;> simp [h]
    · split at h
      · split at h
        · exact .inl (List.mem_cons_of_mem _ h)
        · rcases List.mem_cons.1 h with h | h
          · exact .inr h
          · exact .inl (List.mem_cons_of_mem _ h)
      · split at h
        · exact .inl h
        · rcases List.mem_cons.1 h with h | h
          · exact .inr h
          · exact .inl h

theorem readByte_of_lt {m : Memory} {a : Nat} (h : ∀ d ∈ m, a < d.1) : readByte m a = 0 := by
  induction m with
  | nil => rfl
  | cons c m ih =>
    have hc := h c List.mem_cons_self
    rw [readByte, if_neg (by omega)]
    exact ih fun d hd => h d (List.mem_cons_of_mem _ hd)

/-- A byte write keeps the canonical form. -/
theorem writeByte_wf {m : Memory} (hm : Memory.wf m = true) (a : Nat) (b : Byte) :
    Memory.wf (writeByte m a b) = true := by
  induction m with
  | nil => unfold writeByte; split <;> simp_all [Memory.wf]
  | cons c m ih =>
    obtain ⟨h0, hlt, hw⟩ := Memory.wf_cons.1 hm
    unfold writeByte
    split
    · rename_i hca
      refine Memory.wf_cons.2 ⟨h0, fun d hd => ?_, ih hw⟩
      rcases mem_writeByte hd with hd | rfl
      · exact hlt d hd
      · exact hca
    · split
      · rename_i hca
        split
        · exact hw
        · exact Memory.wf_cons.2 ⟨by assumption, fun d hd => hca ▸ hlt d hd, hw⟩
      · split
        · exact hm
        · refine Memory.wf_cons.2 ⟨by assumption, fun d hd => ?_, hm⟩
          rcases List.mem_cons.1 hd with rfl | hd
          · show a < d.1; omega
          · have := hlt d hd; show a < d.1; omega

/-- Reading after a byte write: the written byte at its address, the old byte elsewhere. -/
theorem readByte_writeByte {m : Memory} (hm : Memory.wf m = true) (a : Nat) (b : Byte) (x : Nat) :
    readByte (writeByte m a b) x = if x = a then b else readByte m x := by
  induction m with
  | nil =>
    unfold writeByte
    split
    · simp_all [readByte]
    · by_cases hx : x = a
      · simp [hx, readByte]
      · have h' : a ≠ x := fun h => hx h.symm
        simp [hx, readByte, h']
  | cons c m ih =>
    obtain ⟨h0, hlt, hw⟩ := Memory.wf_cons.1 hm
    unfold writeByte
    split
    · rename_i hca
      rw [readByte, ih hw]
      by_cases hx : c.1 = x
      · have : x ≠ a := by omega
        simp [hx, this, readByte]
      · simp [hx, readByte]
    · rename_i hca
      split
      · rename_i hca'
        split
        · rename_i hb
          by_cases hx : x = a
          · subst hx
            simp [hb, readByte_of_lt (m := m) (a := x) fun d hd => by have := hlt d hd; omega]
          · have : c.1 ≠ x := by omega
            simp [hx, readByte, this]
        · by_cases hx : x = a
          · simp [hx, readByte]
          · have : c.1 ≠ x := by omega
            have h' : a ≠ x := fun h => hx h.symm
            simp [hx, readByte, this, h']
      · have hac : a < c.1 := by omega
        have hz : readByte (c :: m) a = 0 := readByte_of_lt fun d hd => by
          rcases List.mem_cons.1 hd with rfl | hd
          · exact hac
          · have := hlt d hd; omega
        split
        · rename_i hb
          by_cases hx : x = a
          · subst hx; simp [hb, hz]
          · simp [hx]
        · by_cases hx : x = a
          · simp [hx, readByte]
          · have h' : a ≠ x := fun h => hx h.symm
            rw [readByte]; simp [hx, h']

/-! ### Strings of bytes -/

theorem mem_writeBytes {m : Memory} {a : Nat} {bs : List Byte} {d : Host.Cell} (h : d ∈ writeBytes m a bs) :
    d ∈ m ∨ (a ≤ d.1 ∧ d.1 < a + bs.length) := by
  induction bs generalizing m a with
  | nil => exact .inl h
  | cons b bs ih =>
    rcases ih h with h | h
    · rcases mem_writeByte h with h | rfl
      · exact .inl h
      · right; simp
    · right; simp; omega

/-- Writing a string keeps the canonical form. -/
theorem writeBytes_wf {m : Memory} (hm : Memory.wf m = true) (a : Nat) (bs : List Byte) :
    Memory.wf (writeBytes m a bs) = true := by
  induction bs generalizing m a with
  | nil => exact hm
  | cons b bs ih => exact ih (writeByte_wf hm a b) (a + 1)

/-- Reading after writing a string: the string's byte inside it, the old byte outside it. -/
theorem readByte_writeBytes {m : Memory} (hm : Memory.wf m = true) (a : Nat) (bs : List Byte) (x : Nat) :
    readByte (writeBytes m a bs) x = if a ≤ x ∧ x < a + bs.length then bs.getD (x - a) 0 else readByte m x := by
  induction bs generalizing m a with
  | nil => simp [writeBytes]
  | cons b bs ih =>
    rw [writeBytes, ih (writeByte_wf hm a b), readByte_writeByte hm]
    by_cases h1 : x = a
    · subst h1; simp
    · by_cases h2 : a + 1 ≤ x ∧ x < a + 1 + bs.length
      · rw [if_pos h2, if_pos (by simp; omega)]
        have : x - a = (x - (a + 1)) + 1 := by omega
        rw [this, List.getD_cons_succ]
      · rw [if_neg h2, if_neg h1, if_neg (by simp; omega)]

@[simp] theorem readBytes_length (m : Memory) (a n : Nat) : (readBytes m a n).length = n := by simp [readBytes]

theorem readBytes_getElem (m : Memory) (a n i : Nat) (h : i < (readBytes m a n).length) :
    (readBytes m a n)[i] = readByte m (a + i) := by simp [readBytes]

/-- Two memories that agree on a range read the same string there. -/
theorem readBytes_congr {m m' : Memory} {a n : Nat} (h : ∀ x, a ≤ x → x < a + n → readByte m x = readByte m' x) :
    readBytes m a n = readBytes m' a n := by
  apply List.map_congr_left
  intro i hi
  exact h _ (by omega) (by have := List.mem_range.1 hi; omega)

/-- A string read where a string was written. -/
theorem readBytes_writeBytes {m : Memory} (hm : Memory.wf m = true) (a : Nat) (bs : List Byte) :
    readBytes (writeBytes m a bs) a bs.length = bs := by
  apply List.ext_getElem (by simp)
  intro i h1 h2
  rw [readBytes_getElem, readByte_writeBytes hm, if_pos (by omega)]
  simp [List.getD, h2]

/-- A string read off the written range. -/
theorem readBytes_writeBytes_disjoint {m : Memory} (hm : Memory.wf m = true) {a c n : Nat} {bs : List Byte}
    (h : c + n ≤ a ∨ a + bs.length ≤ c) : readBytes (writeBytes m a bs) c n = readBytes m c n :=
  readBytes_congr fun x h1 h2 => by rw [readByte_writeBytes hm, if_neg (by omega)]

/-! ### Bus lanes -/

theorem mem_storeLanes {cfg : Params} {m : Memory} {off : Nat} {bs : List Byte} {d : Host.Cell}
    (h : d ∈ storeLanes cfg m off bs) :
    d ∈ m ∨ (off ≤ d.1 ∧ d.1 < off + bs.length ∧ isStorage cfg d.1 = true) := by
  induction bs generalizing m off with
  | nil => exact .inl h
  | cons b bs ih =>
    rw [storeLanes] at h
    rcases ih h with h | ⟨h1, h2, h3⟩
    · split at h
      · rcases mem_writeByte h with h | rfl
        · exact .inl h
        · right; simp; assumption
      · exact .inl h
    · exact .inr ⟨by omega, by simp; omega, h3⟩

/-- A bus write keeps the canonical form. -/
theorem storeLanes_wf {cfg : Params} {m : Memory} (hm : Memory.wf m = true) (off : Nat) (bs : List Byte) :
    Memory.wf (storeLanes cfg m off bs) = true := by
  induction bs generalizing m off with
  | nil => exact hm
  | cons b bs ih =>
    rw [storeLanes]; apply ih
    split
    · exact writeByte_wf hm _ _
    · exact hm

/-- Reading after a bus write: the written lane where the byte is storage, the old byte elsewhere (R42, R46). -/
theorem readByte_storeLanes {cfg : Params} {m : Memory} (hm : Memory.wf m = true) (off : Nat) (bs : List Byte)
    (x : Nat) :
    readByte (storeLanes cfg m off bs) x =
      if off ≤ x ∧ x < off + bs.length ∧ isStorage cfg x = true then bs.getD (x - off) 0 else readByte m x := by
  induction bs generalizing m off with
  | nil => simp [storeLanes]; omega
  | cons b bs ih =>
    have hm' : Memory.wf (if isStorage cfg off then writeByte m off b else m) = true := by
      split
      · exact writeByte_wf hm _ _
      · exact hm
    rw [storeLanes, ih hm']
    by_cases h1 : x = off
    · subst h1
      by_cases h2 : isStorage cfg x = true
      · simp [h2, readByte_writeByte hm]
      · simp [h2]
    · have hx : readByte (if isStorage cfg off then writeByte m off b else m) x = readByte m x := by
        split
        · rw [readByte_writeByte hm, if_neg h1]
        · rfl
      rw [hx]
      by_cases h2 : off + 1 ≤ x ∧ x < off + 1 + bs.length ∧ isStorage cfg x = true
      · rw [if_pos h2, if_pos ⟨by omega, by simp; omega, h2.2.2⟩]
        have : x - off = (x - (off + 1)) + 1 := by omega
        rw [this, List.getD_cons_succ]
      · rw [if_neg h2, if_neg]
        rintro ⟨a1, a2, a3⟩
        exact h2 ⟨by omega, by simp at a2; omega, a3⟩

end Sys2Proof.Machine
end

