-- ==== Sys2Proof/Laws/State.lean ====
section
/-! SUPPORT. The small lemmas of the state's updates: one per field per update, each true by rfl. -/

namespace Sys2Proof.Machine

/-! ### State.goto -/

@[simp] theorem State.goto_cfg (s : State) (p : Phase) : (s.goto p).cfg = s.cfg := rfl
@[simp] theorem State.goto_ctrl (s : State) (p : Phase) : (s.goto p).ctrl = s.ctrl := rfl
@[simp] theorem State.goto_done (s : State) (p : Phase) : (s.goto p).done = s.done := rfl
@[simp] theorem State.goto_valid (s : State) (p : Phase) : (s.goto p).valid = s.valid := rfl
@[simp] theorem State.goto_werr (s : State) (p : Phase) : (s.goto p).werr = s.werr := rfl
@[simp] theorem State.goto_err (s : State) (p : Phase) : (s.goto p).err = s.err := rfl
@[simp] theorem State.goto_irqEn (s : State) (p : Phase) : (s.goto p).irqEn = s.irqEn := rfl
@[simp] theorem State.goto_inLen (s : State) (p : Phase) : (s.goto p).inLen = s.inLen := rfl
@[simp] theorem State.goto_tlen (s : State) (p : Phase) : (s.goto p).tlen = s.tlen := rfl
@[simp] theorem State.goto_labelLen (s : State) (p : Phase) : (s.goto p).labelLen = s.labelLen := rfl
@[simp] theorem State.goto_eLen (s : State) (p : Phase) : (s.goto p).eLen = s.eLen := rfl
@[simp] theorem State.goto_outLen (s : State) (p : Phase) : (s.goto p).outLen = s.outLen := rfl
@[simp] theorem State.goto_signIter (s : State) (p : Phase) : (s.goto p).signIter = s.signIter := rfl
@[simp] theorem State.goto_mem (s : State) (p : Phase) : (s.goto p).mem = s.mem := rfl
@[simp] theorem State.goto_phase (s : State) (p : Phase) : (s.goto p).phase = p := rfl
@[simp] theorem State.goto_w (s : State) (p : Phase) : (s.goto p).w = s.w := rfl
@[simp] theorem State.goto_inputs (s : State) (p : Phase) : (s.goto p).inputs = s.inputs := rfl
@[simp] theorem State.goto_bus (s : State) (p : Phase) : (s.goto p).bus = s.bus := rfl
@[simp] theorem State.goto_draws (s : State) (p : Phase) : (s.goto p).draws = s.draws := rfl

/-! ### State.setW -/

@[simp] theorem State.setW_cfg (s : State) (w : Working) : (s.setW w).cfg = s.cfg := rfl
@[simp] theorem State.setW_ctrl (s : State) (w : Working) : (s.setW w).ctrl = s.ctrl := rfl
@[simp] theorem State.setW_done (s : State) (w : Working) : (s.setW w).done = s.done := rfl
@[simp] theorem State.setW_valid (s : State) (w : Working) : (s.setW w).valid = s.valid := rfl
@[simp] theorem State.setW_werr (s : State) (w : Working) : (s.setW w).werr = s.werr := rfl
@[simp] theorem State.setW_err (s : State) (w : Working) : (s.setW w).err = s.err := rfl
@[simp] theorem State.setW_irqEn (s : State) (w : Working) : (s.setW w).irqEn = s.irqEn := rfl
@[simp] theorem State.setW_inLen (s : State) (w : Working) : (s.setW w).inLen = s.inLen := rfl
@[simp] theorem State.setW_tlen (s : State) (w : Working) : (s.setW w).tlen = s.tlen := rfl
@[simp] theorem State.setW_labelLen (s : State) (w : Working) : (s.setW w).labelLen = s.labelLen := rfl
@[simp] theorem State.setW_eLen (s : State) (w : Working) : (s.setW w).eLen = s.eLen := rfl
@[simp] theorem State.setW_outLen (s : State) (w : Working) : (s.setW w).outLen = s.outLen := rfl
@[simp] theorem State.setW_signIter (s : State) (w : Working) : (s.setW w).signIter = s.signIter := rfl
@[simp] theorem State.setW_mem (s : State) (w : Working) : (s.setW w).mem = s.mem := rfl
@[simp] theorem State.setW_phase (s : State) (w : Working) : (s.setW w).phase = s.phase := rfl
@[simp] theorem State.setW_w (s : State) (w : Working) : (s.setW w).w = w := rfl
@[simp] theorem State.setW_inputs (s : State) (w : Working) : (s.setW w).inputs = s.inputs := rfl
@[simp] theorem State.setW_bus (s : State) (w : Working) : (s.setW w).bus = s.bus := rfl
@[simp] theorem State.setW_draws (s : State) (w : Working) : (s.setW w).draws = s.draws := rfl

/-! ### State.setMem -/

@[simp] theorem State.setMem_cfg (s : State) (m : Memory) : (s.setMem m).cfg = s.cfg := rfl
@[simp] theorem State.setMem_ctrl (s : State) (m : Memory) : (s.setMem m).ctrl = s.ctrl := rfl
@[simp] theorem State.setMem_done (s : State) (m : Memory) : (s.setMem m).done = s.done := rfl
@[simp] theorem State.setMem_valid (s : State) (m : Memory) : (s.setMem m).valid = s.valid := rfl
@[simp] theorem State.setMem_werr (s : State) (m : Memory) : (s.setMem m).werr = s.werr := rfl
@[simp] theorem State.setMem_err (s : State) (m : Memory) : (s.setMem m).err = s.err := rfl
@[simp] theorem State.setMem_irqEn (s : State) (m : Memory) : (s.setMem m).irqEn = s.irqEn := rfl
@[simp] theorem State.setMem_inLen (s : State) (m : Memory) : (s.setMem m).inLen = s.inLen := rfl
@[simp] theorem State.setMem_tlen (s : State) (m : Memory) : (s.setMem m).tlen = s.tlen := rfl
@[simp] theorem State.setMem_labelLen (s : State) (m : Memory) : (s.setMem m).labelLen = s.labelLen := rfl
@[simp] theorem State.setMem_eLen (s : State) (m : Memory) : (s.setMem m).eLen = s.eLen := rfl
@[simp] theorem State.setMem_outLen (s : State) (m : Memory) : (s.setMem m).outLen = s.outLen := rfl
@[simp] theorem State.setMem_signIter (s : State) (m : Memory) : (s.setMem m).signIter = s.signIter := rfl
@[simp] theorem State.setMem_mem (s : State) (m : Memory) : (s.setMem m).mem = m := rfl
@[simp] theorem State.setMem_phase (s : State) (m : Memory) : (s.setMem m).phase = s.phase := rfl
@[simp] theorem State.setMem_w (s : State) (m : Memory) : (s.setMem m).w = s.w := rfl
@[simp] theorem State.setMem_inputs (s : State) (m : Memory) : (s.setMem m).inputs = s.inputs := rfl
@[simp] theorem State.setMem_bus (s : State) (m : Memory) : (s.setMem m).bus = s.bus := rfl
@[simp] theorem State.setMem_draws (s : State) (m : Memory) : (s.setMem m).draws = s.draws := rfl

/-! ### State.setDraws -/

@[simp] theorem State.setDraws_cfg (s : State) (d : Draws) : (s.setDraws d).cfg = s.cfg := rfl
@[simp] theorem State.setDraws_ctrl (s : State) (d : Draws) : (s.setDraws d).ctrl = s.ctrl := rfl
@[simp] theorem State.setDraws_done (s : State) (d : Draws) : (s.setDraws d).done = s.done := rfl
@[simp] theorem State.setDraws_valid (s : State) (d : Draws) : (s.setDraws d).valid = s.valid := rfl
@[simp] theorem State.setDraws_werr (s : State) (d : Draws) : (s.setDraws d).werr = s.werr := rfl
@[simp] theorem State.setDraws_err (s : State) (d : Draws) : (s.setDraws d).err = s.err := rfl
@[simp] theorem State.setDraws_irqEn (s : State) (d : Draws) : (s.setDraws d).irqEn = s.irqEn := rfl
@[simp] theorem State.setDraws_inLen (s : State) (d : Draws) : (s.setDraws d).inLen = s.inLen := rfl
@[simp] theorem State.setDraws_tlen (s : State) (d : Draws) : (s.setDraws d).tlen = s.tlen := rfl
@[simp] theorem State.setDraws_labelLen (s : State) (d : Draws) : (s.setDraws d).labelLen = s.labelLen := rfl
@[simp] theorem State.setDraws_eLen (s : State) (d : Draws) : (s.setDraws d).eLen = s.eLen := rfl
@[simp] theorem State.setDraws_outLen (s : State) (d : Draws) : (s.setDraws d).outLen = s.outLen := rfl
@[simp] theorem State.setDraws_signIter (s : State) (d : Draws) : (s.setDraws d).signIter = s.signIter := rfl
@[simp] theorem State.setDraws_mem (s : State) (d : Draws) : (s.setDraws d).mem = s.mem := rfl
@[simp] theorem State.setDraws_phase (s : State) (d : Draws) : (s.setDraws d).phase = s.phase := rfl
@[simp] theorem State.setDraws_w (s : State) (d : Draws) : (s.setDraws d).w = s.w := rfl
@[simp] theorem State.setDraws_inputs (s : State) (d : Draws) : (s.setDraws d).inputs = s.inputs := rfl
@[simp] theorem State.setDraws_bus (s : State) (d : Draws) : (s.setDraws d).bus = s.bus := rfl
@[simp] theorem State.setDraws_draws (s : State) (d : Draws) : (s.setDraws d).draws = d := rfl

/-! ### State.answer -/

@[simp] theorem State.answer_cfg (s : State) (r : BusResponse) : (s.answer r).cfg = s.cfg := rfl
@[simp] theorem State.answer_ctrl (s : State) (r : BusResponse) : (s.answer r).ctrl = s.ctrl := rfl
@[simp] theorem State.answer_done (s : State) (r : BusResponse) : (s.answer r).done = s.done := rfl
@[simp] theorem State.answer_valid (s : State) (r : BusResponse) : (s.answer r).valid = s.valid := rfl
@[simp] theorem State.answer_werr (s : State) (r : BusResponse) : (s.answer r).werr = s.werr := rfl
@[simp] theorem State.answer_err (s : State) (r : BusResponse) : (s.answer r).err = s.err := rfl
@[simp] theorem State.answer_irqEn (s : State) (r : BusResponse) : (s.answer r).irqEn = s.irqEn := rfl
@[simp] theorem State.answer_inLen (s : State) (r : BusResponse) : (s.answer r).inLen = s.inLen := rfl
@[simp] theorem State.answer_tlen (s : State) (r : BusResponse) : (s.answer r).tlen = s.tlen := rfl
@[simp] theorem State.answer_labelLen (s : State) (r : BusResponse) : (s.answer r).labelLen = s.labelLen := rfl
@[simp] theorem State.answer_eLen (s : State) (r : BusResponse) : (s.answer r).eLen = s.eLen := rfl
@[simp] theorem State.answer_outLen (s : State) (r : BusResponse) : (s.answer r).outLen = s.outLen := rfl
@[simp] theorem State.answer_signIter (s : State) (r : BusResponse) : (s.answer r).signIter = s.signIter := rfl
@[simp] theorem State.answer_mem (s : State) (r : BusResponse) : (s.answer r).mem = s.mem := rfl
@[simp] theorem State.answer_phase (s : State) (r : BusResponse) : (s.answer r).phase = s.phase := rfl
@[simp] theorem State.answer_w (s : State) (r : BusResponse) : (s.answer r).w = s.w := rfl
@[simp] theorem State.answer_inputs (s : State) (r : BusResponse) : (s.answer r).inputs = s.inputs := rfl
@[simp] theorem State.answer_bus (s : State) (r : BusResponse) : (s.answer r).bus = r := rfl
@[simp] theorem State.answer_draws (s : State) (r : BusResponse) : (s.answer r).draws = s.draws := rfl

/-! ### State.queueFirst -/

@[simp] theorem State.queueFirst_cfg (s : State) (ev : HostEvent) : (s.queueFirst ev).cfg = s.cfg := rfl
@[simp] theorem State.queueFirst_ctrl (s : State) (ev : HostEvent) : (s.queueFirst ev).ctrl = s.ctrl := rfl
@[simp] theorem State.queueFirst_done (s : State) (ev : HostEvent) : (s.queueFirst ev).done = s.done := rfl
@[simp] theorem State.queueFirst_valid (s : State) (ev : HostEvent) : (s.queueFirst ev).valid = s.valid := rfl
@[simp] theorem State.queueFirst_werr (s : State) (ev : HostEvent) : (s.queueFirst ev).werr = s.werr := rfl
@[simp] theorem State.queueFirst_err (s : State) (ev : HostEvent) : (s.queueFirst ev).err = s.err := rfl
@[simp] theorem State.queueFirst_irqEn (s : State) (ev : HostEvent) : (s.queueFirst ev).irqEn = s.irqEn := rfl
@[simp] theorem State.queueFirst_inLen (s : State) (ev : HostEvent) : (s.queueFirst ev).inLen = s.inLen := rfl
@[simp] theorem State.queueFirst_tlen (s : State) (ev : HostEvent) : (s.queueFirst ev).tlen = s.tlen := rfl
@[simp] theorem State.queueFirst_labelLen (s : State) (ev : HostEvent) : (s.queueFirst ev).labelLen = s.labelLen := rfl
@[simp] theorem State.queueFirst_eLen (s : State) (ev : HostEvent) : (s.queueFirst ev).eLen = s.eLen := rfl
@[simp] theorem State.queueFirst_outLen (s : State) (ev : HostEvent) : (s.queueFirst ev).outLen = s.outLen := rfl
@[simp] theorem State.queueFirst_signIter (s : State) (ev : HostEvent) : (s.queueFirst ev).signIter = s.signIter := rfl
@[simp] theorem State.queueFirst_mem (s : State) (ev : HostEvent) : (s.queueFirst ev).mem = s.mem := rfl
@[simp] theorem State.queueFirst_phase (s : State) (ev : HostEvent) : (s.queueFirst ev).phase = s.phase := rfl
@[simp] theorem State.queueFirst_w (s : State) (ev : HostEvent) : (s.queueFirst ev).w = s.w := rfl
@[simp] theorem State.queueFirst_inputs (s : State) (ev : HostEvent) : (s.queueFirst ev).inputs = ev :: s.inputs := rfl
@[simp] theorem State.queueFirst_bus (s : State) (ev : HostEvent) : (s.queueFirst ev).bus = s.bus := rfl
@[simp] theorem State.queueFirst_draws (s : State) (ev : HostEvent) : (s.queueFirst ev).draws = s.draws := rfl

/-! ### State.drawn -/

@[simp] theorem State.drawn_cfg (s : State) : (s.drawn).cfg = s.cfg := rfl
@[simp] theorem State.drawn_ctrl (s : State) : (s.drawn).ctrl = s.ctrl := rfl
@[simp] theorem State.drawn_done (s : State) : (s.drawn).done = s.done := rfl
@[simp] theorem State.drawn_valid (s : State) : (s.drawn).valid = s.valid := rfl
@[simp] theorem State.drawn_werr (s : State) : (s.drawn).werr = s.werr := rfl
@[simp] theorem State.drawn_err (s : State) : (s.drawn).err = s.err := rfl
@[simp] theorem State.drawn_irqEn (s : State) : (s.drawn).irqEn = s.irqEn := rfl
@[simp] theorem State.drawn_inLen (s : State) : (s.drawn).inLen = s.inLen := rfl
@[simp] theorem State.drawn_tlen (s : State) : (s.drawn).tlen = s.tlen := rfl
@[simp] theorem State.drawn_labelLen (s : State) : (s.drawn).labelLen = s.labelLen := rfl
@[simp] theorem State.drawn_eLen (s : State) : (s.drawn).eLen = s.eLen := rfl
@[simp] theorem State.drawn_outLen (s : State) : (s.drawn).outLen = s.outLen := rfl
@[simp] theorem State.drawn_signIter (s : State) : (s.drawn).signIter = s.signIter := rfl
@[simp] theorem State.drawn_mem (s : State) : (s.drawn).mem = s.mem := rfl
@[simp] theorem State.drawn_phase (s : State) : (s.drawn).phase = s.phase := rfl
@[simp] theorem State.drawn_w (s : State) : (s.drawn).w = s.w := rfl
@[simp] theorem State.drawn_inputs (s : State) : (s.drawn).inputs = s.inputs := rfl
@[simp] theorem State.drawn_bus (s : State) : (s.drawn).bus = s.bus := rfl
@[simp] theorem State.drawn_draws (s : State) : (s.drawn).draws = (drawFail s.draws).2 := rfl

/-! ### fillWin -/

@[simp] theorem State.fillWin_cfg (s : State) (win : Win) (b : List Byte) :
    (s.fillWin win b).cfg = s.cfg := rfl
@[simp] theorem State.fillWin_ctrl (s : State) (win : Win) (b : List Byte) :
    (s.fillWin win b).ctrl = s.ctrl := rfl
@[simp] theorem State.fillWin_done (s : State) (win : Win) (b : List Byte) :
    (s.fillWin win b).done = s.done := rfl
@[simp] theorem State.fillWin_valid (s : State) (win : Win) (b : List Byte) :
    (s.fillWin win b).valid = s.valid := rfl
@[simp] theorem State.fillWin_werr (s : State) (win : Win) (b : List Byte) :
    (s.fillWin win b).werr = s.werr := rfl
@[simp] theorem State.fillWin_err (s : State) (win : Win) (b : List Byte) :
    (s.fillWin win b).err = s.err := rfl
@[simp] theorem State.fillWin_irqEn (s : State) (win : Win) (b : List Byte) :
    (s.fillWin win b).irqEn = s.irqEn := rfl
@[simp] theorem State.fillWin_inLen (s : State) (win : Win) (b : List Byte) :
    (s.fillWin win b).inLen = s.inLen := rfl
@[simp] theorem State.fillWin_tlen (s : State) (win : Win) (b : List Byte) :
    (s.fillWin win b).tlen = s.tlen := rfl
@[simp] theorem State.fillWin_labelLen (s : State) (win : Win) (b : List Byte) :
    (s.fillWin win b).labelLen = s.labelLen := rfl
@[simp] theorem State.fillWin_eLen (s : State) (win : Win) (b : List Byte) :
    (s.fillWin win b).eLen = s.eLen := rfl
@[simp] theorem State.fillWin_outLen (s : State) (win : Win) (b : List Byte) :
    (s.fillWin win b).outLen = s.outLen := rfl
@[simp] theorem State.fillWin_signIter (s : State) (win : Win) (b : List Byte) :
    (s.fillWin win b).signIter = s.signIter := rfl
@[simp] theorem State.fillWin_mem (s : State) (win : Win) (b : List Byte) :
    (s.fillWin win b).mem = writeBytes s.mem win.base (padTo (win.capacity s.cfg) b) := rfl
@[simp] theorem State.fillWin_phase (s : State) (win : Win) (b : List Byte) :
    (s.fillWin win b).phase = s.phase := rfl
@[simp] theorem State.fillWin_w (s : State) (win : Win) (b : List Byte) :
    (s.fillWin win b).w = s.w := rfl
@[simp] theorem State.fillWin_inputs (s : State) (win : Win) (b : List Byte) :
    (s.fillWin win b).inputs = s.inputs := rfl
@[simp] theorem State.fillWin_bus (s : State) (win : Win) (b : List Byte) :
    (s.fillWin win b).bus = s.bus := rfl
@[simp] theorem State.fillWin_draws (s : State) (win : Win) (b : List Byte) :
    (s.fillWin win b).draws = s.draws := rfl

/-! ### accept -/

@[simp] theorem accept_cfg (cmd hsel msel : Sel) (s : State) :
    (accept cmd hsel msel s).cfg = s.cfg := rfl
@[simp] theorem accept_ctrl (cmd hsel msel : Sel) (s : State) :
    (accept cmd hsel msel s).ctrl = { cmd := cmd, hsel := hsel, msel := msel } := rfl
@[simp] theorem accept_done (cmd hsel msel : Sel) (s : State) :
    (accept cmd hsel msel s).done = false := rfl
@[simp] theorem accept_valid (cmd hsel msel : Sel) (s : State) :
    (accept cmd hsel msel s).valid = false := rfl
@[simp] theorem accept_werr (cmd hsel msel : Sel) (s : State) :
    (accept cmd hsel msel s).werr = s.werr := rfl
@[simp] theorem accept_err (cmd hsel msel : Sel) (s : State) :
    (accept cmd hsel msel s).err = .ok := rfl
@[simp] theorem accept_irqEn (cmd hsel msel : Sel) (s : State) :
    (accept cmd hsel msel s).irqEn = s.irqEn := rfl
@[simp] theorem accept_inLen (cmd hsel msel : Sel) (s : State) :
    (accept cmd hsel msel s).inLen = s.inLen := rfl
@[simp] theorem accept_tlen (cmd hsel msel : Sel) (s : State) :
    (accept cmd hsel msel s).tlen = s.tlen := rfl
@[simp] theorem accept_labelLen (cmd hsel msel : Sel) (s : State) :
    (accept cmd hsel msel s).labelLen = s.labelLen := rfl
@[simp] theorem accept_eLen (cmd hsel msel : Sel) (s : State) :
    (accept cmd hsel msel s).eLen = s.eLen := rfl
@[simp] theorem accept_outLen (cmd hsel msel : Sel) (s : State) :
    (accept cmd hsel msel s).outLen = 0 := rfl
@[simp] theorem accept_signIter (cmd hsel msel : Sel) (s : State) :
    (accept cmd hsel msel s).signIter = 0 := rfl
@[simp] theorem accept_mem (cmd hsel msel : Sel) (s : State) :
    (accept cmd hsel msel s).mem = s.mem := rfl
@[simp] theorem accept_phase (cmd hsel msel : Sel) (s : State) :
    (accept cmd hsel msel s).phase = .check := rfl
@[simp] theorem accept_w (cmd hsel msel : Sel) (s : State) :
    (accept cmd hsel msel s).w = s.w := rfl
@[simp] theorem accept_inputs (cmd hsel msel : Sel) (s : State) :
    (accept cmd hsel msel s).inputs = s.inputs := rfl
@[simp] theorem accept_bus (cmd hsel msel : Sel) (s : State) :
    (accept cmd hsel msel s).bus = s.bus := rfl
@[simp] theorem accept_draws (cmd hsel msel : Sel) (s : State) :
    (accept cmd hsel msel s).draws = s.draws := rfl

/-! ### turnAway -/

@[simp] theorem turnAway_cfg (s : State) : (turnAway s).cfg = s.cfg := rfl
@[simp] theorem turnAway_ctrl (s : State) : (turnAway s).ctrl = s.ctrl := rfl
@[simp] theorem turnAway_done (s : State) : (turnAway s).done = s.done := rfl
@[simp] theorem turnAway_valid (s : State) : (turnAway s).valid = s.valid := rfl
@[simp] theorem turnAway_werr (s : State) : (turnAway s).werr = true := rfl
@[simp] theorem turnAway_err (s : State) : (turnAway s).err = s.err := rfl
@[simp] theorem turnAway_irqEn (s : State) : (turnAway s).irqEn = s.irqEn := rfl
@[simp] theorem turnAway_inLen (s : State) : (turnAway s).inLen = s.inLen := rfl
@[simp] theorem turnAway_tlen (s : State) : (turnAway s).tlen = s.tlen := rfl
@[simp] theorem turnAway_labelLen (s : State) : (turnAway s).labelLen = s.labelLen := rfl
@[simp] theorem turnAway_eLen (s : State) : (turnAway s).eLen = s.eLen := rfl
@[simp] theorem turnAway_outLen (s : State) : (turnAway s).outLen = s.outLen := rfl
@[simp] theorem turnAway_signIter (s : State) : (turnAway s).signIter = s.signIter := rfl
@[simp] theorem turnAway_mem (s : State) : (turnAway s).mem = s.mem := rfl
@[simp] theorem turnAway_phase (s : State) : (turnAway s).phase = s.phase := rfl
@[simp] theorem turnAway_w (s : State) : (turnAway s).w = s.w := rfl
@[simp] theorem turnAway_inputs (s : State) : (turnAway s).inputs = s.inputs := rfl
@[simp] theorem turnAway_bus (s : State) : (turnAway s).bus = s.bus := rfl
@[simp] theorem turnAway_draws (s : State) : (turnAway s).draws = s.draws := rfl

/-! ### applyReset -/

@[simp] theorem applyReset_cfg (s : State) : (applyReset s).cfg = s.cfg := rfl
@[simp] theorem applyReset_ctrl (s : State) : (applyReset s).ctrl = { cmd := 0, hsel := 0, msel := 0 } := rfl
@[simp] theorem applyReset_done (s : State) : (applyReset s).done = false := rfl
@[simp] theorem applyReset_valid (s : State) : (applyReset s).valid = false := rfl
@[simp] theorem applyReset_werr (s : State) : (applyReset s).werr = false := rfl
@[simp] theorem applyReset_err (s : State) : (applyReset s).err = .ok := rfl
@[simp] theorem applyReset_irqEn (s : State) : (applyReset s).irqEn = false := rfl
@[simp] theorem applyReset_inLen (s : State) : (applyReset s).inLen = 0 := rfl
@[simp] theorem applyReset_tlen (s : State) : (applyReset s).tlen = 0 := rfl
@[simp] theorem applyReset_labelLen (s : State) : (applyReset s).labelLen = 0 := rfl
@[simp] theorem applyReset_eLen (s : State) : (applyReset s).eLen = 0 := rfl
@[simp] theorem applyReset_outLen (s : State) : (applyReset s).outLen = 0 := rfl
@[simp] theorem applyReset_signIter (s : State) : (applyReset s).signIter = 0 := rfl
@[simp] theorem applyReset_mem (s : State) : (applyReset s).mem = [] := rfl
@[simp] theorem applyReset_phase (s : State) : (applyReset s).phase = .idle := rfl
@[simp] theorem applyReset_w (s : State) : (applyReset s).w = Working.zero := rfl
@[simp] theorem applyReset_inputs (s : State) : (applyReset s).inputs = s.inputs := rfl
@[simp] theorem applyReset_bus (s : State) : (applyReset s).bus = .none := rfl
@[simp] theorem applyReset_draws (s : State) : (applyReset s).draws = s.draws := rfl

/-! ### outputWrites: what every completion of MGF1, OAEP_ENC and OAEP_DEC leaves alone -/

@[simp] theorem outputWrites_cfg (code : ErrCode) (b : List Byte) (s : State) :
    (outputWrites code b s).cfg = s.cfg := by
  unfold outputWrites; split <;> rfl
@[simp] theorem outputWrites_ctrl (code : ErrCode) (b : List Byte) (s : State) :
    (outputWrites code b s).ctrl = s.ctrl := by
  unfold outputWrites; split <;> rfl
@[simp] theorem outputWrites_done (code : ErrCode) (b : List Byte) (s : State) :
    (outputWrites code b s).done = s.done := by
  unfold outputWrites; split <;> rfl
@[simp] theorem outputWrites_valid (code : ErrCode) (b : List Byte) (s : State) :
    (outputWrites code b s).valid = s.valid := by
  unfold outputWrites; split <;> rfl
@[simp] theorem outputWrites_werr (code : ErrCode) (b : List Byte) (s : State) :
    (outputWrites code b s).werr = s.werr := by
  unfold outputWrites; split <;> rfl
@[simp] theorem outputWrites_err (code : ErrCode) (b : List Byte) (s : State) :
    (outputWrites code b s).err = s.err := by
  unfold outputWrites; split <;> rfl
@[simp] theorem outputWrites_irqEn (code : ErrCode) (b : List Byte) (s : State) :
    (outputWrites code b s).irqEn = s.irqEn := by
  unfold outputWrites; split <;> rfl
@[simp] theorem outputWrites_inLen (code : ErrCode) (b : List Byte) (s : State) :
    (outputWrites code b s).inLen = s.inLen := by
  unfold outputWrites; split <;> rfl
@[simp] theorem outputWrites_tlen (code : ErrCode) (b : List Byte) (s : State) :
    (outputWrites code b s).tlen = s.tlen := by
  unfold outputWrites; split <;> rfl
@[simp] theorem outputWrites_labelLen (code : ErrCode) (b : List Byte) (s : State) :
    (outputWrites code b s).labelLen = s.labelLen := by
  unfold outputWrites; split <;> rfl
@[simp] theorem outputWrites_eLen (code : ErrCode) (b : List Byte) (s : State) :
    (outputWrites code b s).eLen = s.eLen := by
  unfold outputWrites; split <;> rfl
@[simp] theorem outputWrites_signIter (code : ErrCode) (b : List Byte) (s : State) :
    (outputWrites code b s).signIter = s.signIter := by
  unfold outputWrites; split <;> rfl
@[simp] theorem outputWrites_phase (code : ErrCode) (b : List Byte) (s : State) :
    (outputWrites code b s).phase = s.phase := by
  unfold outputWrites; split <;> rfl
@[simp] theorem outputWrites_w (code : ErrCode) (b : List Byte) (s : State) :
    (outputWrites code b s).w = s.w := by
  unfold outputWrites; split <;> rfl
@[simp] theorem outputWrites_inputs (code : ErrCode) (b : List Byte) (s : State) :
    (outputWrites code b s).inputs = s.inputs := by
  unfold outputWrites; split <;> rfl
@[simp] theorem outputWrites_bus (code : ErrCode) (b : List Byte) (s : State) :
    (outputWrites code b s).bus = s.bus := by
  unfold outputWrites; split <;> rfl
@[simp] theorem outputWrites_draws (code : ErrCode) (b : List Byte) (s : State) :
    (outputWrites code b s).draws = s.draws := by
  unfold outputWrites; split <;> rfl

/-! ### signWrites: what every completion of SM2_SIGN leaves alone -/

@[simp] theorem signWrites_cfg (code : ErrCode) (s : State) : (signWrites code s).cfg = s.cfg := by
  unfold signWrites; split <;> rfl
@[simp] theorem signWrites_ctrl (code : ErrCode) (s : State) : (signWrites code s).ctrl = s.ctrl := by
  unfold signWrites; split <;> rfl
@[simp] theorem signWrites_done (code : ErrCode) (s : State) : (signWrites code s).done = s.done := by
  unfold signWrites; split <;> rfl
@[simp] theorem signWrites_valid (code : ErrCode) (s : State) : (signWrites code s).valid = s.valid := by
  unfold signWrites; split <;> rfl
@[simp] theorem signWrites_werr (code : ErrCode) (s : State) : (signWrites code s).werr = s.werr := by
  unfold signWrites; split <;> rfl
@[simp] theorem signWrites_err (code : ErrCode) (s : State) : (signWrites code s).err = s.err := by
  unfold signWrites; split <;> rfl
@[simp] theorem signWrites_irqEn (code : ErrCode) (s : State) : (signWrites code s).irqEn = s.irqEn := by
  unfold signWrites; split <;> rfl
@[simp] theorem signWrites_inLen (code : ErrCode) (s : State) : (signWrites code s).inLen = s.inLen := by
  unfold signWrites; split <;> rfl
@[simp] theorem signWrites_tlen (code : ErrCode) (s : State) : (signWrites code s).tlen = s.tlen := by
  unfold signWrites; split <;> rfl
@[simp] theorem signWrites_labelLen (code : ErrCode) (s : State) : (signWrites code s).labelLen = s.labelLen := by
  unfold signWrites; split <;> rfl
@[simp] theorem signWrites_eLen (code : ErrCode) (s : State) : (signWrites code s).eLen = s.eLen := by
  unfold signWrites; split <;> rfl
@[simp] theorem signWrites_outLen (code : ErrCode) (s : State) : (signWrites code s).outLen = s.outLen := by
  unfold signWrites; split <;> rfl
@[simp] theorem signWrites_signIter (code : ErrCode) (s : State) : (signWrites code s).signIter = s.signIter := by
  unfold signWrites; split <;> rfl
@[simp] theorem signWrites_phase (code : ErrCode) (s : State) : (signWrites code s).phase = s.phase := by
  unfold signWrites; split <;> rfl
@[simp] theorem signWrites_w (code : ErrCode) (s : State) : (signWrites code s).w = s.w := by
  unfold signWrites; split <;> rfl
@[simp] theorem signWrites_inputs (code : ErrCode) (s : State) : (signWrites code s).inputs = s.inputs := by
  unfold signWrites; split <;> rfl
@[simp] theorem signWrites_bus (code : ErrCode) (s : State) : (signWrites code s).bus = s.bus := by
  unfold signWrites; split <;> rfl
@[simp] theorem signWrites_draws (code : ErrCode) (s : State) : (signWrites code s).draws = s.draws := by
  unfold signWrites; split <;> rfl

/-! ### callFails: it depends on the draws alone -/

@[simp] theorem State.callFails_goto (s : State) (p : Phase) : (s.goto p).callFails = s.callFails := rfl
@[simp] theorem State.callFails_setW (s : State) (w : Working) : (s.setW w).callFails = s.callFails := rfl
@[simp] theorem State.callFails_setMem (s : State) (m : Memory) : (s.setMem m).callFails = s.callFails := rfl
@[simp] theorem State.callFails_answer (s : State) (r : BusResponse) : (s.answer r).callFails = s.callFails := rfl
@[simp] theorem State.callFails_queueFirst (s : State) (ev : HostEvent) : (s.queueFirst ev).callFails = s.callFails := rfl

/-! ### finish: what every completion sets (R115) -/

@[simp] theorem finish_phase (code : ErrCode) (g : State → State) (s : State) : (finish code g s).phase = .idle := rfl
@[simp] theorem finish_w (code : ErrCode) (g : State → State) (s : State) : (finish code g s).w = Working.zero := rfl
@[simp] theorem finish_done (code : ErrCode) (g : State → State) (s : State) : (finish code g s).done = true := rfl

/-! ### The completions, field by field -/

@[simp] theorem signFinish_cfg (code : ErrCode) (s : State) : (signFinish code s).cfg = s.cfg := by
  simp [signFinish, finish]
@[simp] theorem signFinish_ctrl (code : ErrCode) (s : State) : (signFinish code s).ctrl = s.ctrl := by
  simp [signFinish, finish]
@[simp] theorem signFinish_done (code : ErrCode) (s : State) : (signFinish code s).done = true := rfl
@[simp] theorem signFinish_valid (code : ErrCode) (s : State) : (signFinish code s).valid = (s.ctrl.cmd == 2 && code == .ok) := by
  simp [signFinish, finish]
@[simp] theorem signFinish_werr (code : ErrCode) (s : State) : (signFinish code s).werr = s.werr := by
  simp [signFinish, finish]
@[simp] theorem signFinish_err (code : ErrCode) (s : State) : (signFinish code s).err = code := by
  simp [signFinish, finish]
@[simp] theorem signFinish_irqEn (code : ErrCode) (s : State) : (signFinish code s).irqEn = s.irqEn := by
  simp [signFinish, finish]
@[simp] theorem signFinish_inLen (code : ErrCode) (s : State) : (signFinish code s).inLen = s.inLen := by
  simp [signFinish, finish]
@[simp] theorem signFinish_tlen (code : ErrCode) (s : State) : (signFinish code s).tlen = s.tlen := by
  simp [signFinish, finish]
@[simp] theorem signFinish_labelLen (code : ErrCode) (s : State) : (signFinish code s).labelLen = s.labelLen := by
  simp [signFinish, finish]
@[simp] theorem signFinish_eLen (code : ErrCode) (s : State) : (signFinish code s).eLen = s.eLen := by
  simp [signFinish, finish]
@[simp] theorem signFinish_outLen (code : ErrCode) (s : State) : (signFinish code s).outLen = s.outLen := by
  simp [signFinish, finish]
@[simp] theorem signFinish_signIter (code : ErrCode) (s : State) : (signFinish code s).signIter = s.signIter := by
  simp [signFinish, finish]
@[simp] theorem signFinish_phase (code : ErrCode) (s : State) : (signFinish code s).phase = .idle := rfl
@[simp] theorem signFinish_w (code : ErrCode) (s : State) : (signFinish code s).w = Working.zero := rfl
@[simp] theorem signFinish_inputs (code : ErrCode) (s : State) : (signFinish code s).inputs = s.inputs := by
  simp [signFinish, finish]
@[simp] theorem signFinish_bus (code : ErrCode) (s : State) : (signFinish code s).bus = s.bus := by
  simp [signFinish, finish]
@[simp] theorem signFinish_draws (code : ErrCode) (s : State) : (signFinish code s).draws = s.draws := by
  simp [signFinish, finish]

@[simp] theorem verifyFinish_cfg (code : ErrCode) (s : State) : (verifyFinish code s).cfg = s.cfg := rfl
@[simp] theorem verifyFinish_ctrl (code : ErrCode) (s : State) : (verifyFinish code s).ctrl = s.ctrl := rfl
@[simp] theorem verifyFinish_done (code : ErrCode) (s : State) : (verifyFinish code s).done = true := rfl
@[simp] theorem verifyFinish_valid (code : ErrCode) (s : State) : (verifyFinish code s).valid = (s.ctrl.cmd == 2 && code == .ok) := rfl
@[simp] theorem verifyFinish_werr (code : ErrCode) (s : State) : (verifyFinish code s).werr = s.werr := rfl
@[simp] theorem verifyFinish_err (code : ErrCode) (s : State) : (verifyFinish code s).err = code := rfl
@[simp] theorem verifyFinish_irqEn (code : ErrCode) (s : State) : (verifyFinish code s).irqEn = s.irqEn := rfl
@[simp] theorem verifyFinish_inLen (code : ErrCode) (s : State) : (verifyFinish code s).inLen = s.inLen := rfl
@[simp] theorem verifyFinish_tlen (code : ErrCode) (s : State) : (verifyFinish code s).tlen = s.tlen := rfl
@[simp] theorem verifyFinish_labelLen (code : ErrCode) (s : State) : (verifyFinish code s).labelLen = s.labelLen := rfl
@[simp] theorem verifyFinish_eLen (code : ErrCode) (s : State) : (verifyFinish code s).eLen = s.eLen := rfl
@[simp] theorem verifyFinish_outLen (code : ErrCode) (s : State) : (verifyFinish code s).outLen = s.outLen := rfl
@[simp] theorem verifyFinish_signIter (code : ErrCode) (s : State) : (verifyFinish code s).signIter = s.signIter := rfl
@[simp] theorem verifyFinish_mem (code : ErrCode) (s : State) : (verifyFinish code s).mem = s.mem := rfl
@[simp] theorem verifyFinish_phase (code : ErrCode) (s : State) : (verifyFinish code s).phase = .idle := rfl
@[simp] theorem verifyFinish_w (code : ErrCode) (s : State) : (verifyFinish code s).w = Working.zero := rfl
@[simp] theorem verifyFinish_inputs (code : ErrCode) (s : State) : (verifyFinish code s).inputs = s.inputs := rfl
@[simp] theorem verifyFinish_bus (code : ErrCode) (s : State) : (verifyFinish code s).bus = s.bus := rfl
@[simp] theorem verifyFinish_draws (code : ErrCode) (s : State) : (verifyFinish code s).draws = s.draws := rfl

@[simp] theorem mgf1Finish_cfg (code : ErrCode) (b : List Byte) (s : State) : (mgf1Finish code b s).cfg = s.cfg := by
  simp [mgf1Finish, finish]
@[simp] theorem mgf1Finish_ctrl (code : ErrCode) (b : List Byte) (s : State) : (mgf1Finish code b s).ctrl = s.ctrl := by
  simp [mgf1Finish, finish]
@[simp] theorem mgf1Finish_done (code : ErrCode) (b : List Byte) (s : State) : (mgf1Finish code b s).done = true := rfl
@[simp] theorem mgf1Finish_valid (code : ErrCode) (b : List Byte) (s : State) : (mgf1Finish code b s).valid = (s.ctrl.cmd == 2 && code == .ok) := by
  simp [mgf1Finish, finish]
@[simp] theorem mgf1Finish_werr (code : ErrCode) (b : List Byte) (s : State) : (mgf1Finish code b s).werr = s.werr := by
  simp [mgf1Finish, finish]
@[simp] theorem mgf1Finish_err (code : ErrCode) (b : List Byte) (s : State) : (mgf1Finish code b s).err = code := by
  simp [mgf1Finish, finish]
@[simp] theorem mgf1Finish_irqEn (code : ErrCode) (b : List Byte) (s : State) : (mgf1Finish code b s).irqEn = s.irqEn := by
  simp [mgf1Finish, finish]
@[simp] theorem mgf1Finish_inLen (code : ErrCode) (b : List Byte) (s : State) : (mgf1Finish code b s).inLen = s.inLen := by
  simp [mgf1Finish, finish]
@[simp] theorem mgf1Finish_tlen (code : ErrCode) (b : List Byte) (s : State) : (mgf1Finish code b s).tlen = s.tlen := by
  simp [mgf1Finish, finish]
@[simp] theorem mgf1Finish_labelLen (code : ErrCode) (b : List Byte) (s : State) : (mgf1Finish code b s).labelLen = s.labelLen := by
  simp [mgf1Finish, finish]
@[simp] theorem mgf1Finish_eLen (code : ErrCode) (b : List Byte) (s : State) : (mgf1Finish code b s).eLen = s.eLen := by
  simp [mgf1Finish, finish]
@[simp] theorem mgf1Finish_signIter (code : ErrCode) (b : List Byte) (s : State) : (mgf1Finish code b s).signIter = s.signIter := by
  simp [mgf1Finish, finish]
@[simp] theorem mgf1Finish_phase (code : ErrCode) (b : List Byte) (s : State) : (mgf1Finish code b s).phase = .idle := rfl
@[simp] theorem mgf1Finish_w (code : ErrCode) (b : List Byte) (s : State) : (mgf1Finish code b s).w = Working.zero := rfl
@[simp] theorem mgf1Finish_inputs (code : ErrCode) (b : List Byte) (s : State) : (mgf1Finish code b s).inputs = s.inputs := by
  simp [mgf1Finish, finish]
@[simp] theorem mgf1Finish_bus (code : ErrCode) (b : List Byte) (s : State) : (mgf1Finish code b s).bus = s.bus := by
  simp [mgf1Finish, finish]
@[simp] theorem mgf1Finish_draws (code : ErrCode) (b : List Byte) (s : State) : (mgf1Finish code b s).draws = s.draws := by
  simp [mgf1Finish, finish]

@[simp] theorem encFinish_cfg (code : ErrCode) (b : List Byte) (s : State) : (encFinish code b s).cfg = s.cfg := by
  simp [encFinish, finish]
@[simp] theorem encFinish_ctrl (code : ErrCode) (b : List Byte) (s : State) : (encFinish code b s).ctrl = s.ctrl := by
  simp [encFinish, finish]
@[simp] theorem encFinish_done (code : ErrCode) (b : List Byte) (s : State) : (encFinish code b s).done = true := rfl
@[simp] theorem encFinish_valid (code : ErrCode) (b : List Byte) (s : State) : (encFinish code b s).valid = (s.ctrl.cmd == 2 && code == .ok) := by
  simp [encFinish, finish]
@[simp] theorem encFinish_werr (code : ErrCode) (b : List Byte) (s : State) : (encFinish code b s).werr = s.werr := by
  simp [encFinish, finish]
@[simp] theorem encFinish_err (code : ErrCode) (b : List Byte) (s : State) : (encFinish code b s).err = code := by
  simp [encFinish, finish]
@[simp] theorem encFinish_irqEn (code : ErrCode) (b : List Byte) (s : State) : (encFinish code b s).irqEn = s.irqEn := by
  simp [encFinish, finish]
@[simp] theorem encFinish_inLen (code : ErrCode) (b : List Byte) (s : State) : (encFinish code b s).inLen = s.inLen := by
  simp [encFinish, finish]
@[simp] theorem encFinish_tlen (code : ErrCode) (b : List Byte) (s : State) : (encFinish code b s).tlen = s.tlen := by
  simp [encFinish, finish]
@[simp] theorem encFinish_labelLen (code : ErrCode) (b : List Byte) (s : State) : (encFinish code b s).labelLen = s.labelLen := by
  simp [encFinish, finish]
@[simp] theorem encFinish_eLen (code : ErrCode) (b : List Byte) (s : State) : (encFinish code b s).eLen = s.eLen := by
  simp [encFinish, finish]
@[simp] theorem encFinish_signIter (code : ErrCode) (b : List Byte) (s : State) : (encFinish code b s).signIter = s.signIter := by
  simp [encFinish, finish]
@[simp] theorem encFinish_phase (code : ErrCode) (b : List Byte) (s : State) : (encFinish code b s).phase = .idle := rfl
@[simp] theorem encFinish_w (code : ErrCode) (b : List Byte) (s : State) : (encFinish code b s).w = Working.zero := rfl
@[simp] theorem encFinish_inputs (code : ErrCode) (b : List Byte) (s : State) : (encFinish code b s).inputs = s.inputs := by
  simp [encFinish, finish]
@[simp] theorem encFinish_bus (code : ErrCode) (b : List Byte) (s : State) : (encFinish code b s).bus = s.bus := by
  simp [encFinish, finish]
@[simp] theorem encFinish_draws (code : ErrCode) (b : List Byte) (s : State) : (encFinish code b s).draws = s.draws := by
  simp [encFinish, finish]

@[simp] theorem decFinish_cfg (code : ErrCode) (b : List Byte) (s : State) : (decFinish code b s).cfg = s.cfg := by
  simp [decFinish, finish]
@[simp] theorem decFinish_ctrl (code : ErrCode) (b : List Byte) (s : State) : (decFinish code b s).ctrl = s.ctrl := by
  simp [decFinish, finish]
@[simp] theorem decFinish_done (code : ErrCode) (b : List Byte) (s : State) : (decFinish code b s).done = true := rfl
@[simp] theorem decFinish_valid (code : ErrCode) (b : List Byte) (s : State) : (decFinish code b s).valid = (s.ctrl.cmd == 2 && code == .ok) := by
  simp [decFinish, finish]
@[simp] theorem decFinish_werr (code : ErrCode) (b : List Byte) (s : State) : (decFinish code b s).werr = s.werr := by
  simp [decFinish, finish]
@[simp] theorem decFinish_err (code : ErrCode) (b : List Byte) (s : State) : (decFinish code b s).err = code := by
  simp [decFinish, finish]
@[simp] theorem decFinish_irqEn (code : ErrCode) (b : List Byte) (s : State) : (decFinish code b s).irqEn = s.irqEn := by
  simp [decFinish, finish]
@[simp] theorem decFinish_inLen (code : ErrCode) (b : List Byte) (s : State) : (decFinish code b s).inLen = s.inLen := by
  simp [decFinish, finish]
@[simp] theorem decFinish_tlen (code : ErrCode) (b : List Byte) (s : State) : (decFinish code b s).tlen = s.tlen := by
  simp [decFinish, finish]
@[simp] theorem decFinish_labelLen (code : ErrCode) (b : List Byte) (s : State) : (decFinish code b s).labelLen = s.labelLen := by
  simp [decFinish, finish]
@[simp] theorem decFinish_eLen (code : ErrCode) (b : List Byte) (s : State) : (decFinish code b s).eLen = s.eLen := by
  simp [decFinish, finish]
@[simp] theorem decFinish_signIter (code : ErrCode) (b : List Byte) (s : State) : (decFinish code b s).signIter = s.signIter := by
  simp [decFinish, finish]
@[simp] theorem decFinish_phase (code : ErrCode) (b : List Byte) (s : State) : (decFinish code b s).phase = .idle := rfl
@[simp] theorem decFinish_w (code : ErrCode) (b : List Byte) (s : State) : (decFinish code b s).w = Working.zero := rfl
@[simp] theorem decFinish_inputs (code : ErrCode) (b : List Byte) (s : State) : (decFinish code b s).inputs = s.inputs := by
  simp [decFinish, finish]
@[simp] theorem decFinish_bus (code : ErrCode) (b : List Byte) (s : State) : (decFinish code b s).bus = s.bus := by
  simp [decFinish, finish]
@[simp] theorem decFinish_draws (code : ErrCode) (b : List Byte) (s : State) : (decFinish code b s).draws = s.draws := by
  simp [decFinish, finish]

end Sys2Proof.Machine
end

