-- ==== Sys2Proof/Laws/Ops.lean ====
section
/-! SUPPORT. For each shared operation, what it can do, said once: the provider calls, the block step, the windows, the
completion. -/

namespace Sys2Proof.Machine

open Sys2Proof.Config

/-! ### Draws and provider calls: each consumes draws and changes nothing else -/

@[simp] theorem drawBytes_length (L : Nat) (d : Draws) : (drawBytes L d).1.length = L := by
  induction L generalizing d with
  | zero => rfl
  | succ L ih => simp [drawBytes, ih]

/-- A provider call that fails, or has no answer. -/
theorem afterCall_none {α : Type} {v : Option α} {s : State} (h : s.callFails = true ∨ v = none)
    (fail : State → State) (k : α → State → State) : afterCall (callProvider v s) fail k = fail s.drawn := by
  unfold afterCall callProvider
  rcases h with h | h
  · simp [h]
  · simp [h]

/-- A provider call that is answered. -/
theorem afterCall_some {α : Type} {v : Option α} {a : α} {s : State} (h : s.callFails = false) (hv : v = some a)
    (fail : State → State) (k : α → State → State) : afterCall (callProvider v s) fail k = k a s.drawn := by
  simp [afterCall, callProvider, h, hv]

/-- Those are the two things a provider call can do: it consumes the draw of its failure and changes nothing else. -/
theorem callProvider_cases {α : Type} (v : Option α) (s : State) :
    (s.callFails = true ∨ v = none) ∨ (s.callFails = false ∧ ∃ a, v = some a) := by
  cases s.callFails <;> cases v <;> simp

/-- `RngRange` that fails. -/
theorem afterCall_range_none {s : State} (h : s.callFails = true) (fail : State → State) (k : Nat → State → State) :
    afterCall (callRange s) fail k = fail s.drawn := by simp [afterCall, callRange, h]

/-- `RngRange` that is answered, by any integer. -/
theorem afterCall_range_some {s : State} (h : s.callFails = false) (fail : State → State)
    (k : Nat → State → State) :
    afterCall (callRange s) fail k =
      k (drawRange s.drawn.draws).1 (s.drawn.setDraws (drawRange s.drawn.draws).2) := by
  simp [afterCall, callRange, h]

/-- `RngBytes` that fails. -/
theorem afterCall_bytes_none {L : Nat} {s : State} (h : s.callFails = true) (fail : State → State)
    (k : List Byte → State → State) : afterCall (callBytes L s) fail k = fail s.drawn := by
  simp [afterCall, callBytes, h]

/-- `RngBytes` that is answered, by any L bytes. -/
theorem afterCall_bytes_some {L : Nat} {s : State} (h : s.callFails = false) (fail : State → State)
    (k : List Byte → State → State) :
    afterCall (callBytes L s) fail k =
      k (drawBytes L s.drawn.draws).1 (s.drawn.setDraws (drawBytes L s.drawn.draws).2) := by
  simp [afterCall, callBytes, h]

/-- What a block step can do (R88): fail; use the finished mask, exactly L bytes, with w.out and w.i cleared; or append
one block and stay. -/
theorem blockStep_cases (src : List Byte) (L : Nat) (fail : State → State) (use : List Byte → State → State)
    (s : State) :
    ((s.callFails = true ∨ hashEntry s.cfg s.w.ms = none) ∧ blockStep src L fail use s = fail s.drawn) ∨
      ∃ alg, s.callFails = false ∧ hashEntry s.cfg s.w.ms = some alg ∧
        ((L ≤ s.w.out.length + alg.len ∧
            blockStep src L fail use s =
              use ((s.w.out ++ digest alg (src ++ be32 s.w.i)).take L)
                (s.drawn.setW { s.w with out := [], i := 0 })) ∨
          (s.w.out.length + alg.len < L ∧
            blockStep src L fail use s =
              s.drawn.setW { s.w with out := s.w.out ++ digest alg (src ++ be32 s.w.i), i := s.w.i + 1 })) := by
  unfold blockStep callHash
  cases he : hashEntry s.cfg s.w.ms with
  | none => exact .inl ⟨.inr rfl, afterCall_none (.inr rfl) _ _⟩
  | some alg =>
    cases hf : s.callFails with
    | true => exact .inl ⟨.inl rfl, afterCall_none (.inl hf) _ _⟩
    | false =>
      refine .inr ⟨alg, rfl, rfl, ?_⟩
      have hl : (s.w.out ++ digest alg (src ++ be32 s.w.i)).length = s.w.out.length + alg.len := by simp
      by_cases h : L ≤ s.w.out.length + alg.len
      · exact .inl ⟨h, (afterCall_some hf rfl _ _).trans (if_pos (by rw [State.drawn_w, hl]; exact h))⟩
      · exact .inr ⟨by omega, (afterCall_some hf rfl _ _).trans (if_neg (by rw [State.drawn_w, hl]; exact h))⟩

/-! ### Windows -/

theorem Win.capacity_le_span {cfg : Params} (h : cfg.WellFormed) (win : Win) : win.capacity cfg ≤ win.span := by
  have h1 := h.sb_le; have h2 := h.emax_le; have h3 := h.bmax_le; have h4 := h.lmax_le
  cases win <;> simp [Win.capacity, Win.span] <;> omega

/-- The windows' spans do not overlap (R40). -/
theorem Win.span_disjoint {v w : Win} (h : v ≠ w) : v.base + v.span ≤ w.base ∨ w.base + w.span ≤ v.base := by
  cases v <;> cases w <;> simp_all [Win.base, Win.span]

theorem winAt_of_mem {win : Win} {a : Nat} (h1 : win.base ≤ a) (h2 : a < win.base + win.span) :
    winAt a = some win := by
  unfold winAt
  cases win <;> simp only [Win.base, Win.span] at h1 h2 <;>
    simp (disch := omega) only [if_pos, if_neg]

theorem winAt_some {win : Win} {a : Nat} (h : winAt a = some win) : win.base ≤ a ∧ a < win.base + win.span := by
  unfold winAt at h
  repeat' split at h
  all_goals cases h <;> simp [Win.base, Win.span] <;> omega

/-- A byte is storage exactly when it lies in some window below its capacity (R40). -/
theorem isStorage_iff {cfg : Params} (hc : cfg.WellFormed) {a : Nat} :
    isStorage cfg a = true ↔ ∃ win : Win, win.base ≤ a ∧ a < win.base + win.capacity cfg := by
  constructor
  · intro h
    unfold isStorage at h
    split at h
    · rename_i win hw
      exact ⟨win, (winAt_some hw).1, by simpa using h⟩
    · cases h
  · rintro ⟨win, h1, h2⟩
    have := Win.capacity_le_span hc win
    simp [isStorage, winAt_of_mem h1 (by omega), h2]

@[simp] theorem State.winBytes_length (s : State) (win : Win) (n : Nat) : (s.winBytes win n).length = n := by
  simp [State.winBytes]

/-- The canonical form survives the filling of a window. -/
theorem State.fillWin_wf {s : State} (hm : Memory.wf s.mem = true) (win : Win) (b : List Byte) :
    Memory.wf (s.fillWin win b).mem = true := writeBytes_wf hm _ _

/-- Every byte after a window was filled: the string padded with zeros inside its storage, the old byte outside it. -/
theorem State.readByte_fillWin {s : State} (hm : Memory.wf s.mem = true) (win : Win) (b : List Byte) (x : Nat) :
    readByte (s.fillWin win b).mem x =
      if win.base ≤ x ∧ x < win.base + win.capacity s.cfg then (padTo (win.capacity s.cfg) b).getD (x - win.base) 0
      else readByte s.mem x := by
  rw [State.fillWin_mem, readByte_writeBytes hm, padTo_length]

/-- A filled window read back whole. -/
theorem State.winBytes_fillWin {s : State} (hm : Memory.wf s.mem = true) (win : Win) (b : List Byte) :
    (s.fillWin win b).winBytes win (win.capacity s.cfg) = padTo (win.capacity s.cfg) b := by
  have := readBytes_writeBytes hm win.base (padTo (win.capacity s.cfg) b)
  rwa [padTo_length] at this

/-- Filling a window leaves every other window's bytes. -/
theorem State.winBytes_fillWin_other {s : State} (hc : s.cfg.WellFormed) (hm : Memory.wf s.mem = true)
    {v win : Win} (h : v ≠ win) (b : List Byte) {n : Nat} (hn : n ≤ v.span) :
    (s.fillWin win b).winBytes v n = s.winBytes v n := by
  apply readBytes_writeBytes_disjoint hm
  rw [padTo_length]
  have := Win.span_disjoint h
  have := Win.capacity_le_span hc win
  omega

/-- A filled scalar window holds the value written (R43). -/
theorem scalar_fillWin {s : State} (hm : Memory.wf s.mem = true) {win : Win} (hw : win.capacity s.cfg = s.cfg.sb)
    {v : Nat} (hv : v < 256 ^ s.cfg.sb) : scalar (s.fillWin win (i2be s.cfg.sb v)) win = v := by
  have h := State.winBytes_fillWin hm win (i2be s.cfg.sb v)
  rw [hw, padTo_exact (i2be_length _ _)] at h
  rw [scalar, State.fillWin_cfg, h, beNat_i2be hv]

/-! ### Completion -/

/-- What every completion does to every field, given what the command's own writes do (R115). -/
theorem finish_eq (code : ErrCode) (g : State → State) (s : State) :
    finish code g s =
      { g { s with err := code, valid := s.ctrl.cmd == 2 && code == .ok } with
        w := Working.zero, phase := .idle, done := true } := rfl

/-- A command word at a state does one of three things (R37, R57, R58). -/
theorem command_cases (cmd hsel msel : Sel) (f : State → Result) (s : State) :
    (s.phase = .idle ∧ command cmd hsel msel f s = .next (accept cmd hsel msel s)) ∨
      (s.phase ≠ .idle ∧ s.ctrl = { cmd := cmd, hsel := hsel, msel := msel } ∧ command cmd hsel msel f s = f s) ∨
      (s.phase ≠ .idle ∧ s.ctrl ≠ { cmd := cmd, hsel := hsel, msel := msel } ∧
        command cmd hsel msel f s = .next (turnAway s)) := by
  unfold command
  by_cases h : s.phase = .idle
  · exact .inl ⟨h, by rw [if_pos h]⟩
  · by_cases h' : s.ctrl = { cmd := cmd, hsel := hsel, msel := msel }
    · exact .inr (.inl ⟨h, h', by rw [if_neg h, if_pos h']⟩)
    · exact .inr (.inr ⟨h, h', by rw [if_neg h, if_neg h']⟩)

end Sys2Proof.Machine
end

