-- ==== Sys2Proof/Laws/Phases.lean ====
section
/-! SUPPORT. For each phase of each command, everything its step can do, said once. -/

namespace Sys2Proof.Machine

open Sys2Proof.Config

/-! ### SM2_SIGN -/

theorem signCheck_cases (s : State) :
    (s.cfg.emax < s.eLen.toNat ∧ signCheck s = signFinish .alloc s) ∨
      (s.eLen.toNat ≤ s.cfg.emax ∧
        ((s.callFails = true ∧ signCheck s = signFinish .arith s.drawn) ∨
          (s.callFails = false ∧ 1 ≤ scalar s .da ∧ scalar s .da + 2 ≤ s.cfg.curve.order ∧
            signCheck s = (s.drawn.setW { s.w with n := s.cfg.curve.order, e := scalarE s }).goto .sDraw) ∨
          (s.callFails = false ∧ ¬ (1 ≤ scalar s .da ∧ scalar s .da + 2 ≤ s.cfg.curve.order) ∧
            signCheck s = signFinish .arith (s.drawn.setW { s.w with n := s.cfg.curve.order, e := scalarE s })))) := by
  unfold signCheck callOrder
  by_cases h : s.cfg.emax < s.eLen.toNat
  · exact .inl ⟨h, if_pos h⟩
  · refine .inr ⟨by omega, ?_⟩
    rw [if_neg h]
    cases hf : s.callFails with
    | true => exact .inl ⟨rfl, afterCall_none (.inl hf) _ _⟩
    | false =>
      rw [afterCall_some hf rfl]
      have hd : scalar s.drawn .da = scalar s .da := rfl
      by_cases hr : 1 ≤ scalar s .da ∧ scalar s .da + 2 ≤ s.cfg.curve.order
      · exact .inr (.inl ⟨rfl, hr.1, hr.2, if_pos (by rw [hd]; omega)⟩)
      · exact .inr (.inr ⟨rfl, hr, if_neg (by rw [hd]; omega)⟩)

theorem signDraw_cases (s : State) :
    (s.callFails = true ∧ signDraw s = signFinish .rng { s.drawn with signIter := s.signIter + 1 }) ∨
      (s.callFails = false ∧ ∃ k d, (k, d) = drawRange s.drawn.draws ∧
        ((s.w.n ≤ k ∧ signDraw s = signFinish .rng { s.setDraws d with signIter := s.signIter + 1 }) ∨
          (k < s.w.n ∧ k = 0 ∧ signDraw s = { s.setDraws d with signIter := s.signIter + 1 }.goto .sDraw) ∨
          (k < s.w.n ∧ k ≠ 0 ∧
            signDraw s =
              ({ s.setDraws d with signIter := s.signIter + 1 }.setW { s.w with k := k }).goto .sMulg))) := by
  unfold signDraw
  have hs : State.callFails { s with signIter := s.signIter + 1 } = s.callFails := rfl
  cases hf : s.callFails with
  | true => exact .inl ⟨rfl, afterCall_range_none (hs.trans hf) _ _⟩
  | false =>
    refine .inr ⟨rfl, _, _, rfl, ?_⟩
    rw [afterCall_range_some (hs.trans hf)]
    by_cases h1 : s.w.n ≤ (drawRange s.drawn.draws).1
    · exact .inl ⟨h1, if_pos h1⟩
    · by_cases h2 : (drawRange s.drawn.draws).1 = 0
      · exact .inr (.inl ⟨Nat.lt_of_not_le h1, h2, (if_neg h1).trans (if_pos h2)⟩)
      · exact .inr (.inr ⟨Nat.lt_of_not_le h1, h2, (if_neg h1).trans (if_neg h2)⟩)

theorem signMulg_cases (s : State) :
    ((s.callFails = true ∨ ecMulG s.cfg.curve s.w.k = none) ∧ signMulg s = signFinish .arith s.drawn) ∨
      (s.callFails = false ∧ ∃ x1, ecMulG s.cfg.curve s.w.k = some x1 ∧
        signMulg s = (s.drawn.setW { s.w with x1 := x1 }).goto .sRs) := by
  unfold signMulg callMulG
  rcases callProvider_cases (ecMulG s.cfg.curve s.w.k) s with h | ⟨h, a, ha⟩
  · exact .inl ⟨h, afterCall_none h _ _⟩
  · exact .inr ⟨h, a, ha, afterCall_some h ha _ _⟩

/-- S_RS: with r := (e + x1) mod n and, past the two rejections of r, s as `signS` gives it. -/
theorem signRs_cases (s : State) :
    (s.callFails = true ∧ signRs s = signFinish .arith s.drawn) ∨
      (s.callFails = false ∧ ∃ r, r = (s.w.e + s.w.x1) % s.w.n ∧
        (((r = 0 ∨ r + s.w.k = s.w.n) ∧ signRs s = (s.drawn.setW { s.w with r := r }).goto .sDraw) ∨
          (r ≠ 0 ∧ r + s.w.k ≠ s.w.n ∧
            (((s.drawn.callFails = true ∨ signS s.w.n (scalar s .da) s.w.k r = none) ∧
                signRs s = signFinish .arith (s.drawn.drawn.setW { s.w with r := r })) ∨
              (s.drawn.callFails = false ∧ ∃ sv, signS s.w.n (scalar s .da) s.w.k r = some sv ∧
                ((sv = 0 ∧ signRs s = (s.drawn.drawn.setW { s.w with r := r, s := sv }).goto .sDraw) ∨
                  (sv ≠ 0 ∧ signRs s = signFinish .ok (s.drawn.drawn.setW { s.w with r := r, s := sv })))))))) := by
  unfold signRs callModOp
  cases hf : s.callFails with
  | true => exact .inl ⟨rfl, afterCall_none (.inl hf) _ _⟩
  | false =>
    refine .inr ⟨rfl, _, rfl, ?_⟩
    rw [afterCall_some hf rfl]
    generalize (s.w.e + s.w.x1) % s.w.n = r
    by_cases h1 : r = 0
    · exact .inl ⟨.inl h1, if_pos h1⟩
    by_cases h2 : r + s.w.k = s.w.n
    · exact .inl ⟨.inr h2, (if_neg h1).trans (if_pos h2)⟩
    refine .inr ⟨h1, h2, ?_⟩
    have skip : ∀ a b c : State, (if r = 0 then a else if r + s.w.k = s.w.n then b else c) = c :=
      fun a b c => by rw [if_neg h1, if_neg h2]
    rcases callProvider_cases (signS s.w.n (scalar s .da) s.w.k r) (s.drawn.setW { s.w with r := r }) with
      h | ⟨h, sv, hv⟩
    · exact .inl ⟨h, (skip _ _ _).trans (afterCall_none h _ _)⟩
    · refine .inr ⟨h, sv, hv, ?_⟩
      by_cases h3 : sv = 0
      · exact .inl ⟨h3, (skip _ _ _).trans ((afterCall_some h hv _ _).trans (if_pos h3))⟩
      · exact .inr ⟨h3, (skip _ _ _).trans ((afterCall_some h hv _ _).trans (if_neg h3))⟩

/-! ### SM2_VERIFY -/

theorem verifyCheck_cases (s : State) :
    (s.cfg.emax < s.eLen.toNat ∧ verifyCheck s = verifyFinish .alloc s) ∨
      (s.eLen.toNat ≤ s.cfg.emax ∧
        ((s.callFails = true ∧ verifyCheck s = verifyFinish .arith s.drawn) ∨
          (s.callFails = false ∧
            verifyCheck s =
              (s.drawn.setW
                { s.w with n := s.cfg.curve.order, e := scalarE s, r := scalar s .r, s := scalar s .s }).goto
                .vRange))) := by
  unfold verifyCheck callOrder
  by_cases h : s.cfg.emax < s.eLen.toNat
  · exact .inl ⟨h, if_pos h⟩
  · refine .inr ⟨by omega, ?_⟩
    rw [if_neg h]
    cases hf : s.callFails with
    | true => exact .inl ⟨rfl, afterCall_none (.inl hf) _ _⟩
    | false => exact .inr ⟨rfl, afterCall_some hf rfl _ _⟩

theorem inRange_iff (v n : Nat) : inRange v n = true ↔ 1 ≤ v ∧ v < n := by
  simp [inRange]

theorem verifyRange_cases (s : State) :
    (¬ (1 ≤ s.w.r ∧ s.w.r < s.w.n ∧ 1 ≤ s.w.s ∧ s.w.s < s.w.n) ∧ verifyRange s = verifyFinish .invalidSig s) ∨
      ((1 ≤ s.w.r ∧ s.w.r < s.w.n ∧ 1 ≤ s.w.s ∧ s.w.s < s.w.n) ∧
        ((s.callFails = true ∧ verifyRange s = verifyFinish .arith s.drawn) ∨
          (s.callFails = false ∧ ∃ t, t = (s.w.r + s.w.s) % s.w.n ∧
            ((t = 0 ∧ verifyRange s = verifyFinish .invalidSig (s.drawn.setW { s.w with t := t })) ∨
              (t ≠ 0 ∧ verifyRange s = (s.drawn.setW { s.w with t := t }).goto .vMul))))) := by
  unfold verifyRange callModOp
  cases h1 : inRange s.w.r s.w.n
  · have := mt (inRange_iff s.w.r s.w.n).2 (by simp [h1])
    exact .inl ⟨by omega, rfl⟩
  cases h2 : inRange s.w.s s.w.n
  · have := mt (inRange_iff s.w.s s.w.n).2 (by simp [h2])
    exact .inl ⟨by omega, rfl⟩
  have a := (inRange_iff s.w.r s.w.n).1 h1
  have b := (inRange_iff s.w.s s.w.n).1 h2
  refine .inr ⟨by omega, ?_⟩
  simp only [Bool.not_true, Bool.false_eq_true, ↓reduceIte]
  cases hf : s.callFails with
  | true => exact .inl ⟨rfl, afterCall_none (.inl hf) _ _⟩
  | false =>
    refine .inr ⟨rfl, _, rfl, ?_⟩
    rw [afterCall_some hf rfl]
    by_cases ht : (s.w.r + s.w.s) % s.w.n = 0
    · exact .inl ⟨ht, if_pos ht⟩
    · exact .inr ⟨ht, if_neg ht⟩

theorem verifyMul_cases (s : State) :
    ((s.callFails = true ∨ ecMul2 s.cfg.curve s.w.s s.w.t (scalar s .paX, scalar s .paY) = none) ∧
        verifyMul s = verifyFinish .arith s.drawn) ∨
      (s.callFails = false ∧
        ((ecMul2 s.cfg.curve s.w.s s.w.t (scalar s .paX, scalar s .paY) = some .inf ∧
            verifyMul s = verifyFinish .invalidSig s.drawn) ∨
          ∃ x1, ecMul2 s.cfg.curve s.w.s s.w.t (scalar s .paX, scalar s .paY) = some (.affine x1) ∧
            verifyMul s = (s.drawn.setW { s.w with x1 := x1 }).goto .vCmp)) := by
  unfold verifyMul callMul2
  rcases callProvider_cases (ecMul2 s.cfg.curve s.w.s s.w.t (scalar s .paX, scalar s .paY)) s with h | ⟨h, a, ha⟩
  · exact .inl ⟨h, afterCall_none h _ _⟩
  · refine .inr ⟨h, ?_⟩
    rw [afterCall_some h ha]
    cases a with
    | inf => exact .inl ⟨ha, rfl⟩
    | affine x => exact .inr ⟨x, ha, rfl⟩

theorem verifyCmp_cases (s : State) :
    (s.callFails = true ∧ verifyCmp s = verifyFinish .arith s.drawn) ∨
      (s.callFails = false ∧
        (((s.w.e + s.w.x1) % s.w.n = s.w.r ∧ verifyCmp s = verifyFinish .ok s.drawn) ∨
          ((s.w.e + s.w.x1) % s.w.n ≠ s.w.r ∧ verifyCmp s = verifyFinish .invalidSig s.drawn))) := by
  unfold verifyCmp callModOp
  cases hf : s.callFails with
  | true => exact .inl ⟨rfl, afterCall_none (.inl hf) _ _⟩
  | false =>
    refine .inr ⟨rfl, ?_⟩
    rw [afterCall_some hf rfl]
    by_cases h : (s.w.e + s.w.x1) % s.w.n = s.w.r
    · exact .inl ⟨h, if_pos h⟩
    · exact .inr ⟨h, if_neg h⟩

/-! ### MGF1 and OAEP: the phases that call the hash or the random provider once -/

theorem encLhash_cases (s : State) :
    ((s.callFails = true ∨ hashEntry s.cfg s.w.hs = none) ∧ encLhash s = encFinish .arith [] s.drawn) ∨
      (s.callFails = false ∧ ∃ alg, hashEntry s.cfg s.w.hs = some alg ∧
        encLhash s =
          (s.drawn.setW
            { s.w with lhash := digest alg (labelBytes s), db := dataBlock s (digest alg (labelBytes s)) }).goto
            .eSeed) := by
  unfold encLhash callHash
  cases he : hashEntry s.cfg s.w.hs with
  | none => exact .inl ⟨.inr rfl, afterCall_none (.inr rfl) _ _⟩
  | some alg =>
    cases hf : s.callFails with
    | true => exact .inl ⟨.inl rfl, afterCall_none (.inl hf) _ _⟩
    | false => exact .inr ⟨rfl, alg, rfl, afterCall_some hf rfl _ _⟩

theorem encSeed_cases (s : State) :
    (s.callFails = true ∧ encSeed s = encFinish .rng [] s.drawn) ∨
      (s.callFails = false ∧ ∃ seed d, (seed, d) = drawBytes s.w.h s.drawn.draws ∧
        encSeed s = ((s.setDraws d).setW { s.w with seed := seed, out := [], i := 0 }).goto .eDbmask) := by
  unfold encSeed
  cases hf : s.callFails with
  | true => exact .inl ⟨rfl, afterCall_bytes_none hf _ _⟩
  | false => exact .inr ⟨rfl, _, _, rfl, afterCall_bytes_some hf _ _⟩

theorem decLhash_cases (s : State) :
    ((s.callFails = true ∨ hashEntry s.cfg s.w.hs = none) ∧ decLhash s = decFinish .arith [] s.drawn) ∨
      (s.callFails = false ∧ ∃ alg, hashEntry s.cfg s.w.hs = some alg ∧
        decLhash s =
          (s.drawn.setW
            { s.w with
              lhash := digest alg (labelBytes s)
              good := s.w.good && cteq (s.w.db.take s.w.h) (digest alg (labelBytes s)) }).goto .dScan) := by
  unfold decLhash callHash
  cases he : hashEntry s.cfg s.w.hs with
  | none => exact .inl ⟨.inr rfl, afterCall_none (.inr rfl) _ _⟩
  | some alg =>
    cases hf : s.callFails with
    | true => exact .inl ⟨.inl rfl, afterCall_none (.inl hf) _ _⟩
    | false => exact .inr ⟨rfl, alg, rfl, afterCall_some hf rfl _ _⟩

/-! ### CTEQ -/

theorem foldl_or_eq_zero (l : List Byte) (acc : Byte) :
    l.foldl (fun acc x => acc ||| x) acc = 0 ↔ acc = 0 ∧ ∀ x ∈ l, x = 0 := by
  induction l generalizing acc with
  | nil => simp
  | cons x l ih =>
    have hor : acc ||| x = 0 ↔ acc = 0 ∧ x = 0 := BitVec.or_eq_zero_iff
    rw [List.foldl_cons, ih, hor]
    simp only [List.mem_cons, forall_eq_or_imp, and_assoc]

theorem zipWith_xor_eq_zero {a b : List Byte} (h : a.length = b.length) :
    (∀ x ∈ List.zipWith (· ^^^ ·) a b, x = 0) ↔ a = b := by
  induction a generalizing b with
  | nil => cases b <;> simp_all
  | cons x a ih =>
    cases b with
    | nil => simp at h
    | cons y b =>
      have hx : x ^^^ y = 0 ↔ x = y := BitVec.xor_eq_zero_iff
      simp only [List.zipWith_cons_cons, List.mem_cons, forall_eq_or_imp, hx, ih (by simpa using h), List.cons.injEq]

/-- CTEQ is equality (R103). -/
theorem cteq_iff (a b : List Byte) : cteq a b = true ↔ a = b := by
  unfold cteq
  rw [Bool.and_eq_true, beq_iff_eq, beq_iff_eq, foldl_or_eq_zero]
  constructor
  · rintro ⟨hl, _, h⟩; exact (zipWith_xor_eq_zero hl).1 h
  · rintro rfl; exact ⟨rfl, rfl, (zipWith_xor_eq_zero rfl).2 rfl⟩

end Sys2Proof.Machine
end

