-- ==== Sys2Proof/Laws/Completions.lean ====
section
/-! SUPPORT. What the completion of each command does, in the terms of the statements: the common outcome, and the
command's own writes. The state it is compared with may differ from the completed one in draws, working registers and
SIGN_ITER. -/

namespace Sys2Proof.Machine

open Sys2Proof.Config

@[refl] theorem SameControl.rfl' (s : State) : SameControl s s := ⟨rfl, rfl, rfl, rfl, rfl, rfl, rfl, rfl, rfl, rfl⟩

theorem sameControl_drawn (s : State) : SameControl s s.drawn := ⟨rfl, rfl, rfl, rfl, rfl, rfl, rfl, rfl, rfl, rfl⟩

theorem finish_completes {s₀ s : State} {g : State → State} {code : ErrCode} (hc : SameControl s₀ s)
    (hg : ∀ u, SameControl u (g u) ∧ (g u).err = u.err ∧ (g u).valid = u.valid) :
    Completes s₀ (finish code g s) code := by
  obtain ⟨hs, he, hv⟩ := hg { s with err := code, valid := s.ctrl.cmd == 2 && code == .ok }
  refine ⟨⟨?_, ?_, ?_, ?_, ?_, ?_, ?_, ?_, ?_, ?_⟩, rfl, rfl, rfl, he, ?_⟩
  · exact hs.cfg.trans hc.cfg
  · exact hs.ctrl.trans hc.ctrl
  · exact hs.werr.trans hc.werr
  · exact hs.irqEn.trans hc.irqEn
  · exact hs.inLen.trans hc.inLen
  · exact hs.tlen.trans hc.tlen
  · exact hs.labelLen.trans hc.labelLen
  · exact hs.eLen.trans hc.eLen
  · exact hs.inputs.trans hc.inputs
  · exact hs.bus.trans hc.bus
  · rw [← hc.ctrl]; exact hv

theorem signFinish_completes {s₀ s : State} (code : ErrCode) (hc : SameControl s₀ s) :
    Completes s₀ (signFinish code s) code :=
  finish_completes hc fun u => ⟨⟨by simp, by simp, by simp, by simp, by simp, by simp, by simp, by simp, by simp, by simp⟩, by simp, by simp⟩

theorem verifyFinish_completes {s₀ s : State} (code : ErrCode) (hc : SameControl s₀ s) :
    Completes s₀ (verifyFinish code s) code := finish_completes hc fun u => ⟨.rfl' u, rfl, rfl⟩

theorem outputFinish_completes {s₀ s : State} (code : ErrCode) (b : List Byte) (hc : SameControl s₀ s) :
    Completes s₀ (finish code (outputWrites code b) s) code :=
  finish_completes hc fun u => ⟨⟨by simp, by simp, by simp, by simp, by simp, by simp, by simp, by simp, by simp, by simp⟩, by simp, by simp⟩

theorem mgf1Finish_completes {s₀ s : State} (code : ErrCode) (b : List Byte) (hc : SameControl s₀ s) :
    Completes s₀ (mgf1Finish code b s) code := outputFinish_completes code b hc

theorem encFinish_completes {s₀ s : State} (code : ErrCode) (b : List Byte) (hc : SameControl s₀ s) :
    Completes s₀ (encFinish code b s) code := outputFinish_completes code b hc

theorem decFinish_completes {s₀ s : State} (code : ErrCode) (b : List Byte) (hc : SameControl s₀ s) :
    Completes s₀ (decFinish code b s) code := outputFinish_completes code b hc

/-- The memory after a completion with an output. -/
theorem outputFinish_mem (code : ErrCode) (b : List Byte) (s : State) :
    (finish code (outputWrites code b) s).mem = (s.fillWin .outBuf (if code = .ok then b else [])).mem := by
  unfold finish outputWrites
  split <;> rfl

/-- The output of a completion, with any code. -/
theorem outputFinish_writes {s₀ s : State} {code : ErrCode} {b b' : List Byte} (hb' : b' = if code = .ok then b else [])
    (hw : Memory.wf s.mem = true) (hcfg : s.cfg = s₀.cfg) (hm : s.mem = s₀.mem) (hi : s.signIter = s₀.signIter)
    (hb : b'.length ≤ s.cfg.bmax) (h16 : b'.length < 2 ^ 16) :
    WritesOutput s₀ (finish code (outputWrites code b) s) b' where
  buffer := by
    have h := State.winBytes_fillWin (s := s) hw .outBuf b'
    rw [padTo_of_le (by exact hb), hcfg] at h
    rw [State.winBytes, outputFinish_mem, ← hb']
    exact h
  length := by
    have h : (finish code (outputWrites code b) s).outLen = BitVec.ofNat 16 b'.length := by
      unfold finish outputWrites
      rw [hb']
      split <;> rfl
    rw [h, BitVec.toNat_ofNat]
    omega
  bytes := by
    intro a ha
    have ha' := ha .outBuf (by simp)
    rw [← hcfg] at ha'
    rw [outputFinish_mem, State.readByte_fillWin hw, if_neg ha', hm]
  signIter := by rw [← hi]; simp [finish]

/-- The output of a completion with OK. -/
theorem outputFinish_writes_ok {s₀ s : State} {b : List Byte} (hw : Memory.wf s.mem = true) (hcfg : s.cfg = s₀.cfg)
    (hm : s.mem = s₀.mem) (hi : s.signIter = s₀.signIter) (hb : b.length ≤ s.cfg.bmax) (h16 : b.length < 2 ^ 16) :
    WritesOutput s₀ (finish .ok (outputWrites .ok b) s) b := outputFinish_writes rfl hw hcfg hm hi hb h16

/-- The output of a completion with any other code. -/
theorem outputFinish_writes_fail {s₀ s : State} {code : ErrCode} (b : List Byte) (hw : Memory.wf s.mem = true)
    (hcfg : s.cfg = s₀.cfg) (hm : s.mem = s₀.mem) (hi : s.signIter = s₀.signIter) (hcode : code ≠ .ok) :
    WritesOutput s₀ (finish code (outputWrites code b) s) [] :=
  outputFinish_writes (if_neg hcode).symm hw hcfg hm hi (Nat.zero_le _) (by simp)

/-- A scalar window filled with zeros holds 0. -/
theorem scalar_clear {s : State} (hm : Memory.wf s.mem = true) {win : Win} (hw : win.capacity s.cfg = s.cfg.sb) :
    scalar (s.fillWin win []) win = 0 := by
  have h := State.winBytes_fillWin hm win []
  rw [hw, padTo_nil] at h
  rw [scalar, State.fillWin_cfg, h, beNat_zeros]

/-- Filling another window leaves a scalar. -/
theorem scalar_fillWin_other {s : State} (hc : s.cfg.WellFormed) (hm : Memory.wf s.mem = true) {v win : Win}
    (h : v ≠ win) (hv : v.capacity s.cfg = s.cfg.sb) (b : List Byte) : scalar (s.fillWin win b) v = scalar s v := by
  have := Win.capacity_le_span hc v
  rw [scalar, State.fillWin_cfg, State.winBytes_fillWin_other hc hm h b (by omega), scalar]

/-- The bytes outside the three windows of a signature. -/
theorem readByte_signature {s : State} (hm : Memory.wf s.mem = true) (b c : List Byte) (a : Nat)
    (ha : ∀ win ∈ [Win.r, .s, .da], ¬ (win.base ≤ a ∧ a < win.base + win.capacity s.cfg)) :
    readByte (((s.fillWin .r b).fillWin .s c).fillWin .da []).mem a = readByte s.mem a := by
  have h1 := State.fillWin_wf hm .r b
  have h2 := State.fillWin_wf h1 .s c
  have e1 := State.readByte_fillWin hm .r b a
  have e2 := State.readByte_fillWin h1 .s c a
  have e3 := State.readByte_fillWin h2 .da [] a
  rw [if_neg (by exact ha _ (by simp))] at e1 e2 e3
  rw [e3, e2, e1]

/-- The scalars of the three windows of a signature. -/
theorem scalar_signature {s : State} (hc : s.cfg.WellFormed) (hm : Memory.wf s.mem = true) (b c : List Byte)
    (u : State) (hu : u = ((s.fillWin .r b).fillWin .s c).fillWin .da []) :
    scalar u .r = scalar (s.fillWin .r b) .r ∧ scalar u .s = scalar ((s.fillWin .r b).fillWin .s c) .s ∧
      scalar u .da = 0 := by
  subst hu
  have h1 := State.fillWin_wf hm .r b
  have h2 := State.fillWin_wf h1 .s c
  have e1 := scalar_fillWin_other (s := s.fillWin .r b) hc h1 (v := .r) (win := .s) (by decide) rfl c
  have e2 := scalar_fillWin_other (s := (s.fillWin .r b).fillWin .s c) hc h2 (v := .r) (win := .da) (by decide) rfl []
  have e3 := scalar_fillWin_other (s := (s.fillWin .r b).fillWin .s c) hc h2 (v := .s) (win := .da) (by decide) rfl []
  exact ⟨e2.trans e1, e3, scalar_clear h2 rfl⟩

/-- The windows of a completion of SM2_SIGN with OK. -/
theorem signFinish_writes_ok {s₀ s : State} (hc : s.cfg.WellFormed) (hw : Memory.wf s.mem = true)
    (hcfg : s.cfg = s₀.cfg) (hm : s.mem = s₀.mem) (ho : s.outLen = s₀.outLen) (hr : s.w.r < 256 ^ s.cfg.sb)
    (hs : s.w.s < 256 ^ s.cfg.sb) : WritesSignature s₀ (signFinish .ok s) s.w.r s.w.s := by
  obtain ⟨er, es, ed⟩ := scalar_signature hc hw (i2be s.cfg.sb s.w.r) (i2be s.cfg.sb s.w.s) _ rfl
  refine ⟨er.trans (scalar_fillWin hw rfl hr), es.trans (scalar_fillWin (State.fillWin_wf hw .r _) rfl hs), ed, ?_,
    by simp [ho]⟩
  intro a ha
  rw [← hm]
  exact readByte_signature hw _ _ a (by rw [hcfg]; exact ha)

/-- The windows of a completion of SM2_SIGN with any other code. -/
theorem signFinish_writes_fail {s₀ s : State} {code : ErrCode} (hc : s.cfg.WellFormed) (hw : Memory.wf s.mem = true)
    (hcfg : s.cfg = s₀.cfg) (hm : s.mem = s₀.mem) (ho : s.outLen = s₀.outLen) (hcode : code ≠ .ok) :
    WritesSignature s₀ (signFinish code s) 0 0 := by
  obtain ⟨er, es, ed⟩ := scalar_signature hc hw [] [] _ rfl
  have hmem : (signFinish code s).mem = (((s.fillWin .r []).fillWin .s []).fillWin .da []).mem := by
    simp [signFinish, finish, signWrites, hcode]
  have hsc : ∀ win, scalar (signFinish code s) win = scalar (((s.fillWin .r []).fillWin .s []).fillWin .da []) win := by
    intro win
    simp only [scalar, State.winBytes, hmem, signFinish_cfg, State.fillWin_cfg]
  refine ⟨?_, ?_, ?_, ?_, by simp [ho]⟩
  · rw [hsc, er, scalar_clear hw rfl]
  · rw [hsc, es]; exact scalar_clear (State.fillWin_wf hw .r _) rfl
  · rw [hsc, ed]
  · intro a ha
    rw [hmem, ← hm]
    exact readByte_signature hw _ _ a (by rw [hcfg]; exact ha)

end Sys2Proof.Machine
end

