-- ==== Sys2Proof/Laws/Decode.lean ====
section
/-! SUPPORT. The fields of an assembled command word, and what the decoder answers for it. -/

namespace Sys2Proof

@[simp] theorem startField_commandWord (cmd hsel msel : Sel) : startField (commandWord cmd hsel msel) = true := by
  rw [startField, commandWord, BitVec.getLsbD_append]
  simp

@[simp] theorem cmdField_commandWord (cmd hsel msel : Sel) : cmdField (commandWord cmd hsel msel) = cmd := by
  unfold cmdField commandWord
  ext i hi
  simp only [BitVec.getElem_extractLsb', BitVec.getLsbD_append]
  have h1 : ¬ 4 + i < 4 := by omega
  have h2 : 4 + i - 4 < 4 := by omega
  have h3 : 4 + i - 4 = i := by omega
  simp [h1, h3, hi, BitVec.getLsbD_eq_getElem]

@[simp] theorem hselField_commandWord (cmd hsel msel : Sel) : hselField (commandWord cmd hsel msel) = hsel := by
  unfold hselField commandWord
  ext i hi
  simp only [BitVec.getElem_extractLsb', BitVec.getLsbD_append]
  have h1 : ¬ 8 + i < 4 := by omega
  have h2 : ¬ 8 + i - 4 < 4 := by omega
  have h3 : 8 + i - 4 - 4 = i := by omega
  simp [h1, h2, h3, hi, BitVec.getLsbD_eq_getElem]

@[simp] theorem mselField_commandWord (cmd hsel msel : Sel) : mselField (commandWord cmd hsel msel) = msel := by
  unfold mselField commandWord
  ext i hi
  simp only [BitVec.getElem_extractLsb', BitVec.getLsbD_append]
  have h1 : ¬ 12 + i < 4 := by omega
  have h2 : ¬ 12 + i - 4 < 4 := by omega
  have h3 : ¬ 12 + i - 4 - 4 < 4 := by omega
  have h4 : 12 + i - 4 - 4 - 4 = i := by omega
  simp [h1, h2, h3, h4, hi, BitVec.getLsbD_eq_getElem]

/-- An assembled word leaves every ignored bit 0 (R60, R67). -/
theorem ignored_commandWord (cmd hsel msel : Sel) :
    (commandWord cmd hsel msel).extractLsb' 1 3 = 0 ∧ (commandWord cmd hsel msel).extractLsb' 16 16 = 0 := by
  unfold commandWord
  constructor <;> ext i hi <;> simp only [BitVec.getElem_extractLsb', BitVec.getLsbD_append]
  · have h1 : 1 + i < 4 := by omega
    simp [h1]
  · have h1 : ¬ 16 + i < 4 := by omega
    have h2 : ¬ 16 + i - 4 < 4 := by omega
    have h3 : ¬ 16 + i - 4 - 4 < 4 := by omega
    have h4 : ¬ 16 + i - 4 - 4 - 4 < 4 := by omega
    simp [h1, h2, h3, h4]

/-- A word that decodes has START = 1 and its fields are the command's (R56, R59). -/
theorem decode_eq_ok {v : Word} {i : Instr} (h : decode v = .ok i) :
    startField v = true ∧ i.cmd = cmdField v ∧ i.hsel = hselField v ∧ i.msel = mselField v := by
  unfold decode at h
  split at h
  · rename_i hs
    unfold commandOf at h
    repeat' split at h
    all_goals
      rename_i hx
      revert hx
      split_ifs <;> intro hx <;> cases hx <;> cases h <;> simp_all [Instr.cmd, Instr.hsel, Instr.msel]
  · cases h

end Sys2Proof
end

