-- ==== Sys2Proof/Laws/PerInstr.lean ====
section
/-! SUPPORT. Statements made for every command, one lemma per constructor of `Instr`. -/

namespace Sys2Proof.Laws

/-- The encoder writes the word an assembler writes (R67): START = 1, an assigned CMD, every ignored bit 0. -/
def CanonicalEncoding.Statement (i : Instr) : Prop := i.wf = true ∧ canonicalWord (encode i) = true

theorem canonicalWord_commandWord {cmd : Sel} (h : 1 ≤ cmd.toNat ∧ cmd.toNat ≤ 5) (hsel msel : Sel) :
    canonicalWord (commandWord cmd hsel msel) = true := by
  have hs : (commandWord cmd hsel msel).getLsbD 0 = true := startField_commandWord cmd hsel msel
  have hc : (commandWord cmd hsel msel).extractLsb' 4 4 = cmd := cmdField_commandWord cmd hsel msel
  obtain ⟨h1, h2⟩ := ignored_commandWord cmd hsel msel
  simp [canonicalWord, hs, hc, h1, h2, h]

theorem CanonicalEncoding.sm2Sign (hsel msel : Sel) : CanonicalEncoding.Statement (.sm2Sign hsel msel) :=
  ⟨rfl, canonicalWord_commandWord (by simp [Instr.cmd]) hsel msel⟩

theorem CanonicalEncoding.sm2Verify (hsel msel : Sel) : CanonicalEncoding.Statement (.sm2Verify hsel msel) :=
  ⟨rfl, canonicalWord_commandWord (by simp [Instr.cmd]) hsel msel⟩

theorem CanonicalEncoding.mgf1 (hsel msel : Sel) : CanonicalEncoding.Statement (.mgf1 hsel msel) :=
  ⟨rfl, canonicalWord_commandWord (by simp [Instr.cmd]) hsel msel⟩

theorem CanonicalEncoding.oaepEnc (hsel msel : Sel) : CanonicalEncoding.Statement (.oaepEnc hsel msel) :=
  ⟨rfl, canonicalWord_commandWord (by simp [Instr.cmd]) hsel msel⟩

theorem CanonicalEncoding.oaepDec (hsel msel : Sel) : CanonicalEncoding.Statement (.oaepDec hsel msel) :=
  ⟨rfl, canonicalWord_commandWord (by simp [Instr.cmd]) hsel msel⟩

end Sys2Proof.Laws
end

