-- ==== Sys2Proof/Laws/Step.lean ====
section
/-! SUPPORT. What a step can do, said once: every next state of `step` is a host's move, a controller's move, or the
state itself where no agent has a step. -/

namespace Sys2Proof.Machine

/-- The next states a host operation can lead to (R45 to R47, R57, R58, R67, R132). -/
inductive HostMove (s : State) : State → Prop where
  | reset : HostMove s (applyReset s)
  | answer (r : BusResponse) : HostMove s (s.answer r)
  | again (r : BusResponse) (ev : HostEvent) : HostMove s ((s.answer r).queueFirst ev)
  | accept (cmd hsel msel : Sel) (idle : s.phase = .idle) : HostMove s (accept cmd hsel msel (s.answer .written))
  | locked (busy : s.phase ≠ .idle) : HostMove s (turnAway (s.answer .written))
  | status (v : Word) : HostMove s ((writeStatus v s).answer .written)
  | irqEn (v : Word) : HostMove s ((writeIrqEn v s).answer .written)
  | length (r : Reg) (v : Word) (idle : s.phase = .idle) : HostMove s ((storeLength r v s).answer .written)
  | store (off : Nat) (v : Word) (idle : s.phase = .idle) :
      HostMove s ((s.setMem (storeLanes s.cfg s.mem off (lanesOf v))).answer .written)

/-- The next states a step of the controller can lead to: the action of the latched command's phase (R37). -/
inductive ControllerMove (s : State) : State → Prop where
  | reserved (cmd : s.ctrl.cmd = 0 ∨ 6 ≤ s.ctrl.cmd.toNat) (phase : s.phase = .check) :
      ControllerMove s (finish .badCmd id s)
  | signCheck (cmd : s.ctrl.cmd = 1) (phase : s.phase = .check) : ControllerMove s (signCheck s)
  | signDraw (cmd : s.ctrl.cmd = 1) (phase : s.phase = .sDraw) : ControllerMove s (signDraw s)
  | signMulg (cmd : s.ctrl.cmd = 1) (phase : s.phase = .sMulg) : ControllerMove s (signMulg s)
  | signRs (cmd : s.ctrl.cmd = 1) (phase : s.phase = .sRs) : ControllerMove s (signRs s)
  | verifyCheck (cmd : s.ctrl.cmd = 2) (phase : s.phase = .check) : ControllerMove s (verifyCheck s)
  | verifyRange (cmd : s.ctrl.cmd = 2) (phase : s.phase = .vRange) : ControllerMove s (verifyRange s)
  | verifyMul (cmd : s.ctrl.cmd = 2) (phase : s.phase = .vMul) : ControllerMove s (verifyMul s)
  | verifyCmp (cmd : s.ctrl.cmd = 2) (phase : s.phase = .vCmp) : ControllerMove s (verifyCmp s)
  | mgf1Check (cmd : s.ctrl.cmd = 3) (phase : s.phase = .check) : ControllerMove s (mgf1Check s)
  | mgf1Block (cmd : s.ctrl.cmd = 3) (phase : s.phase = .mBlock) : ControllerMove s (mgf1Block s)
  | encCheck (cmd : s.ctrl.cmd = 4) (phase : s.phase = .check) : ControllerMove s (encCheck s)
  | encLhash (cmd : s.ctrl.cmd = 4) (phase : s.phase = .eLhash) : ControllerMove s (encLhash s)
  | encSeed (cmd : s.ctrl.cmd = 4) (phase : s.phase = .eSeed) : ControllerMove s (encSeed s)
  | encDbmask (cmd : s.ctrl.cmd = 4) (phase : s.phase = .eDbmask) : ControllerMove s (encDbmask s)
  | encSeedmask (cmd : s.ctrl.cmd = 4) (phase : s.phase = .eSeedmask) : ControllerMove s (encSeedmask s)
  | encOut (cmd : s.ctrl.cmd = 4) (phase : s.phase = .eOut) : ControllerMove s (encOut s)
  | decCheck (cmd : s.ctrl.cmd = 5) (phase : s.phase = .check) : ControllerMove s (decCheck s)
  | decPad (cmd : s.ctrl.cmd = 5) (phase : s.phase = .dPad) : ControllerMove s (decPad s)
  | decSeedmask (cmd : s.ctrl.cmd = 5) (phase : s.phase = .dSeedmask) : ControllerMove s (decSeedmask s)
  | decDbmask (cmd : s.ctrl.cmd = 5) (phase : s.phase = .dDbmask) : ControllerMove s (decDbmask s)
  | decLhash (cmd : s.ctrl.cmd = 5) (phase : s.phase = .dLhash) : ControllerMove s (decLhash s)
  | decScan (cmd : s.ctrl.cmd = 5) (phase : s.phase = .dScan) : ControllerMove s (decScan s)

/-- The acceptance of a command on an IDLE block, by its own meaning. -/
theorem exec_idle {i : Instr} {s : State} (h : s.phase = .idle) :
    exec i s = .next (accept i.cmd i.hsel i.msel s) := by
  cases i <;> simp [exec, execSm2Sign, execSm2Verify, execMgf1, execOaepEnc, execOaepDec, command, h, Instr.cmd,
    Instr.hsel, Instr.msel]

/-- The next states of a command's own controller step. -/
theorem exec_busy_cases {i : Instr} {s t : State} (hb : s.phase ≠ .idle) (hl : Latched i s)
    (h : exec i s = .next t) : ControllerMove s t := by
  unfold Latched at hl
  cases i <;>
    simp only [exec, execSm2Sign, execSm2Verify, execMgf1, execOaepEnc, execOaepDec, command, if_neg hb, hl,
      Instr.cmd, Instr.hsel, Instr.msel, ↓reduceIte] at h <;>
    have hcmd := congrArg Ctrl.cmd hl
  · unfold signPhase at h
    split at h <;> cases h <;> rename_i hp
    · exact .signCheck hcmd hp
    · exact .signDraw hcmd hp
    · exact .signMulg hcmd hp
    · exact .signRs hcmd hp
  · unfold verifyPhase at h
    split at h <;> cases h <;> rename_i hp
    · exact .verifyCheck hcmd hp
    · exact .verifyRange hcmd hp
    · exact .verifyMul hcmd hp
    · exact .verifyCmp hcmd hp
  · unfold mgf1Phase at h
    split at h <;> cases h <;> rename_i hp
    · exact .mgf1Check hcmd hp
    · exact .mgf1Block hcmd hp
  · unfold encPhase at h
    split at h <;> cases h <;> rename_i hp
    · exact .encCheck hcmd hp
    · exact .encLhash hcmd hp
    · exact .encSeed hcmd hp
    · exact .encDbmask hcmd hp
    · exact .encSeedmask hcmd hp
    · exact .encOut hcmd hp
  · unfold decPhase at h
    split at h <;> cases h <;> rename_i hp
    · exact .decCheck hcmd hp
    · exact .decPad hcmd hp
    · exact .decSeedmask hcmd hp
    · exact .decDbmask hcmd hp
    · exact .decLhash hcmd hp
    · exact .decScan hcmd hp

/-- What the latched fields decode to: the latched command, or a reserved CMD. -/
theorem decode_latched (s : State) :
    (∃ i, decode (latchedWord s) = .ok i ∧ Latched i s) ∨
      ((s.ctrl.cmd = 0 ∨ 6 ≤ s.ctrl.cmd.toNat) ∧ ∃ e, decode (latchedWord s) = .error e) := by
  unfold latchedWord Latched
  rcases s.ctrl with ⟨cmd, hsel, msel⟩
  simp only [decode, startField_commandWord, cmdField_commandWord, hselField_commandWord, mselField_commandWord,
    ↓reduceIte, commandOf]
  by_cases h1 : cmd = 1
  · exact .inl ⟨.sm2Sign hsel msel, by simp [h1], by simp [h1, Instr.cmd, Instr.hsel, Instr.msel]⟩
  by_cases h2 : cmd = 2
  · exact .inl ⟨.sm2Verify hsel msel, by simp [h2], by simp [h2, Instr.cmd, Instr.hsel, Instr.msel]⟩
  by_cases h3 : cmd = 3
  · exact .inl ⟨.mgf1 hsel msel, by simp [h3], by simp [h3, Instr.cmd, Instr.hsel, Instr.msel]⟩
  by_cases h4 : cmd = 4
  · exact .inl ⟨.oaepEnc hsel msel, by simp [h4], by simp [h4, Instr.cmd, Instr.hsel, Instr.msel]⟩
  by_cases h5 : cmd = 5
  · exact .inl ⟨.oaepDec hsel msel, by simp [h5], by simp [h5, Instr.cmd, Instr.hsel, Instr.msel]⟩
  refine .inr ⟨?_, .reservedCmd cmd, by rw [if_neg h1, if_neg h2, if_neg h3, if_neg h4, if_neg h5]⟩
  bv_omega

/-- The next states of the controller's turn. -/
theorem controllerAction_cases {s t : State} (hb : s.phase ≠ .idle)
    (h : takeAction (controllerAction s) = .next t) :
    ControllerMove s t := by
  unfold controllerAction at h
  rcases decode_latched s with ⟨i, hd, hl⟩ | ⟨hc, e, hd⟩ <;> rw [hd] at h
  · exact exec_busy_cases hb hl h
  · simp only [reservedStep] at h
    split at h
    · rename_i hp; cases h; exact .reserved hc hp
    · cases h

theorem memWrite_cases (off : Nat) (v : Word) (s : State) :
    HostMove s ((memWrite off v s).answer .written) := by
  have hb : ∀ {b : Bool}, s.busy = b → (b = true → s.phase ≠ .idle) ∧ (b = false → s.phase = .idle) := by
    intro b h; subst h; simp [State.busy]
  unfold memWrite
  split
  · rename_i r _
    unfold writeReg
    split_ifs with h1 h2 h3 h4
    · exact .status v
    · exact .irqEn v
    · exact .locked ((hb h4).1 rfl)
    · exact .length r v ((hb (by simpa using h4)).2 rfl)
    · exact .answer _
  · split
    · unfold writeWindow
      split_ifs with h1 h2 h3
      · exact .answer _
      · exact .answer _
      · exact .locked ((hb h3).1 rfl)
      · exact .store off v ((hb (by simpa using h3)).2 rfl)
    · exact .answer _

/-- The next states of the host's turn. -/
theorem hostAction_cases {op : HostOp} {s t : State}
    (h : takeAction (hostAction op s) = .next t) : HostMove s t := by
  cases op with
  | reset => cases h; exact .reset
  | waitDone gaps => cases h; unfold waitRead; split
                     · exact .answer _
                     · exact .again _ _
  | read addr size =>
    simp only [hostAction] at h
    split at h
    · cases h; unfold hostRead; split <;> exact .answer _
    · cases h; exact .answer _
  | write addr size v =>
    simp only [hostAction] at h
    cases hw : windowOffset s.cfg addr with
    | none => rw [hw] at h; cases h; exact .answer _
    | some off =>
      rw [hw] at h
      simp only [hostWrite] at h
      split_ifs at h with h1 h2
      · cases h; exact .answer _
      · simp only [commandWrite] at h
        by_cases hb : (s.answer .written).busy = true
        · simp only [hb, ↓reduceIte] at h
          cases h
          exact .locked (by simpa [State.busy] using hb)
        · simp only [hb, ↓reduceIte, Bool.false_eq_true] at h
          have hidle : s.phase = .idle := by simpa [State.busy] using hb
          cases hd : decode v with
          | ok i =>
            rw [hd] at h
            have h' : exec i (s.answer .written) = .next t := h
            rw [exec_idle (i := i) (s := s.answer .written) hidle] at h'
            cases h'
            exact .accept _ _ _ hidle
          | error e =>
            rw [hd] at h
            cases e <;> cases h
            · exact .answer _
            · exact .answer _
            · exact .accept _ _ _ hidle
      · cases h; exact memWrite_cases off v s

/-- What a step can do: nothing where no agent has a step; a host's move of the queue's head; a controller's move, with
one of the head's waits used up. -/
theorem step_cases {s t : State} (h : step s = .next t) :
    (s.inputs = [] ∧ s.phase = .idle ∧ t = s) ∨
      (∃ ev rest, s.inputs = ev :: rest ∧ (ev.wait = 0 ∨ s.phase = .idle) ∧
        HostMove { s with inputs := rest } t) ∨
      (s.phase ≠ .idle ∧ s.inputs = [] ∧ ControllerMove s t) ∨
      (s.phase ≠ .idle ∧ ∃ ev rest, s.inputs = ev :: rest ∧ ev.wait ≠ 0 ∧
        ControllerMove { s with inputs := { ev with wait := ev.wait - 1 } :: rest } t) := by
  unfold step nextAction at h
  cases hi : s.inputs with
  | nil =>
    rw [hi] at h
    by_cases hp : s.phase = .idle
    · simp only [hp, ↓reduceIte] at h
      cases h
      exact .inl ⟨rfl, hp, rfl⟩
    · simp only [if_neg hp] at h
      exact .inr (.inr (.inl ⟨hp, rfl, controllerAction_cases hp h⟩))
  | cons ev rest =>
    rw [hi] at h
    by_cases hp : ev.wait = 0 ∨ s.phase = .idle
    · simp only [if_pos hp] at h
      exact .inr (.inl ⟨ev, rest, rfl, hp, hostAction_cases h⟩)
    · simp only [if_neg hp] at h
      rw [not_or] at hp
      exact .inr (.inr (.inr ⟨hp.2, ev, rest, rfl, hp.1, controllerAction_cases (s := { s with
        inputs := { ev with wait := ev.wait - 1 } :: rest }) hp.2 h⟩))

end Sys2Proof.Machine
end

