-- ==== Sys2Proof/Laws/Runs.lean ====
section
/-! SUPPORT. Runs of several steps, and what the next step is in the three situations a statement starts from. -/

namespace Sys2Proof.Machine

@[simp] theorem steps_zero (s : State) : steps 0 s = .next s := rfl

theorem steps_succ {s t : State} (h : step s = .next t) (k : Nat) : steps (k + 1) s = steps k t := by
  rw [steps, h]

theorem steps_one {s t : State} (h : step s = .next t) : steps 1 s = .next t := steps_succ h 0

/-- A run is its first part, then the rest from where that ended. -/
theorem steps_add {s t : State} {a : Nat} (h : steps a s = .next t) (b : Nat) : steps (a + b) s = steps b t := by
  induction a generalizing s with
  | zero => cases h; rw [Nat.zero_add]
  | succ a ih =>
    rw [steps] at h
    cases hs : step s with
    | next u => rw [hs] at h; rw [Nat.succ_add, steps_succ hs, ih h]
    | fault r => rw [hs] at h; cases h
    | refused r => rw [hs] at h; cases h

theorem BusyThrough.zero (s : State) : BusyThrough 0 s := fun j hj => absurd hj (Nat.not_lt_zero j)

theorem BusyThrough.succ {n : Nat} {s t : State} (hb : s.phase ≠ .idle) (h : step s = .next t) (ht : BusyThrough n t) :
    BusyThrough (n + 1) s := by
  intro j hj
  cases j with
  | zero => exact ⟨s, rfl, hb⟩
  | succ j => rw [steps_succ h]; exact ht j (by omega)

theorem BusyThrough.one {s : State} (hb : s.phase ≠ .idle) : BusyThrough 1 s := by
  intro j hj
  obtain rfl : j = 0 := by omega
  exact ⟨s, rfl, hb⟩

theorem BusyThrough.add {a b : Nat} {s t : State} (ha : BusyThrough a s) (h : steps a s = .next t)
    (hb : BusyThrough b t) : BusyThrough (a + b) s := by
  intro j hj
  by_cases hj' : j < a
  · exact ha j hj'
  · have := steps_add h (j - a)
    rw [Nat.add_sub_cancel' (by omega)] at this
    rw [this]
    exact hb _ (by omega)

/-- What the latched fields of a command decode to. -/
theorem decode_latchedWord {i : Instr} {s : State} (h : Latched i s) : decode (latchedWord s) = .ok i := by
  unfold Latched at h
  rw [latchedWord, h]
  cases i <;> simp [decode, commandOf, Instr.cmd, Instr.hsel, Instr.msel]

/-- The step of a BUSY block with no host operation queued. -/
theorem step_busy {i : Instr} {s : State} (hq : s.inputs = []) (hb : s.phase ≠ .idle) (hl : Latched i s) :
    step s = exec i s := by
  simp only [step, nextAction, hq, if_neg hb, controllerAction, decode_latchedWord hl, takeAction]

/-- The step of the host's operation whose turn it is. -/
theorem step_host {op : HostOp} {rest : List HostEvent} {s : State} (h : HostNext op rest s) :
    step s = takeAction (hostAction op { s with inputs := rest }) := by
  obtain ⟨wait, hq, hw⟩ := h
  simp only [step, nextAction, hq, if_pos hw]

/-- The step of an IDLE block with no host operation queued. -/
theorem step_idle {s : State} (hq : s.inputs = []) (hp : s.phase = .idle) : step s = .next s := by
  simp only [step, nextAction, hq, hp, ↓reduceIte, takeAction]

end Sys2Proof.Machine
end

