-- ==== Sys2Proof/Laws/Script.lean ====
section
/-! SUPPORT. What the reading pseudo-operations of a host script do: WAIT and RBYTES (spec/30_encoding.md R67). -/

namespace Sys2Proof.Machine

open Sys2Proof.Config

/-! ### WAIT -/

@[simp] theorem statusWord_done (s : State) : (statusWord s).getLsbD 1 = s.done := by
  simp only [statusWord, BitVec.getLsbD_append]
  cases s.done <;> rfl

/-- WAIT is over once DONE reads 1. -/
theorem step_wait_over {gaps : List Nat} {rest : List HostEvent} {s : State} (h : HostNext (.waitDone gaps) rest s)
    (hd : s.done = true) : step s = .next { s with inputs := rest, bus := .data (statusWord s) } := by
  have hr : memRead { s with inputs := rest } 0x014 = statusWord s := rfl
  rw [step_host h, hostAction, waitRead, hr, statusWord_done, hd]
  rfl

/-- While DONE reads 0, WAIT reads again. -/
theorem step_wait_again {gaps : List Nat} {rest : List HostEvent} {s : State} (h : HostNext (.waitDone gaps) rest s)
    (hd : s.done = false) :
    step s = .next { s with
      inputs := { wait := gaps.headD 1, op := .waitDone gaps.tail } :: rest, bus := .data (statusWord s) } := by
  have hr : memRead { s with inputs := rest } 0x014 = statusWord s := rfl
  rw [step_host h, hostAction, waitRead, hr, statusWord_done, hd]
  rfl

/-! ### RBYTES -/

/-- A read of a script on an IDLE block. -/
theorem step_read {off : Nat} {rest : List HostEvent} {s : State} (ho : off < 0x4000) (hm : off % 4 = 0)
    (h : HostNext (.read (s.cfg.base + off) 4) rest s) :
    step s = .next { s with inputs := rest, bus := .data (memRead s off) } := by
  have hw : windowOffset s.cfg (s.cfg.base + off) = some off := by simp [windowOffset, ho]
  have hr : memRead { s with inputs := rest } off = memRead s off := rfl
  rw [step_host h]
  simp only [hostAction, hw, hostRead, legalAccess, hm, hr]
  rfl

/-- The words that a list of reads returns on an IDLE block: what each offset reads as, and nothing changes. -/
theorem wordsRead_reads {offs : List Nat} {rest : List HostEvent} {s : State} (hp : s.phase = .idle)
    (ho : ∀ off ∈ offs, off < 0x4000 ∧ off % 4 = 0)
    (hi : s.inputs = scriptEvents s.cfg (offs.map fun off => (0, .r off)) ++ rest) :
    wordsRead offs.length s = offs.map (memRead s) ∧
      ∃ b, steps offs.length s = .next { s with inputs := rest, bus := b } := by
  induction offs generalizing s with
  | nil =>
    refine ⟨rfl, s.bus, ?_⟩
    have : s.inputs = rest := by simpa [scriptEvents] using hi
    rw [← this]
    rfl
  | cons off offs ih =>
    obtain ⟨h1, h2⟩ := ho off List.mem_cons_self
    have hn : HostNext (.read (s.cfg.base + off) 4)
        (scriptEvents s.cfg (offs.map fun off => (0, .r off)) ++ rest) s := ⟨0, hi, .inr hp⟩
    have hs := step_read h1 h2 hn
    have ht : hostTurn s = true := by rw [hostTurn, hi]; rfl
    obtain ⟨hw, b, hb⟩ := ih
      (s := { s with
        inputs := scriptEvents s.cfg (offs.map fun off => (0, .r off)) ++ rest, bus := .data (memRead s off) })
      hp (fun o h => ho o (List.mem_cons_of_mem _ h)) rfl
    refine ⟨?_, b, ?_⟩
    · rw [List.length_cons, wordsRead, hs]
      simp only [ht, hw, List.map_cons]
      rfl
    · rw [List.length_cons, steps_succ hs, hb]

/-- The lanes of a word put together from four bytes are these bytes (R42). -/
theorem lanesOf_wordOfLanes (a b c d : Byte) : lanesOf (wordOfLanes a b c d) = [a, b, c, d] := by
  simp only [lanesOf, wordOfLanes, List.cons.injEq, and_true]
  refine ⟨?_, ?_, ?_, ?_⟩ <;> apply BitVec.eq_of_getLsbD_eq <;> intro i hi <;>
    simp only [BitVec.getLsbD_extractLsb', BitVec.getLsbD_append, hi, decide_true, Bool.true_and] <;>
    interval_cases i <;> rfl

/-- Lane j of the word a window that is not hidden reads as, where it is storage. -/
theorem lane_readWindow {s : State} {win : Win} {off j : Nat} (hr : readsZero s win = false) (hj : j < 4)
    (hs : isStorage s.cfg (off + j) = true) :
    (lanesOf (readWindow s win off)).getD j 0 = readByte s.mem (off + j) := by
  have hl : laneByte s (off + j) = readByte s.mem (off + j) := by rw [laneByte, if_pos hs]
  rw [← hl, readWindow, hr, if_neg (by decide), lanesOf_wordOfLanes]
  interval_cases j <;> rfl

/-- RBYTES on an IDLE block: the first L bytes of any window but DA, for L up to its capacity (R42, R45, R67). -/
theorem rbytes_reads_window {win : Win} {L : Nat} {rest : List HostEvent} {s : State} (hc : s.cfg.WellFormed)
    (hp : s.phase = .idle) (hw : win ≠ .da) (hL : L ≤ win.capacity s.cfg)
    (hi : s.inputs = scriptEvents s.cfg (((Pseudo.rbytes win L).expand s.cfg).map fun line => (0, line)) ++ rest) :
    rbytesResult L (wordCount L) s = s.winBytes win L ∧
      ∃ b, steps (wordCount L) s = .next { s with inputs := rest, bus := b } := by
  have hspan := Win.capacity_le_span hc win
  have hoff : ∀ w < wordCount L, win.base + 4 * w < win.base + win.span ∧ win.base + 4 * w < 0x4000 ∧
      (win.base + 4 * w) % 4 = 0 ∧ 0x100 ≤ win.base + 4 * w := by
    intro w h
    rw [wordCount] at h
    cases win <;> simp only [Win.base, Win.span] at hspan ⊢ <;> omega
  have hlen : ((List.range (wordCount L)).map fun w => win.base + 4 * w).length = wordCount L := by simp
  obtain ⟨h1, h2⟩ := wordsRead_reads (offs := (List.range (wordCount L)).map fun w => win.base + 4 * w)
    (rest := rest) hp
    (by
      intro off h
      obtain ⟨w, hw', rfl⟩ := List.mem_map.1 h
      obtain ⟨-, h3, h4, -⟩ := hoff w (List.mem_range.1 hw')
      exact ⟨h3, h4⟩)
    (by rw [hi, Pseudo.expand, readLines]; simp [List.map_map, Function.comp_def])
  rw [hlen] at h1 h2
  refine ⟨?_, h2⟩
  rw [rbytesResult, h1, bytesOfWords, State.winBytes, readBytes]
  apply List.map_congr_left
  intro i hiL
  have hiL := List.mem_range.1 hiL
  have hq : i / 4 < wordCount L := by rw [wordCount]; omega
  have hz : readsZero s win = false := by simp [readsZero, hw, State.busy, hp]
  have hw4 : winAt (win.base + 4 * (i / 4)) = some win :=
    winAt_of_mem (by omega) (hoff _ hq).1
  have hreg : regAt (win.base + 4 * (i / 4)) = none := by
    have := (hoff _ hq).2.2.2
    unfold regAt
    simp (disch := omega) only [if_neg]
  have hst : isStorage s.cfg (win.base + 4 * (i / 4) + i % 4) = true :=
    (isStorage_iff hc).2 ⟨win, by omega, by omega⟩
  have hm : memRead s (win.base + 4 * (i / 4)) = readWindow s win (win.base + 4 * (i / 4)) := by
    simp only [memRead, hreg, hw4]
  have hword : (((List.range (wordCount L)).map fun w => win.base + 4 * w).map (memRead s)).getD (i / 4) 0 =
      readWindow s win (win.base + 4 * (i / 4)) := by
    rw [List.getD_eq_getElem _ _ (by simpa using hq)]
    simp only [List.getElem_map, List.getElem_range, hm]
  rw [hword, lane_readWindow hz (Nat.mod_lt _ (by decide)) hst, Nat.add_assoc, Nat.div_add_mod]

end Sys2Proof.Machine
end

