-- ==== Sys2Proof/Tests/Slice0.lean ====
section
/-! SUPPORT. Tests: ill-formed instances and words are refused; command words written out from R56 and R59 decode; the
worked examples of the spec, one step each; and for every statement a state that meets its hypotheses. -/

namespace Sys2Proof.Tests

-- One test at a time: each waits for the kernel, and all of them at once would need a thread apiece.
set_option Elab.async false

open Sys2Proof.Machine Sys2Proof.Config

/-! ### Instances (R4) -/

/-- A hash algorithm of one byte whose function an instance supplies, for two messages. -/
def oneByte : HashAlg := { name := .other 0, len := 1, fn := .listed [([], [0x77]), ([1], [0x88])] }

/-- An instance as small as the worked examples of the spec allow, with the curve and the hash of TESTCFG, and a second
algorithm. -/
def miniCfg : Params :=
  { base := 0x4000, sb := 1, emax := 1, bmax := 8, lmax := 2, hmax := 2,
    hashTable := [(15, .toy2), (1, oneByte)], defaultHash := 15, curve := tc29 }

theorem test_tc29_order : tc29.order = 29 := by decide

theorem test_tc29_order_prime : tc29.order.Prime := by rw [test_tc29_order]; norm_num

theorem test_testCfg_wellFormed : testCfg.WellFormed where
  base_aligned := by decide
  sb_pos := by decide
  sb_le := by decide
  emax_pos := by decide
  emax_le := by decide
  bmax_pos := by decide
  bmax_le := by decide
  lmax_le := by decide
  hmax_pos := by decide
  hmax_le := by decide
  hash_sel_ne_zero := by decide
  hash_sel_unique := by decide
  hash_len_pos := by decide
  hash_len_le := by decide
  hash_fn_fits := by decide
  default_assigned := by decide
  order_prime := test_tc29_order_prime
  order_lt := by decide
  points_distinct := by decide +kernel
  coord_lt := by decide +kernel

theorem test_miniCfg_wellFormed : miniCfg.WellFormed where
  base_aligned := by decide
  sb_pos := by decide
  sb_le := by decide
  emax_pos := by decide
  emax_le := by decide
  bmax_pos := by decide
  bmax_le := by decide
  lmax_le := by decide
  hmax_pos := by decide
  hmax_le := by decide
  hash_sel_ne_zero := by decide
  hash_sel_unique := by decide
  hash_len_pos := by decide
  hash_len_le := by decide
  hash_fn_fits := by decide
  default_assigned := by decide
  order_prime := test_tc29_order_prime
  order_lt := by decide
  points_distinct := by decide +kernel
  coord_lt := by decide +kernel

/-! Each constraint of R4 refuses an instance that breaks it. -/

theorem test_refuses_base : ¬ Params.WellFormed { testCfg with base := 0x1000 } :=
  fun h => absurd h.base_aligned (by decide)
theorem test_refuses_sb_zero : ¬ Params.WellFormed { testCfg with sb := 0 } := fun h => absurd h.sb_pos (by decide)
theorem test_refuses_sb_129 : ¬ Params.WellFormed { testCfg with sb := 129 } := fun h => absurd h.sb_le (by decide)
theorem test_refuses_emax_zero : ¬ Params.WellFormed { testCfg with emax := 0 } :=
  fun h => absurd h.emax_pos (by decide)
theorem test_refuses_emax_129 : ¬ Params.WellFormed { testCfg with emax := 129 } :=
  fun h => absurd h.emax_le (by decide)
theorem test_refuses_bmax_zero : ¬ Params.WellFormed { testCfg with bmax := 0 } :=
  fun h => absurd h.bmax_pos (by decide)
theorem test_refuses_bmax_4097 : ¬ Params.WellFormed { testCfg with bmax := 4097 } :=
  fun h => absurd h.bmax_le (by decide)
theorem test_refuses_lmax_4097 : ¬ Params.WellFormed { testCfg with lmax := 4097 } :=
  fun h => absurd h.lmax_le (by decide)
theorem test_refuses_hmax_zero : ¬ Params.WellFormed { testCfg with hmax := 0 } :=
  fun h => absurd h.hmax_pos (by decide)
theorem test_refuses_hmax_256 : ¬ Params.WellFormed { testCfg with hmax := 256 } :=
  fun h => absurd h.hmax_le (by decide)
theorem test_refuses_entry_zero : ¬ Params.WellFormed { testCfg with hashTable := [(0, .toy2), (1, .sha1)] } :=
  fun h => absurd h.hash_sel_ne_zero (by decide)
theorem test_refuses_two_entries : ¬ Params.WellFormed { testCfg with hashTable := [(1, .toy2), (1, .sha1)] } :=
  fun h => absurd h.hash_sel_unique (by decide)
theorem test_refuses_len_zero : ¬ Params.WellFormed { testCfg with hashTable := [(1, { oneByte with len := 0 })] } :=
  fun h => absurd h.hash_len_pos (by decide)
theorem test_refuses_len_above_hmax : ¬ Params.WellFormed { testCfg with hashTable := [(1, { oneByte with len := 65 })] } :=
  fun h => absurd h.hash_len_le (by decide)
theorem test_refuses_long_digest : ¬ Params.WellFormed { testCfg with hashTable := [(1, { oneByte with len := 2 })] } :=
  fun h => absurd h.hash_fn_fits (by decide)
theorem test_refuses_two_digests : ¬ Params.WellFormed
    { testCfg with hashTable := [(1, { oneByte with fn := .listed [([], [0]), ([], [1])] })] } :=
  fun h => absurd h.hash_fn_fits (by decide)
theorem test_refuses_default : ¬ Params.WellFormed { testCfg with defaultHash := 7 } :=
  fun h => absurd h.default_assigned (by decide)
theorem test_refuses_order_4 : ¬ Params.WellFormed { testCfg with curve := { points := [(0, 7), (1, 1), (0, 30)] } } :=
  fun h => absurd h.order_prime (by decide)
theorem test_refuses_order_above_sb : ¬ Params.WellFormed
    { testCfg with sb := 1, curve := { points := List.replicate 256 (0, 7) } } :=
  fun h => absurd h.order_lt (by decide +kernel)
theorem test_refuses_repeated_point : ¬ Params.WellFormed { testCfg with curve := { points := [(0, 7), (0, 7)] } } :=
  fun h => absurd h.points_distinct (by decide)
theorem test_refuses_wide_coordinate : ¬ Params.WellFormed
    { testCfg with sb := 1, curve := { points := [(256, 7)] } } := fun h => absurd h.coord_lt (by decide)

/-- SHA-1 with the two digests that vector M14 of spec/95_test_vectors.md contains, of "foo" and the counters 0 and 1. -/
def sha1Foo : HashAlg :=
  { HashAlg.sha1 with
    fn := .listed
      [([0x66, 0x6f, 0x6f, 0, 0, 0, 0],
          [0x1a, 0xc9, 0x07, 0x5c, 0xd4, 0x27, 0xbc, 0x90, 0xb4, 0x8a] ++
            [0x99, 0x66, 0x82, 0x8c, 0xab, 0x4a, 0x04, 0xc2, 0x3f, 0xdf]),
        ([0x66, 0x6f, 0x6f, 0, 0, 0, 1],
          [0x4c, 0x5e, 0xc5, 0xc9, 0xa2, 0x50, 0x33, 0xca, 0xfc, 0x76] ++
            [0xff, 0x87, 0x18, 0x55, 0xdf, 0xe5, 0x7a, 0xb3, 0x43, 0xe1])] }

/-- Vector M13: a supplied SHA-1 makes the mask of "foo" of 21 bytes, across its block length. -/
theorem test_mask_of_supplied_hash : mgf1 sha1Foo [0x66, 0x6f, 0x6f] 21 =
    [0x1a, 0xc9, 0x07, 0x5c, 0xd4, 0x27, 0xbc, 0x90, 0xb4, 0x8a] ++
      [0x99, 0x66, 0x82, 0x8c, 0xab, 0x4a, 0x04, 0xc2, 0x3f, 0xdf, 0x4c] := by decide +kernel

/-! ### Command words (R56, R59, R60) -/

theorem test_word_not_started : canonicalWord 0b0000_0000_0001_000_0 = false := by decide
theorem test_word_cmd_zero : canonicalWord 0b0000_0000_0000_000_1 = false := by decide
theorem test_word_cmd_six : canonicalWord 0b0000_0000_0110_000_1 = false := by decide
theorem test_word_reserved_low : canonicalWord 0b0000_0000_0001_010_1 = false := by decide
theorem test_word_reserved_high : canonicalWord 0b1_0000_0000_0001_000_1 = false := by decide

theorem test_decode_sm2Sign : decode 0b0000_0000_0001_000_1 = .ok (.sm2Sign 0 0) := by decide
theorem test_decode_sm2Verify : decode 0b0000_0000_0010_000_1 = .ok (.sm2Verify 0 0) := by decide
theorem test_decode_mgf1 : decode 0b1111_0011_0011_000_1 = .ok (.mgf1 3 15) := by decide
theorem test_decode_oaepEnc : decode 0b0001_0110_0100_000_1 = .ok (.oaepEnc 6 1) := by decide
theorem test_decode_oaepDec : decode 0b1010_0101_0101_000_1 = .ok (.oaepDec 5 10) := by decide
theorem test_decode_ignores : decode 0b1111111111111111_1010_0101_0101_111_1 = .ok (.oaepDec 5 10) := by decide
theorem test_decode_stopped : decode 0b0000_0000_0001_000_0 = .error .notStarted := by decide
theorem test_decode_reserved : decode 0b0000_0000_0110_000_1 = .error (.reservedCmd 6) := by decide
theorem test_decode_bytes : decodeBytes [0x31, 0xF3, 0x00, 0x00] = .ok (.mgf1 3 15) := by decide
theorem test_decode_short : decodeBytes [0x31, 0xF3] = .error .notAWord := by decide
theorem test_decode_table : [0x11, 0x21, 0x31, 0x41, 0x51, 0x61].map (decodeTableWord 32) =
    [some (.sm2Sign 0 0), some (.sm2Verify 0 0), some (.mgf1 0 0), some (.oaepEnc 0 0), some (.oaepDec 0 0), none] := by
  decide

/-- The command words of the table are accepted as the first operation after reset (R57, R134). -/
theorem test_first_command : [0x11, 0x21, 0x31, 0x41, 0x51].map (fun w =>
    match step (State.reset.withFetchWord 32 w) with
    | .next t => (t.ctrl.cmd, t.phase)
    | _ => (0, .idle)) =
    [(1, .check), (2, .check), (3, .check), (4, .check), (5, .check)] := by decide

/-! ### Small states -/

def noDraws : Draws := { fails := [], ranges := [], bytes := [], used := 0 }

/-- Draws with n provider calls that do not fail. -/
def calls (n : Nat) : Draws := { noDraws with fails := List.replicate n false }

/-- Draws whose next provider call fails. -/
def failing : Draws := { noDraws with fails := [true] }

/-- An IDLE block. -/
def idle : State := State.resetWith miniCfg [] noDraws

/-- A block running a command in a phase. -/
def busy (i : Instr) (p : Phase) : State :=
  { idle with ctrl := { cmd := i.cmd, hsel := i.hsel, msel := i.msel }, phase := p }

/-- The next state of a command's step; the state itself where it does not answer one. -/
def after (i : Instr) (s : State) : State :=
  match exec i s with
  | .next t => t
  | _ => s

/-! ### The worked examples, one step each -/

/-- SM2_SIGN in S_RS with e = 7, dA = 5, k = 3 (R68). -/
def signRsState : State :=
  { busy (.sm2Sign 0 0) .sRs with
    eLen := 1, mem := [(0x100, 7), (0x180, 5)], w := { Working.zero with n := 29, e := 7, k := 3, x1 := 21 },
    draws := calls 2 }

/-- The worked example of R68: r = 28 and s = 11, and DA cleared. -/
theorem test_sign_worked_example :
    let t := after (.sm2Sign 0 0) signRsState
    (t.err, scalar t .r, scalar t .s, scalar t .da, t.done, t.phase) = (.ok, 28, 11, 0, true, .idle) := by
  decide +kernel

/-- e = 7, dA = 5, k = 4 give r = 24 and s = 0, and a fresh draw (spec/90_conflicts.md C2). -/
theorem test_sign_redraws_on_s_zero :
    let t := after (.sm2Sign 0 0) { signRsState with w := { signRsState.w with k := 4, x1 := 17 } }
    (t.phase, t.w.r, t.w.s, t.done) = (.sDraw, 24, 0, false) := by decide +kernel

/-- SM2_VERIFY in V_MUL with r = 28, s = 11 and PA = 5G (R77). -/
def verifyMulState : State :=
  { busy (.sm2Verify 0 0) .vMul with
    eLen := 1, mem := [(0x100, 7), (0x200, 28), (0x280, 11), (0x300, 36), (0x380, 26)],
    w := { Working.zero with n := 29, e := 7, r := 28, s := 11, t := 10 }, draws := calls 1 }

/-- The worked example of R77: the sum is 3G, with x-coordinate 21. -/
theorem test_verify_worked_sum :
    let t := after (.sm2Verify 0 0) verifyMulState
    (t.phase, t.w.x1) = (.vCmp, 21) := by decide +kernel

/-- The worked example of R77: (7 + 21) mod 29 = 28 = r is accepted. -/
theorem test_verify_worked_accept :
    let t := after (.sm2Verify 0 0)
      { verifyMulState with phase := .vCmp, w := { verifyMulState.w with x1 := 21 } }
    (t.err, t.valid, t.done, t.phase) = (.ok, true, true, .idle) := by decide +kernel

/-- MGF1 in M_BLOCK with seed 01 02 and TLEN = 5 (R89). -/
def mgf1State : State :=
  { busy (.mgf1 0 15) .mBlock with
    inLen := 2, tlen := 5, mem := [(0x1000, 1), (0x1001, 2)],
    w := { Working.zero with hs := 15, ms := 15, h := 2, hm := 2 }, draws := calls 1 }

/-- The worked example of R89: its first block. -/
theorem test_mgf1_worked_block :
    let t := after (.mgf1 0 15) mgf1State
    (t.phase, t.w.out, t.w.i) = (.mBlock, [0x5d, 0xaa], 1) := by decide +kernel

/-- The worked example of R89: its last block and the mask. -/
theorem test_mgf1_worked_mask :
    let t := after (.mgf1 0 15)
      { mgf1State with w := { mgf1State.w with out := [0x5d, 0xaa, 0x5e, 0xb0], i := 2 } }
    (t.err, t.outLen, t.winBytes .outBuf 8) = (.ok, 5, [0x5d, 0xaa, 0x5e, 0xb0, 0x5f, 0, 0, 0]) := by decide +kernel

/-- OAEP_ENC with tlen = 8, M = ab cd and an empty label, after E_DBMASK (R92). -/
def encState : State :=
  { busy (.oaepEnc 15 15) .eSeedmask with
    inLen := 2, tlen := 8, mem := [(0x1000, 0xab), (0x1001, 0xcd)],
    w := { Working.zero with
      hs := 15, ms := 15, h := 2, hm := 2, lhash := [0x5a, 0xa5], seed := [0x11, 0x22],
      db := [0xd7, 0x5f, 0x8f, 0xab, 0x42] },
    draws := calls 1 }

/-- The worked example of R92: lHash and DB. -/
theorem test_enc_worked_db :
    let t := after (.oaepEnc 15 15) { encState with phase := .eLhash }
    (t.phase, t.w.lhash, t.w.db) = (.eSeed, [0x5a, 0xa5], [0x5a, 0xa5, 0x01, 0xab, 0xcd]) := by decide +kernel

/-- The worked example of R92: the masked seed. -/
theorem test_enc_worked_seed :
    let t := after (.oaepEnc 15 15) encState
    (t.phase, t.w.seed, t.w.db) = (.eOut, [0x1d, 0xff], [0xd7, 0x5f, 0x8f, 0xab, 0x42]) := by decide +kernel

/-- OAEP_DEC of 00 1d ff d7 5f 8f ab 42, an empty label (R99). -/
def decState : State :=
  { busy (.oaepDec 15 15) .dPad with
    inLen := 8, tlen := 8,
    mem := [(0x1001, 0x1d), (0x1002, 0xff), (0x1003, 0xd7), (0x1004, 0x5f), (0x1005, 0x8f), (0x1006, 0xab),
      (0x1007, 0x42)],
    w := { Working.zero with hs := 15, ms := 15, h := 2, hm := 2 }, draws := calls 1 }

/-- The worked example of R99: the block taken apart. -/
theorem test_dec_worked_pad :
    let t := after (.oaepDec 15 15) decState
    (t.phase, t.w.good, t.w.bad, t.w.seed, t.w.db) =
      (.dSeedmask, true, false, [0x1d, 0xff], [0xd7, 0x5f, 0x8f, 0xab, 0x42]) := by decide +kernel

/-- OAEP_DEC in D_SCAN with the DB of R99's worked example. -/
def decScanState : State :=
  { decState with
    phase := .dScan,
    w := { decState.w with
      seed := [0x11, 0x22], lhash := [0x5a, 0xa5], db := [0x5a, 0xa5, 0x01, 0xab, 0xcd], good := true } }

/-- The worked example of R99: the message. -/
theorem test_dec_worked_message :
    let t := after (.oaepDec 15 15) decScanState
    (t.err, t.outLen, t.winBytes .outBuf 4) = (.ok, 2, [0xab, 0xcd, 0, 0]) := by decide +kernel

/-! ### Host scripts (R67) -/

/-- WAIT reads STATUS again while DONE is 0, and is over once it reads 1. -/
theorem test_wait :
    (match step { busy (.mgf1 0 0) .mBlock with inputs := scriptEvents miniCfg [(0, .waitDone [5])] } with
      | .next t => (t.bus, t.inputs)
      | _ => (.none, [])) = (.data 0x1, [{ wait := 5, op := .waitDone [] }]) ∧
      (match step { idle with done := true, inputs := scriptEvents miniCfg [(0, .waitDone [5])] } with
      | .next t => (t.bus, t.inputs)
      | _ => (.none, [])) = (.data 0x2, []) := by decide +kernel

/-- RBYTES of five bytes of OUT_BUF: lane i mod 4 of word ⌊i/4⌋. -/
theorem test_rbytes :
    rbytesResult 5 2
      { idle with
        mem := [(0x2000, 0x11), (0x2002, 0x33), (0x2003, 0x44), (0x2004, 0x55), (0x2005, 0x66)]
        inputs := scriptEvents miniCfg (((Pseudo.rbytes .outBuf 5).expand miniCfg).map fun l => (0, l)) } =
      [0x11, 0, 0x33, 0x44, 0x55] := by decide +kernel

/-! ### Checking that a state is one a command runs in -/

/-- The fields of `State.Consistent` but the instance's. -/
def consistentCheck (s : State) : Bool :=
  Memory.wf s.mem && decide (∀ c ∈ s.mem, isStorage s.cfg c.1 = true) &&
    decide (s.phase = .idle → s.w = Working.zero) && phaseOf s.ctrl.cmd s.phase &&
    decide (s.phase ≠ .idle → s.done = false ∧ s.valid = false ∧ s.err = .ok ∧ s.outLen = 0) &&
    decide (s.valid = true → s.err = .ok ∧ s.ctrl.cmd = 2) && decide (s.err ≠ .digest)

theorem consistent_of_check {s : State} (hc : s.cfg.WellFormed) (h : consistentCheck s = true) : s.Consistent := by
  simp only [consistentCheck, Bool.and_eq_true, decide_eq_true_eq] at h
  obtain ⟨⟨⟨⟨⟨⟨h1, h2⟩, h3⟩, h4⟩, h5⟩, h6⟩, h7⟩ := h
  exact ⟨hc, h1, h2, h3, h4, h5, h6, h7⟩

/-- The fields of `State.InFlight`. -/
def inFlightCheck (s : State) : Bool :=
  decide (s.phase = .check → s.w = Working.zero) &&
  decide (s.phase.signing = true ∨ s.phase.verifying = true →
    s.w.n = s.cfg.curve.order ∧ s.w.e = scalarE s ∧ s.eLen.toNat ≤ s.cfg.emax) &&
  decide (s.phase.signing = true → 1 ≤ scalar s .da ∧ scalar s .da + 2 ≤ s.w.n) &&
  decide (s.phase.signing = true → s.w.k < s.w.n ∧ s.w.x1 < 256 ^ s.cfg.sb ∧ s.w.r < s.w.n ∧ s.w.s < s.w.n) &&
  decide (s.phase = .sMulg ∨ s.phase = .sRs → 1 ≤ s.w.k) &&
  decide (s.phase = .sRs → ecMulG s.cfg.curve s.w.k = some s.w.x1) &&
  decide (s.phase.verifying = true → s.w.r = scalar s .r ∧ s.w.s = scalar s .s) &&
  decide (s.phase = .vMul ∨ s.phase = .vCmp →
    1 ≤ s.w.r ∧ s.w.r < s.w.n ∧ 1 ≤ s.w.s ∧ s.w.s < s.w.n ∧ s.w.t = (s.w.r + s.w.s) % s.w.n ∧ s.w.t ≠ 0) &&
  decide (s.phase = .vCmp →
    ecMul2 s.cfg.curve s.w.s s.w.t (scalar s .paX, scalar s .paY) = some (.affine s.w.x1)) &&
  decide (s.phase = .mBlock ∨ s.phase.encoding = true ∨ s.phase.decoding = true →
    s.w.ms = resolvedMs s ∧ validSel s s.w.ms = true ∧ s.w.hm = hlen s.cfg s.w.ms ∧
      s.inLen.toNat ≤ s.cfg.bmax ∧ s.tlen.toNat ≤ s.cfg.bmax ∧ s.tlen ≠ 0) &&
  decide (s.phase.encoding = true ∨ s.phase.decoding = true →
    s.w.hs = resolvedHs s ∧ validSel s s.w.hs = true ∧ s.w.h = hlen s.cfg s.w.hs ∧
      s.labelLen.toNat ≤ s.cfg.lmax ∧ 2 * s.w.h + 2 ≤ s.tlen.toNat) &&
  decide (s.phase.encoding = true → s.inLen.toNat + 2 * s.w.h + 2 ≤ s.tlen.toNat) &&
  decide (s.phase = .eDbmask ∨ s.phase = .eSeedmask ∨ s.phase = .eOut ∨
    (s.phase.decoding = true ∧ s.phase ≠ .dPad) → s.w.seed.length = s.w.h) &&
  decide ((s.phase.encoding = true ∧ s.phase ≠ .eLhash) ∨ (s.phase.decoding = true ∧ s.phase ≠ .dPad) →
    s.w.db.length = dblen s) &&
  decide (∀ L ∈ maskLength s, s.w.out.length < L)

theorem inFlight_of_check {s : State} (h : inFlightCheck s = true) : s.InFlight := by
  simp only [inFlightCheck, Bool.and_eq_true, decide_eq_true_eq] at h
  obtain ⟨⟨⟨⟨⟨⟨⟨⟨⟨⟨⟨⟨⟨⟨h1, h2⟩, h3⟩, h4⟩, h5⟩, h6⟩, h7⟩, h8⟩, h9⟩, h10⟩, h11⟩, h12⟩, h13⟩, h14⟩, h15⟩ := h
  exact ⟨h1, h2, h3, h4, h5, h6, h7, h8, h9, h10, h11, h12, h13, h14, h15⟩

/-- The check behind `Running`, for a state of the small instance. -/
def runningCheck (i : Instr) (p : Phase) (s : State) : Bool :=
  decide (s.cfg = miniCfg) && consistentCheck s && inFlightCheck s &&
    decide (s.ctrl = { cmd := i.cmd, hsel := i.hsel, msel := i.msel }) && decide (s.phase = p)

theorem running_of_check {i : Instr} {p : Phase} {s : State} (h : runningCheck i p s = true) : Running i p s := by
  simp only [runningCheck, Bool.and_eq_true, decide_eq_true_eq] at h
  obtain ⟨⟨⟨⟨hc, h1⟩, h2⟩, h3⟩, h4⟩ := h
  exact ⟨consistent_of_check (hc ▸ test_miniCfg_wellFormed) h1, inFlight_of_check h2, h3, h4⟩


/-- The states of a list run this command in this phase and meet a premise. -/
theorem running_all {i : Instr} {p : Phase} {Q : State → Prop} [DecidablePred Q] {l : List State}
    (h : (l.all fun s => runningCheck i p s && decide (Q s)) = true) : ∀ s ∈ l, Running i p s ∧ Q s := by
  intro s hs
  have := List.all_eq_true.1 h s hs
  rw [Bool.and_eq_true, decide_eq_true_eq] at this
  exact ⟨running_of_check this.1, this.2⟩

/-- Whether an outcome is this next state. -/
def isNext (o : Host.Outcome State Fault Refusal) (t : State) : Bool :=
  match o with
  | .next u => decide (u = t)
  | .fault _ => false
  | .refused _ => false

theorem eq_next_of_isNext {o : Host.Outcome State Fault Refusal} {t : State} (h : isNext o t = true) : o = .next t := by
  cases o with
  | next u => exact congrArg _ (of_decide_eq_true h)
  | fault r => cases h
  | refused r => cases h

/-! ### Witnesses: host accesses

`hostIdle op` and `hostBusy op` are an IDLE and a BUSY block whose next operation is op; BASE is 0x4000. -/

def hostIdle (op : HostOp) : State := { idle with inputs := [{ wait := 0, op := op }] }

def hostBusy (op : HostOp) : State := { busy (.sm2Sign 0 0) .check with inputs := [{ wait := 0, op := op }] }

theorem hostNext_hostIdle (op : HostOp) : HostNext op [] (hostIdle op) := ⟨0, rfl, .inl rfl⟩

theorem hostNext_hostBusy (op : HostOp) : HostNext op [] (hostBusy op) := ⟨0, rfl, .inl rfl⟩

theorem consistent_idle (inputs : List HostEvent) : ({ idle with inputs := inputs } : State).Consistent :=
  consistent_of_check test_miniCfg_wellFormed rfl

theorem consistent_hostBusy (op : HostOp) : (hostBusy op).Consistent :=
  consistent_of_check test_miniCfg_wellFormed rfl

theorem witness_DecodeInvertsEncode : (Instr.oaepDec 15 15).wf = true := rfl

theorem witness_StepRunsDecodedCommand :
    (HostNext (.write (idle.cfg.base + 0x010) 4 0x31) [] (hostIdle (.write 0x4010 4 0x31)) ∧
        (hostIdle (.write 0x4010 4 0x31)).phase = .idle ∧ decode 0x31 = .ok (.mgf1 0 0)) ∧
      ((busy (.mgf1 0 0) .check).inputs = [] ∧ (busy (.mgf1 0 0) .check).phase ≠ .idle ∧
        Latched (.mgf1 0 0) (busy (.mgf1 0 0) .check)) ∧
      (∃ s : State, s.inputs = [{ wait := 0 + 1, op := .reset }] ∧ s.phase ≠ .idle ∧ Latched (.mgf1 0 0) s) :=
  ⟨⟨hostNext_hostIdle _, rfl, by decide⟩, ⟨rfl, by decide, rfl⟩,
    ⟨{ busy (.mgf1 0 0) .check with inputs := [{ wait := 1, op := .reset }] }, rfl, by decide, rfl⟩⟩

theorem witness_CommandIsAccepted : idle.phase = .idle := rfl

theorem witness_CtrlWriteStartsCommand :
    (HostNext (.write (idle.cfg.base + 0x010) 4 0xFFFFFFFF) [] (hostIdle (.write 0x4010 4 0xFFFFFFFF)) ∧
        (hostIdle (.write 0x4010 4 0xFFFFFFFF)).phase = .idle ∧ (0xFFFFFFFF : Word).getLsbD 0 = true) ∧
      HostNext (.write (idle.cfg.base + 0x010) 4 0xFFFFFFFE) [] (hostIdle (.write 0x4010 4 0xFFFFFFFE)) ∧
        (hostIdle (.write 0x4010 4 0xFFFFFFFE)).phase = .idle ∧ (0xFFFFFFFE : Word).getLsbD 0 = false :=
  ⟨⟨hostNext_hostIdle _, rfl, by decide⟩, hostNext_hostIdle _, rfl, by decide⟩

theorem witness_CtrlWriteWhileBusyIgnored :
    HostNext (.write (idle.cfg.base + 0x010) 4 0x21) [] (hostBusy (.write 0x4010 4 0x21)) ∧
      (hostBusy (.write 0x4010 4 0x21)).phase ≠ .idle := ⟨hostNext_hostBusy _, by decide⟩

/-- With an empty queue and with one whose head still waits. -/
theorem witness_ReservedCommandIsBadCmd : ∀ cmd ∈ [(0 : Sel), 6, 15],
    ∀ inputs ∈ [[], [{ wait := 0 + 1, op := HostOp.reset }]],
    ∃ s : State, s.phase = .check ∧ s.inputs = inputs ∧ s.ctrl.cmd = cmd ∧
      (s.ctrl.cmd = 0 ∨ 6 ≤ s.ctrl.cmd.toNat) := by
  intro cmd h inputs _
  refine ⟨{ idle with ctrl := { cmd := cmd, hsel := 0, msel := 0 }, phase := .check, inputs := inputs }, rfl, rfl, rfl, ?_⟩
  change cmd = 0 ∨ 6 ≤ cmd.toNat
  revert cmd
  decide

theorem witness_IllegalAccessIsBusError :
    (∀ op ∈ [HostOp.read (idle.cfg.base + 0x3FFD) 4, .read (idle.cfg.base + 0x3FFC) 2], HostNext op [] (hostIdle op)) ∧
      ¬ (4 = 4 ∧ 0x3FFD % 4 = 0) ∧ ¬ (2 = 4 ∧ 0x3FFC % 4 = 0) ∧
      HostNext (.write (idle.cfg.base + 0x3FFC) 4 0) [] (hostIdle (.write 0x7FFC 4 0)) ∧ (4 = 4 ∧ 0x3FFC % 4 = 0) :=
  ⟨fun op _ => hostNext_hostIdle op, by decide, by decide, hostNext_hostIdle _, by decide⟩

theorem witness_RegistersReadAsTheirFields :
    idle.cfg.WellFormed ∧ HostNext (.read (idle.cfg.base + 0x000) 4) [] (hostIdle (.read 0x4000 4)) ∧
      HostNext (.read (idle.cfg.base + 0x034) 4) [] (hostBusy (.read 0x4034 4)) :=
  ⟨test_miniCfg_wellFormed, hostNext_hostIdle _, hostNext_hostBusy _⟩

theorem witness_WindowsReadTheirBytes :
    (Win.eBuf.base ≤ 0x100 ∧ 0x100 < Win.eBuf.base + Win.eBuf.span ∧ 0x100 % 4 = 0 ∧
        HostNext (.read (idle.cfg.base + 0x100) 4) [] (hostIdle (.read 0x4100 4))) ∧
      (Win.outBuf.base ≤ 0x2FFC ∧ 0x2FFC < Win.outBuf.base + Win.outBuf.span ∧ 0x2FFC % 4 = 0 ∧
        HostNext (.read (idle.cfg.base + 0x2FFC) 4) [] (hostBusy (.read 0x6FFC 4))) :=
  ⟨⟨by decide, by decide, by decide, hostNext_hostIdle _⟩, by decide, by decide, by decide, hostNext_hostBusy _⟩

theorem witness_ReservedOffsetsReadZero : ∀ off ∈ [0x00C, 0x01C, 0x038, 0x0FC, 0x400, 0xFFC],
    off % 4 = 0 ∧ (off = 0x00C ∨ off = 0x01C ∨ (0x038 ≤ off ∧ off < 0x100) ∨ (0x400 ≤ off ∧ off < 0x1000)) ∧
      (∃ s, HostNext (.read (s.cfg.base + off) 4) [] s) ∧ ∃ s, HostNext (.write (s.cfg.base + off) 4 1) [] s := by
  intro off h
  refine ⟨?_, ?_, ⟨hostIdle (.read (0x4000 + off) 4), hostNext_hostIdle _⟩,
    hostIdle (.write (0x4000 + off) 4 1), hostNext_hostIdle _⟩ <;> revert off <;> decide

theorem witness_WindowWriteStoresItsLanes :
    (hostIdle (.write 0x7FFC 4 1)).Consistent ∧ Win.labelBuf ≠ .outBuf ∧ Win.labelBuf.base ≤ 0x3FFC ∧
      0x3FFC < Win.labelBuf.base + Win.labelBuf.span ∧ 0x3FFC % 4 = 0 ∧ (hostIdle (.write 0x7FFC 4 1)).phase = .idle ∧
      HostNext (.write (idle.cfg.base + 0x3FFC) 4 1) [] (hostIdle (.write 0x7FFC 4 1)) :=
  ⟨consistent_idle _, by decide, by decide, by decide, by decide, rfl, hostNext_hostIdle _⟩

/-- The ignored writes: the read-only registers, and both ends of OUT_BUF. -/
theorem witness_WindowWriteStoresItsLanes_ignored :
    ∀ off ∈ [0x000, 0x004, 0x008, 0x030, 0x034, 0x2000, 0x2FFC],
      (hostIdle (.write (0x4000 + off) 4 1)).Consistent ∧ off % 4 = 0 ∧
        (hostIdle (.write (0x4000 + off) 4 1)).phase = .idle ∧
        HostNext (.write (idle.cfg.base + off) 4 1) [] (hostIdle (.write (0x4000 + off) 4 1)) ∧
        (off ∈ [0x000, 0x004, 0x008, 0x030, 0x034] ∨ (0x2000 ≤ off ∧ off < 0x3000)) := by
  intro off h
  refine ⟨consistent_idle _, ?_, rfl, hostNext_hostIdle _, ?_⟩ <;> revert off <;> decide

/-- The last offset of each clause of the statement, and the first window offset beyond a capacity. -/
theorem witness_BusyLockKeepsOperands : ∀ off ∈ [0x010, 0x02C, 0x100, 0x014, 0x018, 0x034, 0x2FFC, 0xFFC, 0x104],
    off % 4 = 0 ∧
      (hostBusy (.write (0x4000 + off) 4 1)).phase ≠ .idle ∧
      HostNext (.write (idle.cfg.base + off) 4 1) [] (hostBusy (.write (0x4000 + off) 4 1)) := by
  intro off h
  refine ⟨?_, (by decide : Phase.check ≠ .idle), hostNext_hostBusy _⟩
  revert off
  decide

theorem witness_BusyLockKeepsOperands_windows :
    (Win.eBuf ≠ .outBuf ∧ Win.eBuf.base ≤ 0x100 ∧ 0x100 < Win.eBuf.base + Win.eBuf.span ∧
        0x100 < Win.eBuf.base + Win.eBuf.capacity miniCfg) ∧
      Win.eBuf.base ≤ 0x104 ∧ 0x104 < Win.eBuf.base + Win.eBuf.span ∧ Win.eBuf.base + Win.eBuf.capacity miniCfg ≤ 0x104 := by
  decide

theorem witness_StatusWriteAcknowledges :
    HostNext (.write (idle.cfg.base + 0x014) 4 0xA) [] (hostIdle (.write 0x4014 4 0xA)) ∧
      (0xA : Word).getLsbD 1 = true := ⟨hostNext_hostIdle _, by decide⟩

theorem witness_IrqEnableHoldsItsBit :
    HostNext (.write (idle.cfg.base + 0x018) 4 1) [] (hostBusy (.write 0x4018 4 1)) ∧
      HostNext (.read (idle.cfg.base + 0x018) 4) [] (hostIdle (.read 0x4018 4)) ∧
      HostNext .reset [] (hostBusy .reset) := ⟨hostNext_hostBusy _, hostNext_hostIdle _, hostNext_hostBusy _⟩

theorem witness_LengthRegistersStoreAsWritten : ∀ off ∈ [0x020, 0x024, 0x028, 0x02C],
    (hostIdle (.write (0x4000 + off) 4 0xFFFFFFFF)).phase = .idle ∧
      HostNext (.write (idle.cfg.base + off) 4 0xFFFFFFFF) [] (hostIdle (.write (0x4000 + off) 4 0xFFFFFFFF)) :=
  fun _ _ => ⟨rfl, hostNext_hostIdle _⟩

theorem witness_ResetSetsEveryState : HostNext .reset [] (hostBusy .reset) := hostNext_hostBusy _

theorem witness_ScalarScriptStoresItsValue :
    ∃ s : State, s.Consistent ∧ s.phase = .idle ∧ Win.paY ∈ [Win.da, .r, .s, .paX, .paY] ∧ 255 < 256 ^ s.cfg.sb ∧
      s.inputs = scriptEvents s.cfg (((Pseudo.wscalar .paY 255).expand s.cfg).map fun line => (0, line)) ++ [] :=
  ⟨{ idle with inputs := scriptEvents miniCfg (((Pseudo.wscalar .paY 255).expand miniCfg).map fun l => (0, l)) ++ [] },
    consistent_idle _, rfl, by decide, by decide, rfl⟩

/-! ### Witnesses: SM2_SIGN -/

/-- SM2_SIGN at CHECK with e = 7 and this dA. -/
def signCheckState (dA : Byte) (d : Draws) : State :=
  { busy (.sm2Sign 0 0) .check with eLen := 1, mem := [(0x100, 7)] ++ (if dA = 0 then [] else [(0x180, dA)]), draws := d }

theorem witness_SignCheckOutcome_alloc : ∀ s ∈ [{ signCheckState 5 noDraws with eLen := 2 }],
    Running (.sm2Sign 0 0) .check s ∧ s.cfg.emax < s.eLen.toNat := running_all (by decide +kernel)

theorem witness_SignCheckOutcome_arith :
    ∀ s ∈ [signCheckState 5 failing, signCheckState 0 (calls 1), signCheckState 28 (calls 1)],
      Running (.sm2Sign 0 0) .check s ∧ (s.eLen.toNat ≤ s.cfg.emax ∧
        (s.callFails = true ∨ scalar s .da = 0 ∨ s.cfg.curve.order ≤ scalar s .da + 1)) :=
  running_all (by decide +kernel)

theorem witness_SignCheckOutcome_goes_on : ∀ s ∈ [signCheckState 1 (calls 1), signCheckState 27 (calls 1)],
    Running (.sm2Sign 0 0) .check s ∧ (s.eLen.toNat ≤ s.cfg.emax ∧ s.callFails = false ∧ 1 ≤ scalar s .da ∧
      scalar s .da + 2 ≤ s.cfg.curve.order) := running_all (by decide +kernel)

/-- SM2_SIGN in S_DRAW with e = 7 and dA = 5. -/
def signDrawState (d : Draws) : State :=
  { busy (.sm2Sign 0 0) .sDraw with
    eLen := 1, mem := [(0x100, 7), (0x180, 5)], w := { Working.zero with n := 29, e := 7 }, draws := d }

theorem witness_SignDrawOutcome_rng : ∀ s ∈ [signDrawState failing],
    Running (.sm2Sign 0 0) .sDraw s ∧ s.callFails = true := running_all (by decide +kernel)

/-- The draws at the bounds of the clauses: n, 0, 1 and n − 1. -/
theorem witness_SignDrawOutcome_draws :
    ∀ s ∈ [29, 0, 1, 28].map fun k => signDrawState { calls 1 with ranges := [k] },
      Running (.sm2Sign 0 0) .sDraw s ∧ s.callFails = false := running_all (by decide +kernel)

theorem witness_SignMulgOutcome :
    (∀ s ∈ [{ signDrawState failing with phase := .sMulg, w := { Working.zero with n := 29, e := 7, k := 28 } }],
        Running (.sm2Sign 0 0) .sMulg s ∧ s.callFails = true) ∧
      ∀ s ∈ [{ signDrawState (calls 1) with phase := .sMulg, w := { Working.zero with n := 29, e := 7, k := 28 } }],
        Running (.sm2Sign 0 0) .sMulg s ∧ s.callFails = false :=
  ⟨running_all (by decide +kernel), running_all (by decide +kernel)⟩

/-- The faults of S_RS: at the first and at the second of its lines. -/
theorem witness_SignRsOutcome_arith :
    (∀ s ∈ [{ signRsState with draws := failing }], Running (.sm2Sign 0 0) .sRs s ∧ s.callFails = true) ∧
      ∀ s ∈ [{ signRsState with draws := { noDraws with fails := [false, true] } }],
        Running (.sm2Sign 0 0) .sRs s ∧
          (s.callFails = false ∧ (s.w.e + s.w.x1) % s.w.n ≠ 0 ∧ (s.w.e + s.w.x1) % s.w.n + s.w.k ≠ s.w.n ∧
            s.drawn.callFails = true) :=
  ⟨running_all (by decide +kernel), running_all (by decide +kernel)⟩

/-- The rejections of S_RS: r = 0 with e = 8, k = 3; r + k = n with e = 5, k = 3. -/
theorem witness_SignRsOutcome_rejects :
    ∀ s ∈ [{ signRsState with mem := [(0x100, 8), (0x180, 5)], w := { signRsState.w with e := 8 } },
        { signRsState with mem := [(0x100, 5), (0x180, 5)], w := { signRsState.w with e := 5 } }],
      Running (.sm2Sign 0 0) .sRs s ∧
        (s.callFails = false ∧ ((s.w.e + s.w.x1) % s.w.n = 0 ∨ (s.w.e + s.w.x1) % s.w.n + s.w.k = s.w.n)) :=
  running_all (by decide +kernel)

/-- The two ends of S_RS: s = 0 with k = 4, and the signature of the worked example. -/
theorem witness_SignRsOutcome_signs :
    ∀ s ∈ [{ signRsState with w := { signRsState.w with k := 4, x1 := 17 } }, signRsState],
      Running (.sm2Sign 0 0) .sRs s ∧
        (s.callFails = false ∧ (s.w.e + s.w.x1) % s.w.n ≠ 0 ∧ (s.w.e + s.w.x1) % s.w.n + s.w.k ≠ s.w.n ∧
          s.drawn.callFails = false) := running_all (by decide +kernel)

theorem running_signRsState : Running (.sm2Sign 0 0) .sRs signRsState := running_of_check (by decide +kernel)

theorem witness_SignatureIsInRange :
    Running (.sm2Sign 0 0) .sRs signRsState ∧ Phase.sRs ≠ .idle ∧
      exec (.sm2Sign 0 0) signRsState = .next (after (.sm2Sign 0 0) signRsState) ∧
      (after (.sm2Sign 0 0) signRsState).phase = .idle ∧ (after (.sm2Sign 0 0) signRsState).err = .ok :=
  ⟨running_signRsState, by decide, eq_next_of_isNext (by decide +kernel), by decide +kernel, by decide +kernel⟩

/-- k = 4 is rejected for e = 7 and dA = 5, as s = 0. -/
theorem rejected_four {s : State} (hc : s.cfg.curve = tc29) (he : scalarE s = 7) (hd : scalar s .da = 5) :
    Rejected s 4 := by
  refine .inr ⟨by rw [hc]; decide, 24, 0, ⟨(17, 13), by rw [hc]; rfl, by rw [hc, he]; decide⟩, ?_, .inr (.inr rfl)⟩
  rw [hc, hd]
  exact ⟨5, by decide, by decide, by decide, by decide⟩

theorem witness_RejectedDrawsKeepSigning :
    ∃ s : State, Running (.sm2Sign 0 0) .sDraw s ∧ s.inputs = [] ∧ (∀ k ∈ [0, 4], Rejected s k) ∧
      s.draws.ranges = [0, 4] ++ [] ∧ NoFail (4 * [0, 4].length) [] s := by
  refine ⟨signDrawState { calls 8 with ranges := [0, 4] }, running_of_check (by decide +kernel), rfl, ?_, rfl, rfl⟩
  intro k hk
  rcases List.mem_cons.1 hk with rfl | hk
  · exact .inl rfl
  · rw [List.mem_singleton.1 hk]; exact rejected_four rfl (by decide +kernel) (by decide +kernel)

theorem witness_SignRunsToItsSignature :
    ∃ s : State, Running (.sm2Sign 0 0) .check s ∧ s.inputs = [] ∧ s.eLen.toNat ≤ s.cfg.emax ∧ 1 ≤ scalar s .da ∧
      scalar s .da + 2 ≤ s.cfg.curve.order ∧ (∀ k ∈ [0, 4], Rejected s k) ∧ 3 < s.cfg.curve.order ∧ IsSigR s 3 28 ∧
      IsSigS s.cfg.curve.order (scalar s .da) 3 28 11 ∧ 28 + 3 ≠ s.cfg.curve.order ∧
      s.draws.ranges = [0, 4] ++ 3 :: [] ∧ NoFail (4 * [0, 4].length + 5) [] s := by
  refine ⟨signCheckState 5 { calls 13 with ranges := [0, 4, 3] }, running_of_check (by decide +kernel), rfl, by decide,
    by decide +kernel, by decide +kernel, ?_, by decide, ⟨(21, 28), rfl, by decide +kernel⟩,
    ⟨5, by decide, by decide, by decide +kernel, by decide +kernel⟩, by decide, rfl, rfl⟩
  intro k hk
  rcases List.mem_cons.1 hk with rfl | hk
  · exact .inl rfl
  · rw [List.mem_singleton.1 hk]; exact rejected_four rfl (by decide +kernel) (by decide +kernel)

/-! ### Witnesses: SM2_VERIFY -/

/-- SM2_VERIFY at CHECK with e = 7, r = 28, s = 11 and PA = 5G. -/
def verifyCheckState (d : Draws) : State :=
  { verifyMulState with phase := .check, w := Working.zero, draws := d }

theorem witness_SignThenVerifyAccepts :
    Running (.sm2Sign 0 0) .sRs signRsState ∧
      exec (.sm2Sign 0 0) signRsState = .next (after (.sm2Sign 0 0) signRsState) ∧
      (after (.sm2Sign 0 0) signRsState).phase = .idle ∧ (after (.sm2Sign 0 0) signRsState).err = .ok ∧
      Running (.sm2Verify 0 0) .check (verifyCheckState (calls 4)) ∧ (verifyCheckState (calls 4)).inputs = [] ∧
      (verifyCheckState (calls 4)).cfg = signRsState.cfg ∧
      (verifyCheckState (calls 4)).eLen.toNat ≤ (verifyCheckState (calls 4)).cfg.emax ∧
      scalarE (verifyCheckState (calls 4)) = scalarE signRsState ∧
      scalar (verifyCheckState (calls 4)) .r = scalar (after (.sm2Sign 0 0) signRsState) .r ∧
      scalar (verifyCheckState (calls 4)) .s = scalar (after (.sm2Sign 0 0) signRsState) .s ∧
      multipleOfG signRsState.cfg.curve (scalar signRsState .da) =
        some (scalar (verifyCheckState (calls 4)) .paX, scalar (verifyCheckState (calls 4)) .paY) ∧
      NoFail 4 [] (verifyCheckState (calls 4)) :=
  ⟨running_signRsState, eq_next_of_isNext (by decide +kernel), by decide +kernel, by decide +kernel,
    running_of_check (by decide +kernel), rfl, rfl, by decide, by decide +kernel, by decide +kernel, by decide +kernel,
    by decide +kernel, rfl⟩

theorem witness_VerifyCheckOutcome :
    (∀ s ∈ [{ verifyCheckState noDraws with eLen := 2 }],
        Running (.sm2Verify 0 0) .check s ∧ s.cfg.emax < s.eLen.toNat) ∧
      (∀ s ∈ [verifyCheckState failing],
        Running (.sm2Verify 0 0) .check s ∧ (s.eLen.toNat ≤ s.cfg.emax ∧ s.callFails = true)) ∧
      ∀ s ∈ [verifyCheckState (calls 1)],
        Running (.sm2Verify 0 0) .check s ∧ (s.eLen.toNat ≤ s.cfg.emax ∧ s.callFails = false) :=
  ⟨running_all (by decide +kernel), running_all (by decide +kernel), running_all (by decide +kernel)⟩

/-- SM2_VERIFY in V_RANGE with these r and s. -/
def verifyRangeState (r sv : Byte) (d : Draws) : State :=
  { busy (.sm2Verify 0 0) .vRange with
    eLen := 1
    mem := [(0x100, 7)] ++ (if r = 0 then [] else [(0x200, r)]) ++ (if sv = 0 then [] else [(0x280, sv)])
    w := { Working.zero with n := 29, e := 7, r := r.toNat, s := sv.toNat }
    draws := d }

theorem witness_VerifyRangeOutcome_rejects :
    ∀ s ∈ [verifyRangeState 0 11 noDraws, verifyRangeState 29 11 noDraws, verifyRangeState 28 0 noDraws,
        verifyRangeState 28 29 noDraws],
      Running (.sm2Verify 0 0) .vRange s ∧ (s.w.r = 0 ∨ s.w.n ≤ s.w.r ∨ s.w.s = 0 ∨ s.w.n ≤ s.w.s) :=
  running_all (by decide +kernel)

theorem witness_VerifyRangeOutcome_in_range :
    (∀ s ∈ [verifyRangeState 1 28 failing], Running (.sm2Verify 0 0) .vRange s ∧
        (1 ≤ s.w.r ∧ s.w.r < s.w.n ∧ 1 ≤ s.w.s ∧ s.w.s < s.w.n ∧ s.callFails = true)) ∧
      (∀ s ∈ [verifyRangeState 1 28 (calls 1), verifyRangeState 28 1 (calls 1)], Running (.sm2Verify 0 0) .vRange s ∧
        (1 ≤ s.w.r ∧ s.w.r < s.w.n ∧ 1 ≤ s.w.s ∧ s.w.s < s.w.n ∧ s.callFails = false ∧ s.w.r + s.w.s = s.w.n)) ∧
      ∀ s ∈ [verifyRangeState 1 1 (calls 1), verifyRangeState 28 28 (calls 1)], Running (.sm2Verify 0 0) .vRange s ∧
        (1 ≤ s.w.r ∧ s.w.r < s.w.n ∧ 1 ≤ s.w.s ∧ s.w.s < s.w.n ∧ s.callFails = false ∧ s.w.r + s.w.s ≠ s.w.n) :=
  ⟨running_all (by decide +kernel), running_all (by decide +kernel), running_all (by decide +kernel)⟩

/-- A fault, a PA that is no point, a sum at infinity (r, s) = (6, 24), and a finite sum. -/
theorem witness_VerifyMulOutcome :
    (∀ s ∈ [{ verifyMulState with draws := failing },
          { verifyMulState with mem := [(0x100, 7), (0x200, 28), (0x280, 11), (0x300, 1), (0x380, 1)] }],
        Running (.sm2Verify 0 0) .vMul s ∧
          (s.callFails = true ∨ (scalar s .paX, scalar s .paY) ∉ s.cfg.curve.points)) ∧
      (∀ s ∈ [{ verifyMulState with
            mem := [(0x100, 7), (0x200, 6), (0x280, 24), (0x300, 36), (0x380, 26)],
            w := { Working.zero with n := 29, e := 7, r := 6, s := 24, t := 1 } }],
        Running (.sm2Verify 0 0) .vMul s ∧
          (s.callFails = false ∧ multipleOfG s.cfg.curve 5 = some (scalar s .paX, scalar s .paY) ∧
            (s.w.s + s.w.t * 5) % s.w.n = 0)) ∧
      ∀ s ∈ [verifyMulState],
        Running (.sm2Verify 0 0) .vMul s ∧
          (s.callFails = false ∧ multipleOfG s.cfg.curve 5 = some (scalar s .paX, scalar s .paY) ∧
            (s.w.s + s.w.t * 5) % s.w.n ≠ 0) :=
  ⟨running_all (by decide +kernel), running_all (by decide +kernel), running_all (by decide +kernel)⟩

/-- SM2_VERIFY in V_CMP with this e. -/
def verifyCmpState (e : Byte) (d : Draws) : State :=
  { verifyMulState with
    phase := .vCmp, mem := [(0x100, e), (0x200, 28), (0x280, 11), (0x300, 36), (0x380, 26)],
    w := { verifyMulState.w with e := e.toNat, x1 := 21 }, draws := d }

theorem witness_VerifyCmpOutcome :
    (∀ s ∈ [verifyCmpState 7 failing], Running (.sm2Verify 0 0) .vCmp s ∧ s.callFails = true) ∧
      (∀ s ∈ [verifyCmpState 7 (calls 1)],
        Running (.sm2Verify 0 0) .vCmp s ∧ (s.callFails = false ∧ (s.w.e + s.w.x1) % s.w.n = s.w.r)) ∧
      ∀ s ∈ [verifyCmpState 8 (calls 1)],
        Running (.sm2Verify 0 0) .vCmp s ∧ (s.callFails = false ∧ (s.w.e + s.w.x1) % s.w.n ≠ s.w.r) :=
  ⟨running_all (by decide +kernel), running_all (by decide +kernel), running_all (by decide +kernel)⟩

theorem witness_VerifyDecidesTheEquation :
    (∀ s ∈ [verifyCheckState (calls 4), { verifyCheckState (calls 4) with
          mem := [(0x100, 8), (0x200, 28), (0x280, 11), (0x300, 36), (0x380, 26)] }],
        Running (.sm2Verify 0 0) .check s ∧
          (s.inputs = [] ∧ s.eLen.toNat ≤ s.cfg.emax ∧ 1 ≤ scalar s .r ∧ scalar s .r < s.cfg.curve.order ∧
            1 ≤ scalar s .s ∧ scalar s .s < s.cfg.curve.order ∧
            10 = (scalar s .r + scalar s .s) % s.cfg.curve.order ∧
            multipleOfG s.cfg.curve 5 = some (scalar s .paX, scalar s .paY) ∧
            multipleOfG s.cfg.curve ((scalar s .s + 10 * 5) % s.cfg.curve.order) = some (21, 28) ∧
            s.draws.fails = List.replicate 4 false ++ [])) := running_all (by decide +kernel)

theorem witness_ValidOnlyAfterAccepting :
    (verifyCmpState 7 (calls 1)).Consistent ∧
      step (verifyCmpState 7 (calls 1)) = .next (after (.sm2Verify 0 0) (verifyCmpState 7 (calls 1))) ∧
      (after (.sm2Verify 0 0) (verifyCmpState 7 (calls 1))).valid = true ∧
      (verifyCmpState 7 (calls 1)).valid = false :=
  ⟨consistent_of_check test_miniCfg_wellFormed (by decide +kernel), eq_next_of_isNext (by decide +kernel),
    by decide +kernel, rfl⟩

/-! ### Witnesses: MGF1 -/

theorem witness_MaskBytesAreHashBytes : 1 ≤ HashAlg.toy2.len ∧ 4 < 5 := by decide

theorem witness_MaskPrefix : 1 ≤ HashAlg.toy2.len ∧ 2 ≤ 5 := by decide

/-- MGF1 at CHECK with seed 01 02, this mask selector and these lengths. -/
def mgf1CheckState (msel : Sel) (inLen tlen : Half) (d : Draws) : State :=
  { busy (.mgf1 0 msel) .check with
    inLen := inLen, tlen := tlen, mem := [(0x1000, 1), (0x1001, 2)], draws := d }

theorem witness_Mgf1CheckOutcome_bad : ∀ s ∈ [mgf1CheckState 14 2 5 noDraws],
    Running (.mgf1 0 14) .check s ∧ hashEntry s.cfg (resolvedMs s) = none := running_all (by decide +kernel)

theorem witness_Mgf1CheckOutcome :
    (∀ s ∈ [mgf1CheckState 15 9 8 noDraws, mgf1CheckState 15 8 9 noDraws],
        Running (.mgf1 0 15) .check s ∧
          (hashEntry s.cfg (resolvedMs s) = some .toy2 ∧
            (s.cfg.bmax < s.inLen.toNat ∨ s.cfg.bmax < s.tlen.toNat))) ∧
      (∀ s ∈ [mgf1CheckState 15 8 0 noDraws],
        Running (.mgf1 0 15) .check s ∧
          (hashEntry s.cfg (resolvedMs s) = some .toy2 ∧ s.inLen.toNat ≤ s.cfg.bmax ∧ s.tlen.toNat ≤ s.cfg.bmax ∧
            s.tlen = 0)) ∧
      ∀ s ∈ [mgf1CheckState 15 8 1 noDraws, mgf1CheckState 15 0 8 noDraws],
        Running (.mgf1 0 15) .check s ∧
          (hashEntry s.cfg (resolvedMs s) = some .toy2 ∧ s.inLen.toNat ≤ s.cfg.bmax ∧ s.tlen.toNat ≤ s.cfg.bmax ∧
            s.tlen ≠ 0) :=
  ⟨running_all (by decide +kernel), running_all (by decide +kernel), running_all (by decide +kernel)⟩

/-- A fault; a block that is not the last; a last block. -/
theorem witness_Mgf1BlockOutcome :
    (∀ s ∈ [{ mgf1State with draws := failing }], Running (.mgf1 0 15) .mBlock s ∧ s.callFails = true) ∧
      ∀ s ∈ [mgf1State, { mgf1State with w := { mgf1State.w with out := [0x5d, 0xaa, 0x5e], i := 2 } }],
        Running (.mgf1 0 15) .mBlock s ∧ s.callFails = false :=
  ⟨running_all (by decide +kernel), running_all (by decide +kernel)⟩

/-- A masking phase as the statement pairs it: its fault, its last block, and a block that is not the last. -/
theorem witness_Mgf1BlockOutcome_enc :
    (∀ p ∈ [(Phase.eDbmask), .eSeedmask], Running (.oaepEnc 15 15) p { encState with phase := p, draws := failing } ∧
        Running (.oaepEnc 15 15) p { encState with phase := p }) ∧
      (∀ s ∈ [{ encState with phase := .eDbmask, w := { encState.w with out := [1, 2, 3, 4], i := 2 } }],
        Running (.oaepEnc 15 15) .eDbmask s ∧ (s.callFails = false ∧ s.tlen.toNat - 1 - 2 ≤ s.w.out.length + 2)) ∧
      (∀ s ∈ [{ encState with phase := .eDbmask }],
        Running (.oaepEnc 15 15) .eDbmask s ∧ (s.callFails = false ∧ s.w.out.length + 2 < s.tlen.toNat - 1 - 2)) ∧
      ∀ s ∈ [encState], Running (.oaepEnc 15 15) .eSeedmask s ∧ (s.callFails = false ∧ 2 ≤ s.w.out.length + 2) := by
  refine ⟨fun p h => ?_, running_all (by decide +kernel), running_all (by decide +kernel),
    running_all (by decide +kernel)⟩
  rcases List.mem_cons.1 h with rfl | h
  · exact ⟨running_of_check (by decide +kernel), running_of_check (by decide +kernel)⟩
  · rw [List.mem_singleton.1 h]; exact ⟨running_of_check (by decide +kernel), running_of_check (by decide +kernel)⟩

/-- The same for OAEP_DEC; and with a mask hash of one byte, a block of the seed's mask that is not the last. -/
theorem witness_Mgf1BlockOutcome_dec :
    (∀ s ∈ [{ decScanState with phase := .dSeedmask, draws := failing }],
        Running (.oaepDec 15 15) .dSeedmask s ∧ s.callFails = true) ∧
      (∀ s ∈ [{ decScanState with phase := .dSeedmask }],
        Running (.oaepDec 15 15) .dSeedmask s ∧ (s.callFails = false ∧ 2 ≤ s.w.out.length + 2)) ∧
      (∀ s ∈ [{ decScanState with phase := .dDbmask, draws := failing }],
        Running (.oaepDec 15 15) .dDbmask s ∧ s.callFails = true) ∧
      (∀ s ∈ [{ decScanState with phase := .dDbmask }],
        Running (.oaepDec 15 15) .dDbmask s ∧ (s.callFails = false ∧ s.w.out.length + 2 < s.tlen.toNat - 1 - 2)) ∧
      ∀ s ∈ [{ decScanState with
          phase := .dSeedmask, ctrl := { cmd := 5, hsel := 15, msel := 1 },
          w := { decScanState.w with ms := 1, hm := 1 } }],
        Running (.oaepDec 15 1) .dSeedmask s ∧ (s.callFails = false ∧ s.w.out.length + oneByte.len < 2) :=
  ⟨running_all (by decide +kernel), running_all (by decide +kernel), running_all (by decide +kernel),
    running_all (by decide +kernel), running_all (by decide +kernel)⟩

theorem witness_Mgf1RunsToItsMask :
    (∀ s ∈ [mgf1CheckState 15 2 5 (calls 3)],
        Running (.mgf1 0 15) .check s ∧
          (s.inputs = [] ∧ hashEntry s.cfg (resolvedMs s) = some .toy2 ∧ s.inLen.toNat ≤ s.cfg.bmax ∧
            s.tlen.toNat ≤ s.cfg.bmax ∧
            s.draws.fails = List.replicate (ceilDiv s.tlen.toNat HashAlg.toy2.len) false ++ [])) :=
  running_all (by decide +kernel)

/-! ### Witnesses: OAEP_ENC -/

/-- OAEP_ENC at CHECK with these selectors and lengths, and the message ab cd. -/
def encCheckState (hsel : Sel) (inLen tlen labelLen : Half) (d : Draws) : State :=
  { busy (.oaepEnc hsel 15) .check with
    inLen := inLen, tlen := tlen, labelLen := labelLen, mem := [(0x1000, 0xab), (0x1001, 0xcd)], draws := d }

theorem witness_EncCheckOutcome_bad : ∀ s ∈ [encCheckState 14 2 8 0 noDraws],
    Running (.oaepEnc 14 15) .check s ∧
      (hashEntry s.cfg (resolvedHs s) = none ∨ hashEntry s.cfg (resolvedMs s) = none) :=
  running_all (by decide +kernel)

theorem witness_EncCheckOutcome_alloc :
    ∀ s ∈ [encCheckState 15 9 8 2 noDraws, encCheckState 15 8 9 2 noDraws, encCheckState 15 8 8 3 noDraws],
      Running (.oaepEnc 15 15) .check s ∧
        (hashEntry s.cfg (resolvedHs s) = some .toy2 ∧ hashEntry s.cfg (resolvedMs s) = some .toy2 ∧
          (s.cfg.bmax < s.inLen.toNat ∨ s.cfg.bmax < s.tlen.toNat ∨ s.cfg.lmax < s.labelLen.toNat)) :=
  running_all (by decide +kernel)

/-- TLEN at 0, 2h + 1 and 2h + 2, and IN_LEN at its bound and one above it. -/
theorem witness_EncCheckOutcome_sizes :
    (∀ s ∈ [encCheckState 15 0 0 0 noDraws, encCheckState 15 8 5 0 noDraws],
        Running (.oaepEnc 15 15) .check s ∧
          (s.inLen.toNat ≤ s.cfg.bmax ∧ s.tlen.toNat ≤ s.cfg.bmax ∧ s.labelLen.toNat ≤ s.cfg.lmax ∧
            s.tlen.toNat < 2 * HashAlg.toy2.len + 2)) ∧
      (∀ s ∈ [encCheckState 15 1 6 2 noDraws, encCheckState 15 3 8 2 noDraws],
        Running (.oaepEnc 15 15) .check s ∧
          (s.inLen.toNat ≤ s.cfg.bmax ∧ s.tlen.toNat ≤ s.cfg.bmax ∧ s.labelLen.toNat ≤ s.cfg.lmax ∧
            2 * HashAlg.toy2.len + 2 ≤ s.tlen.toNat ∧ s.tlen.toNat < s.inLen.toNat + 2 * HashAlg.toy2.len + 2)) ∧
      ∀ s ∈ [encCheckState 15 0 6 2 noDraws, encCheckState 15 2 8 2 noDraws],
        Running (.oaepEnc 15 15) .check s ∧
          (s.inLen.toNat ≤ s.cfg.bmax ∧ s.tlen.toNat ≤ s.cfg.bmax ∧ s.labelLen.toNat ≤ s.cfg.lmax ∧
            s.inLen.toNat + 2 * HashAlg.toy2.len + 2 ≤ s.tlen.toNat) :=
  ⟨running_all (by decide +kernel), running_all (by decide +kernel), running_all (by decide +kernel)⟩

theorem witness_EncLhashOutcome :
    (∀ s ∈ [{ encState with phase := .eLhash, draws := failing }],
        Running (.oaepEnc 15 15) .eLhash s ∧ s.callFails = true) ∧
      ∀ s ∈ [{ encState with phase := .eLhash }], Running (.oaepEnc 15 15) .eLhash s ∧ s.callFails = false :=
  ⟨running_all (by decide +kernel), running_all (by decide +kernel)⟩

theorem witness_EncSeedOutcome :
    (∀ s ∈ [{ encState with phase := .eSeed, draws := failing }],
        Running (.oaepEnc 15 15) .eSeed s ∧ s.callFails = true) ∧
      ∀ s ∈ [{ encState with phase := .eSeed, draws := { calls 1 with bytes := [0x11, 0x22, 0x33] } }],
        Running (.oaepEnc 15 15) .eSeed s ∧
          (s.callFails = false ∧ s.draws.bytes = [0x11, 0x22] ++ [0x33] ∧ [0x11, 0x22].length = s.w.h) :=
  ⟨running_all (by decide +kernel), running_all (by decide +kernel)⟩

theorem witness_EncOutCompletes : Running (.oaepEnc 15 15) .eOut { encState with phase := .eOut } :=
  running_of_check (by decide +kernel)

/-- OAEP_ENC at CHECK with the worked example of R92: tlen = 8, M = ab cd, seed draw 11 22. -/
def encRunState : State := encCheckState 15 2 8 0 { calls 6 with bytes := [0x11, 0x22] }

theorem witness_EncRunsToItsBlock : ∀ s ∈ [encRunState],
    Running (.oaepEnc 15 15) .check s ∧
      (s.inputs = [] ∧ hashEntry s.cfg (resolvedHs s) = some .toy2 ∧ hashEntry s.cfg (resolvedMs s) = some .toy2 ∧
        s.tlen.toNat ≤ s.cfg.bmax ∧ s.labelLen.toNat ≤ s.cfg.lmax ∧
        s.inLen.toNat + 2 * HashAlg.toy2.len + 2 ≤ s.tlen.toNat ∧ 5 = s.tlen.toNat - 1 - HashAlg.toy2.len ∧
        4 = ceilDiv 5 HashAlg.toy2.len + ceilDiv HashAlg.toy2.len HashAlg.toy2.len ∧
        s.draws.bytes = [0x11, 0x22] ++ [] ∧ s.draws.fails = List.replicate (2 + 4) false ++ []) :=
  running_all (by decide +kernel)

/-! ### Witnesses: OAEP_DEC -/

/-- OAEP_DEC at CHECK with these selectors and lengths, and the block of R99's worked example. -/
def decCheckState (hsel : Sel) (inLen tlen labelLen : Half) (d : Draws) : State :=
  { decState with
    ctrl := { cmd := 5, hsel := hsel, msel := 15 }, phase := .check, w := Working.zero, inLen := inLen, tlen := tlen,
    labelLen := labelLen, draws := d }

theorem witness_DecCheckOutcome_bad : ∀ s ∈ [decCheckState 14 8 8 0 noDraws],
    Running (.oaepDec 14 15) .check s ∧
      (hashEntry s.cfg (resolvedHs s) = none ∨ hashEntry s.cfg (resolvedMs s) = none) :=
  running_all (by decide +kernel)

theorem witness_DecCheckOutcome :
    (∀ s ∈ [decCheckState 15 9 8 2 noDraws, decCheckState 15 8 9 2 noDraws, decCheckState 15 8 8 3 noDraws],
        Running (.oaepDec 15 15) .check s ∧
          (hashEntry s.cfg (resolvedHs s) = some .toy2 ∧ hashEntry s.cfg (resolvedMs s) = some .toy2 ∧
            (s.cfg.bmax < s.inLen.toNat ∨ s.cfg.bmax < s.tlen.toNat ∨ s.cfg.lmax < s.labelLen.toNat))) ∧
      (∀ s ∈ [decCheckState 15 8 0 2 noDraws, decCheckState 15 8 5 2 noDraws],
        Running (.oaepDec 15 15) .check s ∧
          (s.inLen.toNat ≤ s.cfg.bmax ∧ s.tlen.toNat ≤ s.cfg.bmax ∧ s.labelLen.toNat ≤ s.cfg.lmax ∧
            s.tlen.toNat < 2 * HashAlg.toy2.len + 2)) ∧
      ∀ s ∈ [decCheckState 15 8 6 2 noDraws, decCheckState 15 0 8 0 noDraws],
        Running (.oaepDec 15 15) .check s ∧
          (s.inLen.toNat ≤ s.cfg.bmax ∧ s.tlen.toNat ≤ s.cfg.bmax ∧ s.labelLen.toNat ≤ s.cfg.lmax ∧
            2 * HashAlg.toy2.len + 2 ≤ s.tlen.toNat) :=
  ⟨running_all (by decide +kernel), running_all (by decide +kernel), running_all (by decide +kernel)⟩

/-- An input as long as num, one shorter and one longer. -/
theorem witness_DecPadOutcome :
    Running (.oaepDec 15 15) .dPad decState ∧ Running (.oaepDec 15 15) .dPad { decState with inLen := 7 } ∧
      Running (.oaepDec 15 15) .dPad { decState with tlen := 7 } :=
  ⟨running_of_check (by decide +kernel), running_of_check (by decide +kernel), running_of_check (by decide +kernel)⟩

theorem witness_DecLhashOutcome :
    (∀ s ∈ [{ decScanState with phase := .dLhash, draws := failing }],
        Running (.oaepDec 15 15) .dLhash s ∧ s.callFails = true) ∧
      ∀ s ∈ [{ decScanState with phase := .dLhash }], Running (.oaepDec 15 15) .dLhash s ∧ s.callFails = false :=
  ⟨running_all (by decide +kernel), running_all (by decide +kernel)⟩

/-- A separator at the first index h and at the last index, which leaves the empty message. -/
theorem witness_DecScanOutcome_ok :
    (Running (.oaepDec 15 15) .dScan decScanState ∧ decScanState.w.good = true ∧
        SeparatorAt decScanState.w.db decScanState.w.h 2) ∧
      ∃ s, Running (.oaepDec 15 15) .dScan s ∧ s.w.good = true ∧ SeparatorAt s.w.db s.w.h 4 := by
  refine ⟨⟨running_of_check (by decide +kernel), rfl, by decide, rfl, fun j h1 h2 => by change 2 ≤ j at h1; omega⟩,
    { decScanState with w := { decScanState.w with db := [0x5a, 0xa5, 0, 0, 0x01] } },
    running_of_check (by decide +kernel), rfl, by decide, rfl, fun j h1 h2 => ?_⟩
  change 2 ≤ j at h1
  obtain rfl | rfl : j = 2 ∨ j = 3 := by omega
  · rfl
  · rfl

theorem witness_DecScanOutcome_bad :
    (∃ s, Running (.oaepDec 15 15) .dScan s ∧ s.w.good = false) ∧
      ∃ s, Running (.oaepDec 15 15) .dScan s ∧ ∀ idx, ¬ SeparatorAt s.w.db s.w.h idx := by
  refine ⟨⟨{ decScanState with w := { decScanState.w with good := false } }, running_of_check (by decide +kernel), rfl⟩,
    { decScanState with w := { decScanState.w with db := [0x5a, 0xa5, 0, 0x02, 0x01] } },
    running_of_check (by decide +kernel), ?_⟩
  rintro idx ⟨h1, h2, h3⟩
  change 2 ≤ idx at h1
  have h5 : idx < 5 := by
    have := (List.getElem?_eq_some_iff.1 h2).1
    simpa using this
  obtain rfl | rfl | rfl : idx = 2 ∨ idx = 3 ∨ idx = 4 := by omega
  · exact absurd h2 (by decide)
  · exact absurd h2 (by decide)
  · exact absurd (h3 3 (by decide) (by decide)) (by decide)

/-- OAEP_DEC at CHECK with the block of the worked example, its calls scripted not to fail. -/
def decRunState : State := decCheckState 15 8 8 0 (calls 5)

/-- The three lengths of the input: as long as num, stripped of its leading zero, longer than num. -/
theorem witness_DecRunsToItsOutcome :
    ∀ s ∈ [decRunState, { decRunState with inLen := 0 }, { decRunState with tlen := 7, draws := calls 4 }],
      Running (.oaepDec 15 15) .check s ∧
        (s.inputs = [] ∧ hashEntry s.cfg (resolvedHs s) = some .toy2 ∧ hashEntry s.cfg (resolvedMs s) = some .toy2 ∧
          s.inLen.toNat ≤ s.cfg.bmax ∧ s.tlen.toNat ≤ s.cfg.bmax ∧ s.labelLen.toNat ≤ s.cfg.lmax ∧
          2 * HashAlg.toy2.len + 2 ≤ s.tlen.toNat ∧
          s.draws.fails = List.replicate (ceilDiv HashAlg.toy2.len HashAlg.toy2.len +
            ceilDiv (s.tlen.toNat - 1 - HashAlg.toy2.len) HashAlg.toy2.len + 1) false ++ []) :=
  running_all (by decide +kernel)

/-- The block of the worked example has its separator at index h, and no content failure. -/
theorem witness_DecRunsToItsOutcome_ok :
    let em := zeros (8 - 8) ++ inputBytes decRunState
    em[0]? = some 0x00 ∧ (unmaskedDB .toy2 2 em).take 2 = digest .toy2 (labelBytes decRunState) ∧
      (unmaskedDB .toy2 2 em) = [0x5a, 0xa5, 0x01, 0xab, 0xcd] := by decide +kernel

/-- The state OAEP_ENC's worked example ends in. -/
def encRunEnd : State :=
  match steps 8 encRunState with
  | .next t => t
  | _ => encRunState

/-- R107 with the worked examples of R92 and R99, once with the block as written and once with its leading zero
stripped. -/
theorem witness_OaepRoundTrip :
    Running (.oaepEnc 15 15) .check encRunState ∧ encRunState.inputs = [] ∧
      steps 8 encRunState = .next encRunEnd ∧ encRunEnd.phase = .idle ∧ encRunEnd.err = .ok ∧
      hashEntry encRunState.cfg (resolvedHs encRunState) = some .toy2 ∧
      hashEntry encRunState.cfg (resolvedMs encRunState) = some .toy2 ∧
      4 = ceilDiv HashAlg.toy2.len HashAlg.toy2.len +
        ceilDiv (encRunState.tlen.toNat - 1 - HashAlg.toy2.len) HashAlg.toy2.len ∧
      (∀ u ∈ [decRunState, { decRunState with
            inLen := 7
            mem := [(0x1000, 0x1d), (0x1001, 0xff), (0x1002, 0xd7), (0x1003, 0x5f), (0x1004, 0x8f), (0x1005, 0xab),
              (0x1006, 0x42)] }],
        Running (.oaepDec 15 15) .check u ∧
          (u.inputs = [] ∧ u.cfg = encRunState.cfg ∧ u.tlen = encRunState.tlen ∧ u.labelLen = encRunState.labelLen ∧
            labelBytes u = labelBytes encRunState ∧
            zeros (8 - u.inLen.toNat) ++ inputBytes u = encRunEnd.winBytes .outBuf encRunState.tlen.toNat ∧
            u.draws.fails = List.replicate (4 + 1) false ++ [])) :=
  ⟨running_of_check (by decide +kernel), rfl, eq_next_of_isNext (by decide +kernel), by decide +kernel,
    by decide +kernel, by decide, by decide, by decide, running_all (by decide +kernel)⟩

/-- The three phases with a hash call, and one without. -/
theorem witness_DecStepsAreDataIndependent_calls :
    (∀ p ∈ [Phase.dSeedmask, .dDbmask, .dLhash], Running (.oaepDec 15 15) p { decScanState with phase := p } ∧
        p ≠ .idle ∧ (decHashRequest { decScanState with phase := p }).isSome = true) ∧
      Running (.oaepDec 15 15) .dScan decScanState ∧ decHashRequest decScanState = none := by
  refine ⟨fun p h => ?_, running_of_check (by decide +kernel), rfl⟩
  simp only [List.mem_cons, List.not_mem_nil, or_false] at h
  rcases h with rfl | rfl | rfl <;> exact ⟨running_of_check (by decide +kernel), by decide, rfl⟩

theorem witness_DecStepsAreDataIndependent :
    decRunState.Consistent ∧ ({ decRunState with mem := [(0x1000, 0xff)] } : State).Consistent ∧
      decRunState.ctrl.cmd = 5 ∧ decRunState.inputs = [] ∧
      SamePublic decRunState { decRunState with mem := [(0x1000, 0xff)] } :=
  ⟨consistent_of_check test_miniCfg_wellFormed (by decide +kernel),
    consistent_of_check test_miniCfg_wellFormed (by decide +kernel), rfl, rfl,
    ⟨rfl, rfl, rfl, rfl, rfl, rfl, rfl, rfl, rfl, rfl, rfl, rfl, rfl, rfl, rfl, rfl⟩⟩

/-! ### Witnesses: the whole machine -/

/-- A running command whose step completes, with both invariants. -/
theorem witness_steps :
    signRsState.Consistent ∧ signRsState.InFlight ∧
      step signRsState = .next (after (.sm2Sign 0 0) signRsState) ∧ signRsState.irq = false :=
  ⟨running_signRsState.consistent, running_signRsState.inFlight, eq_next_of_isNext (by decide +kernel), rfl⟩

theorem witness_StepKeepsConsistent :
    signRsState.Consistent ∧ step signRsState = .next (after (.sm2Sign 0 0) signRsState) :=
  ⟨witness_steps.1, witness_steps.2.2.1⟩

theorem witness_StepKeepsInFlight :
    signRsState.Consistent ∧ signRsState.InFlight ∧ step signRsState = .next (after (.sm2Sign 0 0) signRsState) :=
  ⟨witness_steps.1, witness_steps.2.1, witness_steps.2.2.1⟩

theorem witness_ResetIsConsistent : miniCfg.WellFormed := test_miniCfg_wellFormed

theorem witness_ConsistentStatesStep : signRsState.Consistent := witness_steps.1

/-- A step that goes on and a step that completes, for a command with a signature and one with an output string. -/
theorem witness_ControllerWritesOnlyItsState :
    (Running (.sm2Sign 0 0) .sRs signRsState ∧ Phase.sRs ≠ .idle ∧
        exec (.sm2Sign 0 0) signRsState = .next (after (.sm2Sign 0 0) signRsState)) ∧
      Running (.oaepDec 15 15) .dPad decState ∧ Phase.dPad ≠ .idle ∧
        exec (.oaepDec 15 15) decState = .next (after (.oaepDec 15 15) decState) :=
  ⟨⟨running_signRsState, by decide, eq_next_of_isNext (by decide +kernel)⟩, running_of_check (by decide +kernel),
    by decide, eq_next_of_isNext (by decide +kernel)⟩

theorem witness_CompletionIsPrecise :
    (Running (.oaepDec 15 15) .dPad decState ∧ exec (.oaepDec 15 15) decState = .next (after (.oaepDec 15 15) decState) ∧
        (after (.oaepDec 15 15) decState).phase ≠ .idle) ∧
      Running (.sm2Sign 0 0) .sRs signRsState ∧
        exec (.sm2Sign 0 0) signRsState = .next (after (.sm2Sign 0 0) signRsState) ∧
        (after (.sm2Sign 0 0) signRsState).phase = .idle :=
  ⟨⟨running_of_check (by decide +kernel), eq_next_of_isNext (by decide +kernel), by decide +kernel⟩,
    running_signRsState, eq_next_of_isNext (by decide +kernel), by decide +kernel⟩

/-- A failing completion of SM2_SIGN and one of MGF1. -/
theorem witness_CompletionCodes :
    (∃ s t, Running (.sm2Sign 0 0) .sRs s ∧ exec (.sm2Sign 0 0) s = .next t ∧ t.phase = .idle ∧ t.err ≠ .ok) ∧
      ∃ s t, Running (.mgf1 0 15) .mBlock s ∧ exec (.mgf1 0 15) s = .next t ∧ t.phase = .idle ∧ t.err ≠ .ok :=
  ⟨⟨{ signRsState with draws := failing }, after (.sm2Sign 0 0) { signRsState with draws := failing },
      running_of_check (by decide +kernel), eq_next_of_isNext (by decide +kernel), by decide +kernel, by decide +kernel⟩,
    { mgf1State with draws := failing }, after (.mgf1 0 15) { mgf1State with draws := failing },
    running_of_check (by decide +kernel), eq_next_of_isNext (by decide +kernel), by decide +kernel, by decide +kernel⟩

/-- An S_DRAW step, and an accepted command that clears a count. -/
theorem witness_SignIterCountsDraws :
    (∃ s t : State, s.Consistent ∧ step s = .next t ∧ t.signIter ≠ s.signIter ∧ s.phase = .sDraw) ∧
      ∃ s t : State, s.Consistent ∧ step s = .next t ∧ t.signIter ≠ s.signIter ∧ s.phase = .idle := by
  refine ⟨⟨signDrawState { calls 1 with ranges := [3] }, after (.sm2Sign 0 0) (signDrawState { calls 1 with ranges := [3] }),
      consistent_of_check test_miniCfg_wellFormed (by decide +kernel), eq_next_of_isNext (by decide +kernel),
      by decide +kernel, rfl⟩,
    { hostIdle (.write 0x4010 4 0x11) with signIter := 7 },
    { busy (.sm2Sign 0 0) .check with bus := .written }, ?_, eq_next_of_isNext (by decide +kernel), by decide, rfl⟩
  exact consistent_of_check test_miniCfg_wellFormed (by decide +kernel)

/-- A completion with the interrupt enabled, and an enable while DONE is pending. -/
theorem witness_IrqRisesOnCompletion :
    (∃ s t : State, s.Consistent ∧ step s = .next t ∧ s.irq = false ∧ t.irq = true ∧ s.phase ≠ .idle) ∧
      ∃ s t : State, s.Consistent ∧ step s = .next t ∧ s.irq = false ∧ t.irq = true ∧ s.phase = .idle := by
  refine ⟨⟨{ signRsState with irqEn := true }, after (.sm2Sign 0 0) { signRsState with irqEn := true },
      consistent_of_check test_miniCfg_wellFormed (by decide +kernel), eq_next_of_isNext (by decide +kernel), rfl,
      by decide +kernel, by decide⟩,
    { hostIdle (.write 0x4018 4 1) with done := true }, { idle with done := true, irqEn := true, bus := .written }, ?_,
    eq_next_of_isNext (by decide +kernel), rfl, rfl, rfl⟩
  exact consistent_of_check test_miniCfg_wellFormed (by decide +kernel)

/-- A locked write, and the acknowledge that clears WERR. -/
theorem witness_WerrIsSticky :
    (∃ s t : State, s.Consistent ∧ step s = .next t ∧ s.werr = false ∧ t.werr = true) ∧
      ∃ s t : State, s.Consistent ∧ step s = .next t ∧ s.werr = true ∧ t.werr = false := by
  refine ⟨⟨hostBusy (.write 0x4010 4 0x11), { busy (.sm2Sign 0 0) .check with werr := true, bus := .written },
      consistent_hostBusy _, eq_next_of_isNext (by decide +kernel), rfl, rfl⟩,
    { hostIdle (.write 0x4014 4 8) with werr := true }, { idle with bus := .written }, ?_,
    eq_next_of_isNext (by decide +kernel), rfl, rfl⟩
  exact consistent_of_check test_miniCfg_wellFormed (by decide +kernel)

end Sys2Proof.Tests
end

/-! PROOF. The scope of the model (spec/00_scope.md): every consistent state has a step, and reset is consistent. -/

namespace Sys2Proof.Machine

open Sys2Proof.Config

/-! ### A command's own step answers in each of its phases (R34, R37) -/

/-- The controller's step of each command, apart from acceptance and the busy lock. -/
def phaseStep : Instr → State → Result
  | .sm2Sign _ _ => signPhase
  | .sm2Verify _ _ => verifyPhase
  | .mgf1 _ _ => mgf1Phase
  | .oaepEnc _ _ => encPhase
  | .oaepDec _ _ => decPhase

theorem exec_eq_command (i : Instr) (s : State) :
    exec i s = command i.cmd i.hsel i.msel (phaseStep i) s := by
  cases i <;> rfl

theorem exec_latched {i : Instr} {s : State} (hb : s.phase ≠ .idle) (hl : Latched i s) :
    exec i s = phaseStep i s := by
  rw [exec_eq_command, command, if_neg hb]
  exact if_pos hl

/-- Only a phase of another command stops a command's step, by `phaseNotOfCommand`. -/
theorem phaseStep_answers {i : Instr} {s : State} (hb : s.phase ≠ .idle) (h : phaseOf i.cmd s.phase = true) :
    ∃ t, phaseStep i s = .next t := by
  cases i with
  | sm2Sign =>
    cases hp : s.phase with
    | check | sDraw | sMulg | sRs => simp [phaseStep, signPhase, hp]
    | idle => exact absurd hp hb
    | _ => simp [hp, phaseOf, Instr.cmd] at h
  | sm2Verify =>
    cases hp : s.phase with
    | check | vRange | vMul | vCmp => simp [phaseStep, verifyPhase, hp]
    | idle => exact absurd hp hb
    | _ => simp [hp, phaseOf, Instr.cmd] at h
  | mgf1 =>
    cases hp : s.phase with
    | check | mBlock => simp [phaseStep, mgf1Phase, hp]
    | idle => exact absurd hp hb
    | _ => simp [hp, phaseOf, Instr.cmd] at h
  | oaepEnc =>
    cases hp : s.phase with
    | check | eLhash | eSeed | eDbmask | eSeedmask | eOut => simp [phaseStep, encPhase, hp]
    | idle => exact absurd hp hb
    | _ => simp [hp, phaseOf, Instr.cmd] at h
  | oaepDec =>
    cases hp : s.phase with
    | check | dPad | dSeedmask | dDbmask | dLhash | dScan => simp [phaseStep, decPhase, hp]
    | idle => exact absurd hp hb
    | _ => simp [hp, phaseOf, Instr.cmd] at h

/-- A reserved CMD has no phase of its own: BUSY with one, the block is in CHECK (R59, R113). -/
theorem phase_eq_check_of_reserved {cmd : Sel} {p : Phase} (hc : cmd = 0 ∨ 6 ≤ cmd.toNat) (hb : p ≠ .idle)
    (h : phaseOf cmd p = true) : p = .check := by
  cases p with
  | check => rfl
  | idle => exact absurd rfl hb
  | _ =>
    simp only [phaseOf, beq_iff_eq] at h
    subst h
    simp at hc

/-! ### Each agent's turn answers a next state (R10) -/

theorem controllerAction_answers {s : State} (hb : s.phase ≠ .idle) (h : phaseOf s.ctrl.cmd s.phase = true) :
    ∃ t, takeAction (controllerAction s) = .next t := by
  unfold controllerAction
  rcases decode_latched s with ⟨i, hd, hl⟩ | ⟨hc, e, hd⟩ <;> rw [hd]
  · have hcmd : s.ctrl.cmd = i.cmd := congrArg Ctrl.cmd hl
    obtain ⟨t, ht⟩ := phaseStep_answers hb (hcmd ▸ h)
    exact ⟨t, (exec_latched hb hl).trans ht⟩
  · exact ⟨_, if_pos (phase_eq_check_of_reserved hc hb h)⟩

theorem commandWrite_answers (v : Word) (s : State) : ∃ t, takeAction (commandWrite v s) = .next t := by
  unfold commandWrite
  split
  · exact ⟨_, rfl⟩
  · rename_i hb
    have hidle : s.phase = .idle := by simpa [State.busy] using hb
    split
    · exact ⟨_, exec_idle hidle⟩
    all_goals exact ⟨_, rfl⟩

theorem hostAction_answers (op : HostOp) (s : State) : ∃ t, takeAction (hostAction op s) = .next t := by
  cases op with
  | reset => exact ⟨_, rfl⟩
  | waitDone gaps => exact ⟨_, rfl⟩
  | read addr size =>
    unfold hostAction
    dsimp only
    split <;> exact ⟨_, rfl⟩
  | write addr size v =>
    unfold hostAction
    dsimp only
    split
    · unfold hostWrite
      split_ifs
      · exact ⟨_, rfl⟩
      · exact commandWrite_answers v _
      · exact ⟨_, rfl⟩
    · exact ⟨_, rfl⟩

/-- The phase belonging to the latched command is all a step needs in order to answer. -/
theorem step_answers {s : State} (h : phaseOf s.ctrl.cmd s.phase = true) : ∃ t, step s = .next t := by
  unfold step nextAction
  cases s.inputs with
  | nil =>
    dsimp only
    split_ifs with hp
    · exact ⟨s, rfl⟩
    · exact controllerAction_answers hp h
  | cons ev rest =>
    dsimp only
    split_ifs with hp
    · exact hostAction_answers _ _
    · exact controllerAction_answers (not_or.1 hp).2 h

/-- Settles O54, by the turn of each agent; an IDLE block with an empty queue answers itself (assumption log 4). -/
theorem consistentStatesStep : Obligations.ConsistentStatesStep :=
  fun _ hs => step_answers hs.phase_cmd

/-! ### The state after reset (R133) -/

theorem consistent_resetWith {cfg : Params} (hc : cfg.WellFormed) (inputs : List HostEvent) (draws : Draws) :
    (State.resetWith cfg inputs draws).Consistent where
  cfg_wf := hc
  mem_wf := Memory.wf_nil
  mem_storage := fun _ hmem => absurd hmem List.not_mem_nil
  idle_zero := fun _ => rfl
  phase_cmd := rfl
  busy_clear := fun hbusy => absurd rfl hbusy
  valid_ok := fun hvalid => absurd hvalid Bool.false_ne_true
  err_not_digest := by simp [State.resetWith]

/-- Each clause of the working registers' invariant speaks of a phase of a running command. -/
theorem State.InFlight.of_idle {s : State} (h : s.phase = .idle) : s.InFlight := by
  constructor <;>
    simp [h, maskLength, Phase.signing, Phase.verifying, Phase.encoding, Phase.decoding]

/-- Settles O53: reset is IDLE, where both invariants ask for zero working registers and a memory in canonical form. -/
theorem resetIsConsistent : Obligations.ResetIsConsistent := by
  have hreset : ∀ cfg inputs draws, cfg.WellFormed →
      (State.resetWith cfg inputs draws).Consistent ∧ (State.resetWith cfg inputs draws).InFlight :=
    fun _ inputs draws hc => ⟨consistent_resetWith hc inputs draws, .of_idle rfl⟩
  have htest := Sys2Proof.Tests.test_testCfg_wellFormed
  exact ⟨hreset, htest, hreset testCfg _ _ htest⟩

end Sys2Proof.Machine

/-! PROOF. What a controller step can do, said once for every phase of every command, and that every step keeps the
invariant of the registers, the memory and the phase. -/

namespace Sys2Proof.Machine

open Sys2Proof.Config

/-! ### The checks of MGF1, OAEP_ENC and OAEP_DEC, said once (R89, R92, R99, R113) -/

@[simp] theorem storeSelectors_inLen (s : State) : (storeSelectors s).inLen = s.inLen := rfl
@[simp] theorem storeSelectors_tlen (s : State) : (storeSelectors s).tlen = s.tlen := rfl
@[simp] theorem storeSelectors_hs (s : State) : (storeSelectors s).w.hs = resolvedHs s := rfl
@[simp] theorem storeSelectors_ms (s : State) : (storeSelectors s).w.ms = resolvedMs s := rfl
@[simp] theorem storeSelectors_h (s : State) : (storeSelectors s).w.h = hlen s.cfg (resolvedHs s) := rfl
@[simp] theorem validSel_storeSelectors (s : State) (sel : Sel) :
    validSel (storeSelectors s) sel = validSel s sel := rfl

theorem mgf1Check_cases (s : State) :
    (validSel s (resolvedMs s) = false ∧ mgf1Check s = mgf1Finish .badCmd [] (storeSelectors s)) ∨
      (validSel s (resolvedMs s) = true ∧
        (((s.cfg.bmax < s.inLen.toNat ∨ s.cfg.bmax < s.tlen.toNat) ∧
            mgf1Check s = mgf1Finish .alloc [] (storeSelectors s)) ∨
          (s.inLen.toNat ≤ s.cfg.bmax ∧ s.tlen.toNat ≤ s.cfg.bmax ∧
            ∃ u, u = (storeSelectors s).setW { (storeSelectors s).w with out := [], i := 0 } ∧
              ((s.tlen = 0 ∧ mgf1Check s = mgf1Finish .ok [] u) ∨
                (s.tlen ≠ 0 ∧ mgf1Check s = u.goto .mBlock))))) := by
  cases hsel : validSel s (resolvedMs s) with
  | false => exact .inl ⟨rfl, if_pos (by simp [hsel])⟩
  | true =>
    have skip : mgf1Check s = _ := if_neg (by simp [hsel])
    refine .inr ⟨rfl, ?_⟩
    by_cases hcap : s.cfg.bmax < s.inLen.toNat ∨ s.cfg.bmax < s.tlen.toNat
    · exact .inl ⟨hcap, skip.trans (if_pos hcap)⟩
    refine .inr ⟨by omega, by omega, _, rfl, ?_⟩
    by_cases htlen : s.tlen = 0
    · exact .inl ⟨htlen, skip.trans ((if_neg hcap).trans (if_pos htlen))⟩
    · exact .inr ⟨htlen, skip.trans ((if_neg hcap).trans (if_neg htlen))⟩

/-- CHECK of OAEP_ENC, with emlen = TLEN - 1 put in terms of TLEN. -/
theorem encCheck_cases (s : State) :
    (¬ (validSel s (resolvedHs s) = true ∧ validSel s (resolvedMs s) = true) ∧
        encCheck s = encFinish .badCmd [] (storeSelectors s)) ∨
      ((validSel s (resolvedHs s) = true ∧ validSel s (resolvedMs s) = true) ∧
        (((s.cfg.bmax < s.inLen.toNat ∨ s.cfg.bmax < s.tlen.toNat ∨ s.cfg.lmax < s.labelLen.toNat) ∧
            encCheck s = encFinish .alloc [] (storeSelectors s)) ∨
          (s.inLen.toNat ≤ s.cfg.bmax ∧ s.tlen.toNat ≤ s.cfg.bmax ∧ s.labelLen.toNat ≤ s.cfg.lmax ∧
            ∃ h, h = hlen s.cfg (resolvedHs s) ∧
              ((s.tlen.toNat < 2 * h + 2 ∧ encCheck s = encFinish .keyTooSmall [] (storeSelectors s)) ∨
                (2 * h + 2 ≤ s.tlen.toNat ∧ s.tlen.toNat < s.inLen.toNat + 2 * h + 2 ∧
                  encCheck s = encFinish .dataTooLarge [] (storeSelectors s)) ∨
                (s.inLen.toNat + 2 * h + 2 ≤ s.tlen.toNat ∧ encCheck s = (storeSelectors s).goto .eLhash))))) := by
  by_cases hsel : validSel s (resolvedHs s) = true ∧ validSel s (resolvedMs s) = true
  case neg => exact .inl ⟨hsel, if_pos (by rwa [Bool.not_eq_true', ← Bool.not_eq_true, Bool.and_eq_true])⟩
  have valid : encCheck s = _ := if_neg (by simp [hsel])
  refine .inr ⟨hsel, ?_⟩
  by_cases hcap : s.cfg.bmax < s.inLen.toNat ∨ s.cfg.bmax < s.tlen.toNat ∨ s.cfg.lmax < s.labelLen.toNat
  · exact .inl ⟨hcap, valid.trans (if_pos hcap)⟩
  have fits := valid.trans (if_neg hcap)
  refine .inr ⟨by omega, by omega, by omega, _, rfl, ?_⟩
  by_cases hkey : s.tlen.toNat < 2 * hlen s.cfg (resolvedHs s) + 2
  · exact .inl ⟨hkey, fits.trans (if_pos (by simp; omega))⟩
  have large := fits.trans (if_neg (by simp; omega))
  by_cases hroom : s.tlen.toNat < s.inLen.toNat + 2 * hlen s.cfg (resolvedHs s) + 2
  · exact .inr (.inl ⟨by omega, hroom, large.trans (if_pos (by simp; omega))⟩)
  · exact .inr (.inr ⟨by omega, large.trans (if_neg (by simp; omega))⟩)

theorem decCheck_cases (s : State) :
    (¬ (validSel s (resolvedHs s) = true ∧ validSel s (resolvedMs s) = true) ∧
        decCheck s = decFinish .badCmd [] (storeSelectors s)) ∨
      ((validSel s (resolvedHs s) = true ∧ validSel s (resolvedMs s) = true) ∧
        (((s.cfg.bmax < s.inLen.toNat ∨ s.cfg.bmax < s.tlen.toNat ∨ s.cfg.lmax < s.labelLen.toNat) ∧
            decCheck s = decFinish .alloc [] (storeSelectors s)) ∨
          (s.inLen.toNat ≤ s.cfg.bmax ∧ s.tlen.toNat ≤ s.cfg.bmax ∧ s.labelLen.toNat ≤ s.cfg.lmax ∧
            ∃ h, h = hlen s.cfg (resolvedHs s) ∧
              ((s.tlen.toNat < 2 * h + 2 ∧ decCheck s = decFinish .keyTooSmall [] (storeSelectors s)) ∨
                (2 * h + 2 ≤ s.tlen.toNat ∧ decCheck s = (storeSelectors s).goto .dPad))))) := by
  by_cases hsel : validSel s (resolvedHs s) = true ∧ validSel s (resolvedMs s) = true
  case neg => exact .inl ⟨hsel, if_pos (by rwa [Bool.not_eq_true', ← Bool.not_eq_true, Bool.and_eq_true])⟩
  have valid : decCheck s = _ := if_neg (by simp [hsel])
  refine .inr ⟨hsel, ?_⟩
  by_cases hcap : s.cfg.bmax < s.inLen.toNat ∨ s.cfg.bmax < s.tlen.toNat ∨ s.cfg.lmax < s.labelLen.toNat
  · exact .inl ⟨hcap, valid.trans (if_pos hcap)⟩
  have fits := valid.trans (if_neg hcap)
  refine .inr ⟨by omega, by omega, by omega, _, rfl, ?_⟩
  by_cases hkey : s.tlen.toNat < 2 * hlen s.cfg (resolvedHs s) + 2
  · exact .inl ⟨hkey, fits.trans (if_pos hkey)⟩
  · exact .inr ⟨by omega, fits.trans (if_neg hkey)⟩

theorem decScan_cases (s : State) :
    ∃ u, u = s.setW { s.w with good := s.w.good && separatorGood s.w.db s.w.h } ∧
      ((u.w.good = true ∧ decScan s = decFinish .ok (recoveredMessage s.w.db s.w.h) u) ∨
        (u.w.good = false ∧ decScan s = decFinish .oaepDecode [] u)) := by
  refine ⟨_, rfl, ?_⟩
  generalize ht : decScan s = t
  simp only [decScan] at ht
  split_ifs at ht with hgood
  · exact .inl ⟨hgood, ht.symm⟩
  · exact .inr ⟨eq_false_of_ne_true hgood, ht.symm⟩

/-! ### A memory of storage bytes -/

/-- What `State.Consistent` asks of the memory: canonical, and listing storage bytes only (R40). -/
def StorageMemory (cfg : Params) (m : Memory) : Prop :=
  Memory.wf m = true ∧ ∀ c ∈ m, isStorage cfg c.1 = true

theorem StorageMemory.fillWin {s : State} (hc : s.cfg.WellFormed) (hm : StorageMemory s.cfg s.mem) (win : Win)
    (b : List Byte) : StorageMemory s.cfg (s.fillWin win b).mem := by
  refine ⟨State.fillWin_wf hm.1 win b, fun c h => ?_⟩
  rcases mem_writeBytes h with h | ⟨h1, h2⟩
  · exact hm.2 c h
  · exact (isStorage_iff hc).2 ⟨win, h1, by rwa [padTo_length] at h2⟩

theorem StorageMemory.signWrites {s : State} (hc : s.cfg.WellFormed) (hm : StorageMemory s.cfg s.mem)
    (code : ErrCode) : StorageMemory s.cfg (signWrites code s).mem := by
  have filled : ∀ r sv da : List Byte,
      StorageMemory s.cfg (((s.fillWin .r r).fillWin .s sv).fillWin .da da).mem := fun r sv da =>
    have filled_r := fillWin hc hm .r r
    have filled_s := fillWin (s := s.fillWin .r r) hc filled_r .s sv
    fillWin (s := (s.fillWin .r r).fillWin .s sv) hc filled_s .da da
  unfold Machine.signWrites
  split <;> exact filled _ _ _

theorem StorageMemory.outputWrites {s : State} (hc : s.cfg.WellFormed) (hm : StorageMemory s.cfg s.mem)
    (code : ErrCode) (b : List Byte) : StorageMemory s.cfg (outputWrites code b s).mem := by
  unfold Machine.outputWrites
  split
  · exact fillWin hc hm .outBuf b
  · exact fillWin hc hm .outBuf []

theorem StorageMemory.storeLanes {cfg : Params} {m : Memory} (hm : StorageMemory cfg m) (off : Nat) (bs : List Byte) :
    StorageMemory cfg (storeLanes cfg m off bs) := by
  refine ⟨storeLanes_wf hm.1 off bs, fun c h => ?_⟩
  rcases mem_storeLanes h with h | ⟨-, -, h⟩
  · exact hm.2 c h
  · exact h

/-! ### What a controller step can do to the registers (R55, R115, R116) -/

/-- SIGN_ITER after a controller step: as before, or one more in S_DRAW of SM2_SIGN (R25). -/
def CountsDraw (s : State) (n : Word) : Prop :=
  n = s.signIter ∨ (n = s.signIter + 1 ∧ s.phase = .sDraw ∧ s.ctrl.cmd = 1)

/-- The two outcomes of a controller step: the command runs on in one of its phases, or it completes. -/
inductive ControllerOutcome (s : State) : State → Prop where
  | runs {p : Phase} {w : Working} {d : Draws} {n : Word} (busy : p ≠ .idle)
      (cmd : phaseOf s.ctrl.cmd p = true) (iter : CountsDraw s n) :
      ControllerOutcome s { s with phase := p, w := w, draws := d, signIter := n }
  | completes {t : State} (code : ErrCode) (completes : Completes s t code) (named : code ≠ .digest)
      (mem : s.cfg.WellFormed → StorageMemory s.cfg s.mem → StorageMemory s.cfg t.mem)
      (iter : CountsDraw s t.signIter) : ControllerOutcome s t

/-- What a controller step has changed before it goes on or completes: working registers, draws, SIGN_ITER. -/
def WorkedFrom (s u : State) : Prop := u = { s with w := u.w, draws := u.draws, signIter := u.signIter }

theorem WorkedFrom.control {s u : State} (h : WorkedFrom s u) : SameControl s u := by
  rw [h]; exact ⟨rfl, rfl, rfl, rfl, rfl, rfl, rfl, rfl, rfl, rfl⟩

theorem WorkedFrom.mem {s u : State} (h : WorkedFrom s u) : u.mem = s.mem := by rw [h]

theorem outcome_goto {s u : State} {p : Phase} (worked : WorkedFrom s u) (iter : CountsDraw s u.signIter)
    (busy : p ≠ .idle) (cmd : phaseOf s.ctrl.cmd p = true) : ControllerOutcome s (u.goto p) := by
  rw [worked]; exact .runs busy cmd iter

theorem outcome_finish {s u : State} {code : ErrCode} {g : State → State} (worked : WorkedFrom s u)
    (iter : CountsDraw s u.signIter) (named : code ≠ .digest)
    (hg : ∀ v, SameControl v (g v) ∧ (g v).err = v.err ∧ (g v).valid = v.valid)
    (hmem : ∀ v : State, v.cfg.WellFormed → StorageMemory v.cfg v.mem → StorageMemory v.cfg (g v).mem)
    (hiter : ∀ v, (g v).signIter = v.signIter) : ControllerOutcome s (finish code g u) := by
  refine .completes code (finish_completes worked.control hg) named (fun hc hm => ?_)
    (by rw [finish, hiter]; exact iter)
  rw [← worked.control.cfg] at hc hm ⊢
  rw [← worked.mem] at hm
  exact hmem { u with err := code, valid := u.ctrl.cmd == 2 && code == .ok } hc hm

theorem outcome_signFinish {s u : State} {code : ErrCode} (worked : WorkedFrom s u) (iter : CountsDraw s u.signIter)
    (named : code ≠ .digest) : ControllerOutcome s (signFinish code u) :=
  outcome_finish worked iter named (fun v => ⟨by constructor <;> simp, by simp, by simp⟩)
    (fun v hc hm => hm.signWrites hc code) (fun v => by simp)

theorem outcome_verifyFinish {s u : State} {code : ErrCode} (worked : WorkedFrom s u) (iter : CountsDraw s u.signIter)
    (named : code ≠ .digest) : ControllerOutcome s (verifyFinish code u) :=
  outcome_finish worked iter named (fun v => ⟨.rfl' v, rfl, rfl⟩) (fun _ _ hm => hm) (fun _ => rfl)

/-- The completion of MGF1, OAEP_ENC and OAEP_DEC. -/
theorem outcome_outputFinish {s u : State} {code : ErrCode} {b : List Byte} (worked : WorkedFrom s u)
    (iter : CountsDraw s u.signIter) (named : code ≠ .digest) :
    ControllerOutcome s (finish code (outputWrites code b) u) :=
  outcome_finish worked iter named (fun v => ⟨by constructor <;> simp, by simp, by simp⟩)
    (fun v hc hm => hm.outputWrites hc code b) (fun v => by simp)

/-- A block step runs on in its masking phase, or does what its failure or its finished mask does. -/
theorem outcome_blockStep {s : State} {src : List Byte} {L : Nat} {fail : State → State}
    {use : List Byte → State → State} (busy : s.phase ≠ .idle) (cmd : phaseOf s.ctrl.cmd s.phase = true)
    (hfail : ControllerOutcome s (fail s.drawn))
    (huse : ∀ mask w, ControllerOutcome s (use mask (s.drawn.setW w))) :
    ControllerOutcome s (blockStep src L fail use s) := by
  rcases blockStep_cases src L fail use s with ⟨-, h⟩ | ⟨alg, -, -, ⟨-, h⟩ | ⟨-, h⟩⟩ <;> rw [h]
  · exact hfail
  · exact huse _ _
  · exact .runs busy cmd (.inl rfl)

/-! ### The outcome of each phase's step -/

theorem signCheck_outcome {s : State} (hcmd : s.ctrl.cmd = 1) : ControllerOutcome s (signCheck s) := by
  rcases signCheck_cases s with ⟨-, h⟩ | ⟨-, ⟨-, h⟩ | ⟨-, -, -, h⟩ | ⟨-, -, h⟩⟩ <;> rw [h]
  · exact outcome_signFinish rfl (.inl rfl) (by decide)
  · exact outcome_signFinish rfl (.inl rfl) (by decide)
  · exact outcome_goto rfl (.inl rfl) (by decide) (by simp [phaseOf, hcmd])
  · exact outcome_signFinish rfl (.inl rfl) (by decide)

theorem signDraw_outcome {s : State} (hcmd : s.ctrl.cmd = 1) (hp : s.phase = .sDraw) :
    ControllerOutcome s (signDraw s) := by
  have counted : CountsDraw s (s.signIter + 1) := .inr ⟨rfl, hp, hcmd⟩
  rcases signDraw_cases s with ⟨-, h⟩ | ⟨-, k, d, -, ⟨-, h⟩ | ⟨-, -, h⟩ | ⟨-, -, h⟩⟩ <;> rw [h]
  · exact outcome_signFinish rfl counted (by decide)
  · exact outcome_signFinish rfl counted (by decide)
  · exact outcome_goto rfl counted (by decide) (by simp [phaseOf, hcmd])
  · exact outcome_goto rfl counted (by decide) (by simp [phaseOf, hcmd])

theorem signMulg_outcome {s : State} (hcmd : s.ctrl.cmd = 1) : ControllerOutcome s (signMulg s) := by
  rcases signMulg_cases s with ⟨-, h⟩ | ⟨-, x1, -, h⟩ <;> rw [h]
  · exact outcome_signFinish rfl (.inl rfl) (by decide)
  · exact outcome_goto rfl (.inl rfl) (by decide) (by simp [phaseOf, hcmd])

theorem signRs_outcome {s : State} (hcmd : s.ctrl.cmd = 1) : ControllerOutcome s (signRs s) := by
  rcases signRs_cases s with ⟨-, h⟩ | ⟨-, r, -, ⟨-, h⟩ | ⟨-, -, ⟨-, h⟩ | ⟨-, sv, -, ⟨-, h⟩ | ⟨-, h⟩⟩⟩⟩ <;> rw [h]
  · exact outcome_signFinish rfl (.inl rfl) (by decide)
  · exact outcome_goto rfl (.inl rfl) (by decide) (by simp [phaseOf, hcmd])
  · exact outcome_signFinish rfl (.inl rfl) (by decide)
  · exact outcome_goto rfl (.inl rfl) (by decide) (by simp [phaseOf, hcmd])
  · exact outcome_signFinish rfl (.inl rfl) (by decide)

theorem verifyCheck_outcome {s : State} (hcmd : s.ctrl.cmd = 2) : ControllerOutcome s (verifyCheck s) := by
  rcases verifyCheck_cases s with ⟨-, h⟩ | ⟨-, ⟨-, h⟩ | ⟨-, h⟩⟩ <;> rw [h]
  · exact outcome_verifyFinish rfl (.inl rfl) (by decide)
  · exact outcome_verifyFinish rfl (.inl rfl) (by decide)
  · exact outcome_goto rfl (.inl rfl) (by decide) (by simp [phaseOf, hcmd])

theorem verifyRange_outcome {s : State} (hcmd : s.ctrl.cmd = 2) : ControllerOutcome s (verifyRange s) := by
  rcases verifyRange_cases s with ⟨-, h⟩ | ⟨-, ⟨-, h⟩ | ⟨-, v, -, ⟨-, h⟩ | ⟨-, h⟩⟩⟩ <;> rw [h]
  · exact outcome_verifyFinish rfl (.inl rfl) (by decide)
  · exact outcome_verifyFinish rfl (.inl rfl) (by decide)
  · exact outcome_verifyFinish rfl (.inl rfl) (by decide)
  · exact outcome_goto rfl (.inl rfl) (by decide) (by simp [phaseOf, hcmd])

theorem verifyMul_outcome {s : State} (hcmd : s.ctrl.cmd = 2) : ControllerOutcome s (verifyMul s) := by
  rcases verifyMul_cases s with ⟨-, h⟩ | ⟨-, ⟨-, h⟩ | ⟨x1, -, h⟩⟩ <;> rw [h]
  · exact outcome_verifyFinish rfl (.inl rfl) (by decide)
  · exact outcome_verifyFinish rfl (.inl rfl) (by decide)
  · exact outcome_goto rfl (.inl rfl) (by decide) (by simp [phaseOf, hcmd])

theorem verifyCmp_outcome (s : State) : ControllerOutcome s (verifyCmp s) := by
  rcases verifyCmp_cases s with ⟨-, h⟩ | ⟨-, ⟨-, h⟩ | ⟨-, h⟩⟩ <;> rw [h]
  · exact outcome_verifyFinish rfl (.inl rfl) (by decide)
  · exact outcome_verifyFinish rfl (.inl rfl) (by decide)
  · exact outcome_verifyFinish rfl (.inl rfl) (by decide)

theorem mgf1Check_outcome {s : State} (hcmd : s.ctrl.cmd = 3) : ControllerOutcome s (mgf1Check s) := by
  rcases mgf1Check_cases s with ⟨-, h⟩ | ⟨-, ⟨-, h⟩ | ⟨-, -, u, rfl, ⟨-, h⟩ | ⟨-, h⟩⟩⟩ <;> rw [h]
  · exact outcome_outputFinish rfl (.inl rfl) (by decide)
  · exact outcome_outputFinish rfl (.inl rfl) (by decide)
  · exact outcome_outputFinish rfl (.inl rfl) (by decide)
  · exact outcome_goto rfl (.inl rfl) (by decide) (by simp [phaseOf, hcmd])

theorem mgf1Block_outcome {s : State} (hcmd : s.ctrl.cmd = 3) (hp : s.phase = .mBlock) :
    ControllerOutcome s (mgf1Block s) :=
  outcome_blockStep (by simp [hp]) (by simp [phaseOf, hp, hcmd]) (outcome_outputFinish rfl (.inl rfl) (by decide))
    fun _ _ => outcome_outputFinish rfl (.inl rfl) (by decide)

theorem encCheck_outcome {s : State} (hcmd : s.ctrl.cmd = 4) : ControllerOutcome s (encCheck s) := by
  rcases encCheck_cases s with ⟨-, h⟩ | ⟨-, ⟨-, h⟩ | ⟨-, -, -, _, -, ⟨-, h⟩ | ⟨-, -, h⟩ | ⟨-, h⟩⟩⟩ <;> rw [h]
  · exact outcome_outputFinish rfl (.inl rfl) (by decide)
  · exact outcome_outputFinish rfl (.inl rfl) (by decide)
  · exact outcome_outputFinish rfl (.inl rfl) (by decide)
  · exact outcome_outputFinish rfl (.inl rfl) (by decide)
  · exact outcome_goto rfl (.inl rfl) (by decide) (by simp [phaseOf, hcmd])

theorem encLhash_outcome {s : State} (hcmd : s.ctrl.cmd = 4) : ControllerOutcome s (encLhash s) := by
  rcases encLhash_cases s with ⟨-, h⟩ | ⟨-, alg, -, h⟩ <;> rw [h]
  · exact outcome_outputFinish rfl (.inl rfl) (by decide)
  · exact outcome_goto rfl (.inl rfl) (by decide) (by simp [phaseOf, hcmd])

theorem encSeed_outcome {s : State} (hcmd : s.ctrl.cmd = 4) : ControllerOutcome s (encSeed s) := by
  rcases encSeed_cases s with ⟨-, h⟩ | ⟨-, seed, d, -, h⟩ <;> rw [h]
  · exact outcome_outputFinish rfl (.inl rfl) (by decide)
  · exact outcome_goto rfl (.inl rfl) (by decide) (by simp [phaseOf, hcmd])

theorem encDbmask_outcome {s : State} (hcmd : s.ctrl.cmd = 4) (hp : s.phase = .eDbmask) :
    ControllerOutcome s (encDbmask s) :=
  outcome_blockStep (by simp [hp]) (by simp [phaseOf, hp, hcmd]) (outcome_outputFinish rfl (.inl rfl) (by decide))
    fun _ _ => outcome_goto rfl (.inl rfl) (by decide) (by simp [phaseOf, hcmd])

theorem encSeedmask_outcome {s : State} (hcmd : s.ctrl.cmd = 4) (hp : s.phase = .eSeedmask) :
    ControllerOutcome s (encSeedmask s) :=
  outcome_blockStep (by simp [hp]) (by simp [phaseOf, hp, hcmd]) (outcome_outputFinish rfl (.inl rfl) (by decide))
    fun _ _ => outcome_goto rfl (.inl rfl) (by decide) (by simp [phaseOf, hcmd])

theorem encOut_outcome (s : State) : ControllerOutcome s (encOut s) :=
  outcome_outputFinish rfl (.inl rfl) (by decide)

theorem decCheck_outcome {s : State} (hcmd : s.ctrl.cmd = 5) : ControllerOutcome s (decCheck s) := by
  rcases decCheck_cases s with ⟨-, h⟩ | ⟨-, ⟨-, h⟩ | ⟨-, -, -, _, -, ⟨-, h⟩ | ⟨-, h⟩⟩⟩ <;> rw [h]
  · exact outcome_outputFinish rfl (.inl rfl) (by decide)
  · exact outcome_outputFinish rfl (.inl rfl) (by decide)
  · exact outcome_outputFinish rfl (.inl rfl) (by decide)
  · exact outcome_goto rfl (.inl rfl) (by decide) (by simp [phaseOf, hcmd])

theorem decPad_outcome {s : State} (hcmd : s.ctrl.cmd = 5) : ControllerOutcome s (decPad s) :=
  outcome_goto rfl (.inl rfl) (by decide) (by simp [phaseOf, hcmd])

theorem decSeedmask_outcome {s : State} (hcmd : s.ctrl.cmd = 5) (hp : s.phase = .dSeedmask) :
    ControllerOutcome s (decSeedmask s) :=
  outcome_blockStep (by simp [hp]) (by simp [phaseOf, hp, hcmd]) (outcome_outputFinish rfl (.inl rfl) (by decide))
    fun _ _ => outcome_goto rfl (.inl rfl) (by decide) (by simp [phaseOf, hcmd])

theorem decDbmask_outcome {s : State} (hcmd : s.ctrl.cmd = 5) (hp : s.phase = .dDbmask) :
    ControllerOutcome s (decDbmask s) :=
  outcome_blockStep (by simp [hp]) (by simp [phaseOf, hp, hcmd]) (outcome_outputFinish rfl (.inl rfl) (by decide))
    fun _ _ => outcome_goto rfl (.inl rfl) (by decide) (by simp [phaseOf, hcmd])

theorem decLhash_outcome {s : State} (hcmd : s.ctrl.cmd = 5) : ControllerOutcome s (decLhash s) := by
  rcases decLhash_cases s with ⟨-, h⟩ | ⟨-, alg, -, h⟩ <;> rw [h]
  · exact outcome_outputFinish rfl (.inl rfl) (by decide)
  · exact outcome_goto rfl (.inl rfl) (by decide) (by simp [phaseOf, hcmd])

theorem decScan_outcome (s : State) : ControllerOutcome s (decScan s) := by
  obtain ⟨u, rfl, ⟨-, h⟩ | ⟨-, h⟩⟩ := decScan_cases s <;> rw [h]
  · exact outcome_outputFinish rfl (.inl rfl) (by decide)
  · exact outcome_outputFinish rfl (.inl rfl) (by decide)

/-- Every controller step runs on in a phase of its command or completes (R37, R115, R116). -/
theorem ControllerMove.outcome {s t : State} (h : ControllerMove s t) : ControllerOutcome s t := by
  cases h with
  | reserved => exact outcome_verifyFinish (code := .badCmd) rfl (.inl rfl) (by decide)
  | signCheck hcmd _ => exact signCheck_outcome hcmd
  | signDraw hcmd hp => exact signDraw_outcome hcmd hp
  | signMulg hcmd _ => exact signMulg_outcome hcmd
  | signRs hcmd _ => exact signRs_outcome hcmd
  | verifyCheck hcmd _ => exact verifyCheck_outcome hcmd
  | verifyRange hcmd _ => exact verifyRange_outcome hcmd
  | verifyMul hcmd _ => exact verifyMul_outcome hcmd
  | verifyCmp => exact verifyCmp_outcome s
  | mgf1Check hcmd _ => exact mgf1Check_outcome hcmd
  | mgf1Block hcmd hp => exact mgf1Block_outcome hcmd hp
  | encCheck hcmd _ => exact encCheck_outcome hcmd
  | encLhash hcmd _ => exact encLhash_outcome hcmd
  | encSeed hcmd _ => exact encSeed_outcome hcmd
  | encDbmask hcmd hp => exact encDbmask_outcome hcmd hp
  | encSeedmask hcmd hp => exact encSeedmask_outcome hcmd hp
  | encOut => exact encOut_outcome s
  | decCheck hcmd _ => exact decCheck_outcome hcmd
  | decPad hcmd _ => exact decPad_outcome hcmd
  | decSeedmask hcmd hp => exact decSeedmask_outcome hcmd hp
  | decDbmask hcmd hp => exact decDbmask_outcome hcmd hp
  | decLhash hcmd _ => exact decLhash_outcome hcmd
  | decScan => exact decScan_outcome s

/-! ### The invariant of the registers, the memory and the phase -/

/-- The host's queue is no part of the invariant. -/
theorem State.Consistent.withInputs {s : State} (h : s.Consistent) (inputs : List HostEvent) :
    ({ s with inputs := inputs } : State).Consistent := { h with }

theorem State.Consistent.storageMemory {s : State} (h : s.Consistent) : StorageMemory s.cfg s.mem :=
  ⟨h.mem_wf, h.mem_storage⟩

theorem ControllerOutcome.consistent {s t : State} (h : ControllerOutcome s t) (hb : s.phase ≠ .idle)
    (hs : s.Consistent) : t.Consistent := by
  cases h with
  | runs busy cmd _ =>
    exact { hs with
      idle_zero := fun idle => absurd idle busy
      phase_cmd := cmd
      busy_clear := fun _ => hs.busy_clear hb }
  | completes code done named mem _ =>
    have hmem := mem hs.cfg_wf hs.storageMemory
    rw [← done.control.cfg] at hmem
    exact {
      cfg_wf := done.control.cfg ▸ hs.cfg_wf
      mem_wf := hmem.1
      mem_storage := hmem.2
      idle_zero := fun _ => done.w
      phase_cmd := by rw [done.phase]; rfl
      busy_clear := fun busy => absurd done.phase busy
      valid_ok := by rw [done.valid, done.err, done.control.ctrl]; simp +contextual
      err_not_digest := by rw [done.err]; exact named }

theorem HostMove.consistent {s t : State} (h : HostMove s t) (hs : s.Consistent) : t.Consistent := by
  cases h with
  | reset => exact consistent_resetWith hs.cfg_wf _ _
  | answer | again | locked | irqEn => exact { hs with }
  | accept cmd hsel msel idle =>
    exact { hs with
      idle_zero := fun h => by simp at h
      phase_cmd := rfl
      busy_clear := fun _ => ⟨rfl, rfl, rfl, rfl⟩
      valid_ok := by simp
      err_not_digest := by simp }
  | status v =>
    exact { hs with
      busy_clear := fun busy => by
        obtain ⟨done, valid, err, outLen⟩ := hs.busy_clear busy
        exact ⟨by simp [writeStatus, State.answer, done], valid, err, outLen⟩ }
  | length r v idle => cases r <;> exact { hs with }
  | store off v idle =>
    have hmem := hs.storageMemory.storeLanes off (lanesOf v)
    exact { hs with mem_wf := hmem.1, mem_storage := hmem.2 }

/-- Settles O51, by what a step of each agent can do. -/
theorem stepKeepsConsistent : Obligations.StepKeepsConsistent := by
  intro s t hs hstep
  rcases step_cases hstep with ⟨-, -, rfl⟩ | ⟨_, _, -, -, move⟩ | ⟨hb, -, move⟩ | ⟨hb, _, _, -, -, move⟩
  · exact hs
  · exact move.consistent (hs.withInputs _)
  · exact move.outcome.consistent hb hs
  · exact move.outcome.consistent hb (hs.withInputs _)

end Sys2Proof.Machine

/-! PROOF. What the working registers hold in each phase of a running command, and that every step keeps it. -/

namespace Sys2Proof.Machine

open Sys2Proof.Config

/-! ### The answers of the providers lie in the ranges of the working registers (R35) -/

theorem ecMulG_lt {cfg : Params} (hc : cfg.WellFormed) {k x : Nat} (h : ecMulG cfg.curve k = some x) :
    x < 256 ^ cfg.sb := by
  obtain ⟨q, hq, rfl⟩ := Option.map_eq_some_iff.1 h
  cases k with
  | zero => cases hq
  | succ j => exact (hc.coord_lt q (List.mem_of_getElem? hq)).1

theorem signS_lt {n dA k r sv : Nat} (hn : 0 < n) (h : signS n dA k r = some sv) : sv < n := by
  obtain ⟨inv, -, rfl⟩ := Option.map_eq_some_iff.1 h
  have hpos : (0 : Int) < n := by exact_mod_cast hn
  have hlt := Int.emod_lt_of_pos ((inv : Int) * ((k : Int) - (r : Int) * (dA : Int))) hpos
  have hnonneg := Int.emod_nonneg ((inv : Int) * ((k : Int) - (r : Int) * (dA : Int))) hpos.ne'
  omega

theorem hlen_pos {cfg : Params} (hc : cfg.WellFormed) {sel : Sel} (h : (hashEntry cfg sel).isSome = true) :
    0 < hlen cfg sel := by
  obtain ⟨alg, halg⟩ := Option.isSome_iff_exists.1 h
  rw [hlen_of_entry halg]
  unfold hashEntry at halg
  split at halg
  · cases halg
  · obtain ⟨e, he, rfl⟩ := Option.map_eq_some_iff.1 halg
    exact hc.hash_len_pos e (List.mem_of_find?_eq_some he)

/-! ### The invariant of the working registers, command by command

Each clause of `State.InFlight` speaks of some phases; in a phase of one command the clauses of the others say
nothing. -/

/-- What SM2_SIGN and SM2_VERIFY hold after CHECK. -/
def Sm2Operands (s : State) : Prop :=
  s.w.n = s.cfg.curve.order ∧ s.w.e = scalarE s ∧ s.eLen.toNat ≤ s.cfg.emax

/-- What a command with a mask holds after CHECK. -/
def MaskOperands (s : State) : Prop :=
  s.w.ms = resolvedMs s ∧ validSel s s.w.ms = true ∧ s.w.hm = hlen s.cfg s.w.ms ∧
    s.inLen.toNat ≤ s.cfg.bmax ∧ s.tlen.toNat ≤ s.cfg.bmax ∧ s.tlen ≠ 0

/-- What OAEP_ENC and OAEP_DEC hold beside it. -/
def OaepOperands (s : State) : Prop :=
  s.w.hs = resolvedHs s ∧ validSel s s.w.hs = true ∧ s.w.h = hlen s.cfg s.w.hs ∧
    s.labelLen.toNat ≤ s.cfg.lmax ∧ 2 * s.w.h + 2 ≤ s.tlen.toNat

theorem State.InFlight.of_signing {s : State} (hp : s.phase = .sDraw ∨ s.phase = .sMulg ∨ s.phase = .sRs)
    (operands : Sm2Operands s) (key : 1 ≤ scalar s .da ∧ scalar s .da + 2 ≤ s.w.n)
    (regs : s.w.k < s.w.n ∧ s.w.x1 < 256 ^ s.cfg.sb ∧ s.w.r < s.w.n ∧ s.w.s < s.w.n)
    (nonce : s.phase = .sMulg ∨ s.phase = .sRs → 1 ≤ s.w.k)
    (point : s.phase = .sRs → ecMulG s.cfg.curve s.w.k = some s.w.x1) : s.InFlight := by
  constructor
  case sm2 => exact fun _ => operands
  case sign_key => exact fun _ => key
  case sign_regs => exact fun _ => regs
  case sign_nonce => exact nonce
  case sign_point => exact point
  all_goals
    rcases hp with hp | hp | hp <;> simp [hp, Phase.verifying, Phase.encoding, Phase.decoding, maskLength]

theorem State.InFlight.of_verifying {s : State} (hp : s.phase = .vRange ∨ s.phase = .vMul ∨ s.phase = .vCmp)
    (operands : Sm2Operands s) (signature : s.w.r = scalar s .r ∧ s.w.s = scalar s .s)
    (range : s.phase = .vMul ∨ s.phase = .vCmp →
      1 ≤ s.w.r ∧ s.w.r < s.w.n ∧ 1 ≤ s.w.s ∧ s.w.s < s.w.n ∧ s.w.t = (s.w.r + s.w.s) % s.w.n ∧ s.w.t ≠ 0)
    (sum : s.phase = .vCmp →
      ecMul2 s.cfg.curve s.w.s s.w.t (scalar s .paX, scalar s .paY) = some (.affine s.w.x1)) : s.InFlight := by
  constructor
  case sm2 => exact fun _ => operands
  case verify_operands => exact fun _ => signature
  case verify_range => exact range
  case verify_sum => exact sum
  all_goals
    rcases hp with hp | hp | hp <;> simp [hp, Phase.signing, Phase.encoding, Phase.decoding, maskLength]

theorem State.InFlight.of_masking {s : State} (hp : s.phase = .mBlock) (operands : MaskOperands s)
    (short : s.w.out.length < s.tlen.toNat) : s.InFlight := by
  constructor
  case mask_sel => exact fun _ => operands
  case mask_partial => simpa [hp, maskLength] using short
  all_goals simp [hp, Phase.signing, Phase.verifying, Phase.encoding, Phase.decoding]

theorem State.InFlight.of_encoding {s : State} (hp : s.phase.encoding = true)
    (mask : MaskOperands s) (oaep : OaepOperands s)
    (room : s.inLen.toNat + 2 * s.w.h + 2 ≤ s.tlen.toNat)
    (seed : s.phase = .eDbmask ∨ s.phase = .eSeedmask ∨ s.phase = .eOut → s.w.seed.length = s.w.h)
    (db : s.phase ≠ .eLhash → s.w.db.length = dblen s) (short : ∀ L ∈ maskLength s, s.w.out.length < L) :
    s.InFlight := by
  have hcases : s.phase = .eLhash ∨ s.phase = .eSeed ∨ s.phase = .eDbmask ∨ s.phase = .eSeedmask ∨ s.phase = .eOut := by
    simpa [Phase.encoding, or_assoc] using hp
  have hdec : s.phase.decoding = false := by
    rcases hcases with hp | hp | hp | hp | hp <;> simp [hp, Phase.decoding]
  constructor
  case mask_sel => exact fun _ => mask
  case oaep_sel => exact fun _ => oaep
  case enc_room => exact fun _ => room
  case seed_length => simpa [hdec] using seed
  case db_length => simpa [hdec, hp] using db
  case mask_partial => exact short
  all_goals
    rcases hcases with hp | hp | hp | hp | hp <;> simp [hp, Phase.signing, Phase.verifying]

theorem State.InFlight.of_decoding {s : State} (hp : s.phase.decoding = true)
    (mask : MaskOperands s) (oaep : OaepOperands s)
    (seed : s.phase ≠ .dPad → s.w.seed.length = s.w.h) (db : s.phase ≠ .dPad → s.w.db.length = dblen s)
    (short : ∀ L ∈ maskLength s, s.w.out.length < L) : s.InFlight := by
  have hcases : s.phase = .dPad ∨ s.phase = .dSeedmask ∨ s.phase = .dDbmask ∨ s.phase = .dLhash ∨ s.phase = .dScan := by
    simpa [Phase.decoding, or_assoc] using hp
  have henc : s.phase ≠ .eDbmask ∧ s.phase ≠ .eSeedmask ∧ s.phase ≠ .eOut ∧ s.phase.encoding = false := by
    rcases hcases with hp | hp | hp | hp | hp <;> simp [hp, Phase.encoding]
  constructor
  case mask_sel => exact fun _ => mask
  case oaep_sel => exact fun _ => oaep
  case seed_length => simpa [hp, henc] using seed
  case db_length => simpa [hp, henc] using db
  case mask_partial => exact short
  all_goals
    rcases hcases with hp | hp | hp | hp | hp <;> simp [hp, Phase.signing, Phase.verifying, Phase.encoding]

/-- What no phase of SM2_SIGN or SM2_VERIFY after CHECK writes before it completes. -/
structure SameSm2 (s t : State) : Prop where
  cfg : t.cfg = s.cfg
  eLen : t.eLen = s.eLen
  mem : t.mem = s.mem
  n : t.w.n = s.w.n
  e : t.w.e = s.w.e

theorem SameSm2.scalar {s t : State} (same : SameSm2 s t) (win : Win) : scalar t win = scalar s win := by
  rw [Machine.scalar, State.winBytes, same.cfg, same.mem, Machine.scalar, State.winBytes]

theorem SameSm2.operands {s t : State} (same : SameSm2 s t) (h : Sm2Operands s) : Sm2Operands t := by
  simpa only [Sm2Operands, scalarE, State.winBytes, same.cfg, same.eLen, same.mem, same.n, same.e] using h

/-- A step of SM2_SIGN from one of its phases to another. -/
theorem State.InFlight.signing_step {s t : State} (hs : s.InFlight) (from_sign : s.phase.signing = true)
    (to_sign : t.phase = .sDraw ∨ t.phase = .sMulg ∨ t.phase = .sRs) (same : SameSm2 s t)
    (regs : t.w.k < s.w.n ∧ t.w.x1 < 256 ^ s.cfg.sb ∧ t.w.r < s.w.n ∧ t.w.s < s.w.n)
    (nonce : t.phase = .sMulg ∨ t.phase = .sRs → 1 ≤ t.w.k)
    (point : t.phase = .sRs → ecMulG s.cfg.curve t.w.k = some t.w.x1) : t.InFlight :=
  .of_signing to_sign (same.operands (hs.sm2 (.inl from_sign)))
    (by rw [same.scalar, same.n]; exact hs.sign_key from_sign) (by rwa [same.n, same.cfg]) nonce (by rwa [same.cfg])

/-- A step of SM2_VERIFY from one of its phases to another. -/
theorem State.InFlight.verifying_step {s t : State} (hs : s.InFlight) (from_verify : s.phase.verifying = true)
    (to_verify : t.phase = .vRange ∨ t.phase = .vMul ∨ t.phase = .vCmp) (same : SameSm2 s t)
    (signature : t.w.r = s.w.r ∧ t.w.s = s.w.s)
    (range : t.phase = .vMul ∨ t.phase = .vCmp →
      1 ≤ s.w.r ∧ s.w.r < s.w.n ∧ 1 ≤ s.w.s ∧ s.w.s < s.w.n ∧ t.w.t = (s.w.r + s.w.s) % s.w.n ∧ t.w.t ≠ 0)
    (sum : t.phase = .vCmp →
      ecMul2 s.cfg.curve s.w.s t.w.t (scalar s .paX, scalar s .paY) = some (.affine t.w.x1)) : t.InFlight := by
  obtain ⟨hr, hsv⟩ := signature
  refine .of_verifying to_verify (same.operands (hs.sm2 (.inr from_verify))) ?_ (by rwa [hr, hsv, same.n])
    (by rwa [same.cfg, hsv, same.scalar, same.scalar])
  rw [hr, hsv, same.scalar, same.scalar]
  exact hs.verify_operands from_verify

/-- What no phase of OAEP_ENC or OAEP_DEC after CHECK writes. -/
structure SameOaep (s t : State) : Prop where
  cfg : t.cfg = s.cfg
  ctrl : t.ctrl = s.ctrl
  inLen : t.inLen = s.inLen
  tlen : t.tlen = s.tlen
  labelLen : t.labelLen = s.labelLen
  hs : t.w.hs = s.w.hs
  ms : t.w.ms = s.w.ms
  h : t.w.h = s.w.h
  hm : t.w.hm = s.w.hm

theorem SameOaep.mask {s t : State} (same : SameOaep s t) (h : MaskOperands s) : MaskOperands t := by
  simpa only [MaskOperands, resolvedMs, resolvedHs, validSel, same.cfg, same.ctrl, same.inLen, same.tlen, same.ms,
    same.hm] using h

theorem SameOaep.oaep {s t : State} (same : SameOaep s t) (h : OaepOperands s) : OaepOperands t := by
  simpa only [OaepOperands, resolvedHs, validSel, same.cfg, same.ctrl, same.labelLen, same.tlen, same.hs, same.h]
    using h

theorem SameOaep.dblen {s t : State} (same : SameOaep s t) : dblen t = dblen s := by
  rw [Machine.dblen, same.tlen, same.h, Machine.dblen]

/-- A step of OAEP_ENC from one of its phases to another. -/
theorem State.InFlight.encoding_step {s t : State} (hs : s.InFlight) (from_enc : s.phase.encoding = true)
    (to_enc : t.phase.encoding = true) (same : SameOaep s t)
    (seed : t.phase = .eDbmask ∨ t.phase = .eSeedmask ∨ t.phase = .eOut → t.w.seed.length = s.w.h)
    (db : t.phase ≠ .eLhash → t.w.db.length = dblen s) (short : ∀ L ∈ maskLength t, t.w.out.length < L) :
    t.InFlight :=
  .of_encoding to_enc (same.mask (hs.mask_sel (.inr (.inl from_enc)))) (same.oaep (hs.oaep_sel (.inl from_enc)))
    (by rw [same.inLen, same.h, same.tlen]; exact hs.enc_room from_enc) (by rwa [same.h]) (by rwa [same.dblen]) short

/-- A step of OAEP_DEC from one of its phases to another. -/
theorem State.InFlight.decoding_step {s t : State} (hs : s.InFlight) (from_dec : s.phase.decoding = true)
    (to_dec : t.phase.decoding = true) (same : SameOaep s t) (seed : t.phase ≠ .dPad → t.w.seed.length = s.w.h)
    (db : t.phase ≠ .dPad → t.w.db.length = dblen s) (short : ∀ L ∈ maskLength t, t.w.out.length < L) :
    t.InFlight :=
  .of_decoding to_dec (same.mask (hs.mask_sel (.inr (.inr from_dec)))) (same.oaep (hs.oaep_sel (.inr from_dec)))
    (by rwa [same.h]) (by rwa [same.dblen]) short

/-- The invariant reads the parameters, CTRL, the operands, the phase and the working registers only. -/
theorem State.InFlight.of_same {s : State} (h : s.InFlight) {done valid werr irqEn : Bool} {err : ErrCode}
    {outLen : Half} {signIter : Word} {inputs : List HostEvent} {bus : BusResponse} {draws : Draws} :
    ({ s with
      done := done, valid := valid, werr := werr, irqEn := irqEn, err := err, outLen := outLen, signIter := signIter,
      inputs := inputs, bus := bus, draws := draws } : State).InFlight := { h with }

/-! ### SM2_SIGN -/

theorem signCheck_inFlight {s : State} (hp : s.phase = .check) (hs : s.InFlight) :
    (signCheck s).InFlight := by
  rcases signCheck_cases s with ⟨-, h⟩ | ⟨hlen, ⟨-, h⟩ | ⟨-, h1, h2, h⟩ | ⟨-, -, h⟩⟩ <;> rw [h]
  · exact .of_idle rfl
  · exact .of_idle rfl
  · rw [hs.check_zero hp]
    exact .of_signing (.inl rfl) ⟨rfl, rfl, hlen⟩ ⟨h1, h2⟩
      ⟨Nat.succ_pos _, Nat.pow_pos (by decide), Nat.succ_pos _, Nat.succ_pos _⟩ (by simp) (by simp)
  · exact .of_idle rfl

theorem signDraw_inFlight {s : State} (hp : s.phase = .sDraw) (hs : s.InFlight) : (signDraw s).InFlight := by
  have signing : s.phase.signing = true := by simp [hp, Phase.signing]
  obtain ⟨hk, hx1, hr, hsv⟩ := hs.sign_regs signing
  rcases signDraw_cases s with ⟨-, h⟩ | ⟨-, k, d, -, ⟨-, h⟩ | ⟨-, -, h⟩ | ⟨hkn, hk0, h⟩⟩ <;> rw [h]
  · exact .of_idle rfl
  · exact .of_idle rfl
  · exact hs.signing_step signing (.inl rfl) (by constructor <;> simp) ⟨hk, hx1, hr, hsv⟩ (by simp) (by simp)
  · exact hs.signing_step signing (.inr (.inl rfl)) (by constructor <;> simp) ⟨hkn, hx1, hr, hsv⟩
      (fun _ => Nat.pos_of_ne_zero hk0) (by simp)

theorem signMulg_inFlight {s : State} (hc : s.cfg.WellFormed) (hp : s.phase = .sMulg) (hs : s.InFlight) :
    (signMulg s).InFlight := by
  have signing : s.phase.signing = true := by simp [hp, Phase.signing]
  obtain ⟨hk, -, hr, hsv⟩ := hs.sign_regs signing
  rcases signMulg_cases s with ⟨-, h⟩ | ⟨-, x1, hx1, h⟩ <;> rw [h]
  · exact .of_idle rfl
  · exact hs.signing_step signing (.inr (.inr rfl)) (by constructor <;> simp) ⟨hk, ecMulG_lt hc hx1, hr, hsv⟩
      (fun _ => hs.sign_nonce (.inl hp)) (fun _ => hx1)

theorem signRs_inFlight {s : State} (hp : s.phase = .sRs) (hs : s.InFlight) : (signRs s).InFlight := by
  have signing : s.phase.signing = true := by simp [hp, Phase.signing]
  obtain ⟨hk, hx1, -, hsv⟩ := hs.sign_regs signing
  have hn : 0 < s.w.n := by omega
  rcases signRs_cases s with
    ⟨-, h⟩ | ⟨-, r, rfl, ⟨-, h⟩ | ⟨-, -, ⟨-, h⟩ | ⟨-, sv, hsv', ⟨-, h⟩ | ⟨-, h⟩⟩⟩⟩ <;> rw [h]
  · exact .of_idle rfl
  · exact hs.signing_step signing (.inl rfl) (by constructor <;> simp) ⟨hk, hx1, Nat.mod_lt _ hn, hsv⟩ (by simp)
      (by simp)
  · exact .of_idle rfl
  · exact hs.signing_step signing (.inl rfl) (by constructor <;> simp)
      ⟨hk, hx1, Nat.mod_lt _ hn, signS_lt hn hsv'⟩ (by simp) (by simp)
  · exact .of_idle rfl

/-! ### SM2_VERIFY -/

theorem verifyCheck_inFlight (s : State) : (verifyCheck s).InFlight := by
  rcases verifyCheck_cases s with ⟨-, h⟩ | ⟨hlen, ⟨-, h⟩ | ⟨-, h⟩⟩ <;> rw [h]
  · exact .of_idle rfl
  · exact .of_idle rfl
  · exact .of_verifying (.inl rfl) ⟨rfl, rfl, hlen⟩ ⟨rfl, rfl⟩ (by simp) (by simp)

theorem verifyRange_inFlight {s : State} (hp : s.phase = .vRange) (hs : s.InFlight) : (verifyRange s).InFlight := by
  have verifying : s.phase.verifying = true := by simp [hp, Phase.verifying]
  rcases verifyRange_cases s with ⟨-, h⟩ | ⟨hrange, ⟨-, h⟩ | ⟨-, t, ht, ⟨-, h⟩ | ⟨ht0, h⟩⟩⟩ <;> rw [h]
  · exact .of_idle rfl
  · exact .of_idle rfl
  · exact .of_idle rfl
  · obtain ⟨hr, hrn, hsv, hsn⟩ := hrange
    exact hs.verifying_step verifying (.inr (.inl rfl)) (by constructor <;> simp) ⟨rfl, rfl⟩
      (fun _ => ⟨hr, hrn, hsv, hsn, ht, ht0⟩) (by simp)

theorem verifyMul_inFlight {s : State} (hp : s.phase = .vMul) (hs : s.InFlight) : (verifyMul s).InFlight := by
  have verifying : s.phase.verifying = true := by simp [hp, Phase.verifying]
  rcases verifyMul_cases s with ⟨-, h⟩ | ⟨-, ⟨-, h⟩ | ⟨x1, hx1, h⟩⟩ <;> rw [h]
  · exact .of_idle rfl
  · exact .of_idle rfl
  · exact hs.verifying_step verifying (.inr (.inr rfl)) (by constructor <;> simp) ⟨rfl, rfl⟩
      (fun _ => hs.verify_range (.inl hp)) (fun _ => hx1)

theorem verifyCmp_inFlight (s : State) : (verifyCmp s).InFlight := by
  rcases verifyCmp_cases s with ⟨-, h⟩ | ⟨-, ⟨-, h⟩ | ⟨-, h⟩⟩ <;> rw [h] <;> exact .of_idle rfl

/-! ### The masking phases (R88) -/

/-- A block step keeps the invariant when its failure and its finished mask do: a block short of the mask's length is
appended, and nothing else changes. -/
theorem blockStep_inFlight {s : State} {src : List Byte} {L : Nat} {fail : State → State}
    {use : List Byte → State → State} (hL : maskLength s = some L) (hs : s.InFlight)
    (hfail : (fail s.drawn).InFlight)
    (huse : ∀ mask : List Byte, mask.length = L →
      (use mask (s.drawn.setW { s.w with out := [], i := 0 })).InFlight) :
    (blockStep src L fail use s).InFlight := by
  rcases blockStep_cases src L fail use s with ⟨-, h⟩ | ⟨alg, -, -, ⟨hlen, h⟩ | ⟨hlen, h⟩⟩ <;> rw [h]
  · exact hfail
  · exact huse _ (by rw [List.length_take, List.length_append, digest_length]; omega)
  · exact { hs with
      check_zero := fun hp => by rw [State.setW_phase, State.drawn_phase] at hp; simp [maskLength, hp] at hL
      mask_partial := fun L' hL' => by
        obtain rfl : L = L' := Option.some.inj (hL.symm.trans hL')
        simpa using hlen }

theorem mgf1Check_inFlight (s : State) : (mgf1Check s).InFlight := by
  rcases mgf1Check_cases s with ⟨-, h⟩ | ⟨hsel, ⟨-, h⟩ | ⟨hin, ht, u, rfl, ⟨-, h⟩ | ⟨ht0, h⟩⟩⟩ <;> rw [h]
  · exact .of_idle rfl
  · exact .of_idle rfl
  · exact .of_idle rfl
  · exact .of_masking rfl ⟨rfl, hsel, rfl, hin, ht, ht0⟩ (Nat.pos_of_ne_zero fun h0 => ht0 (BitVec.eq_of_toNat_eq h0))

theorem mgf1Block_inFlight {s : State} (hp : s.phase = .mBlock) (hs : s.InFlight) : (mgf1Block s).InFlight :=
  blockStep_inFlight (by simp [maskLength, hp]) hs (.of_idle rfl) fun _ _ => .of_idle rfl

/-! ### OAEP_ENC -/

theorem encCheck_inFlight (s : State) : (encCheck s).InFlight := by
  rcases encCheck_cases s with
    ⟨-, h⟩ | ⟨⟨hhs, hms⟩, ⟨-, h⟩ | ⟨hin, ht, hlab, _, rfl, ⟨-, h⟩ | ⟨-, -, h⟩ | ⟨hroom, h⟩⟩⟩ <;> rw [h]
  · exact .of_idle rfl
  · exact .of_idle rfl
  · exact .of_idle rfl
  · exact .of_idle rfl
  · have ht0 : s.tlen ≠ 0 := fun h0 => by simp [h0] at hroom
    exact .of_encoding rfl ⟨rfl, hms, rfl, hin, ht, ht0⟩ ⟨rfl, hhs, rfl, hlab, by simp; omega⟩ hroom (by simp) (by simp)
      (by simp [maskLength])

theorem dataBlock_length {s : State} {lhash : List Byte} (hl : lhash.length = s.w.h)
    (room : s.inLen.toNat + 2 * s.w.h + 2 ≤ s.tlen.toNat) : (dataBlock s lhash).length = dblen s := by
  simp only [dataBlock, inputBytes, dblen, List.length_append, zeros_length, State.winBytes_length,
    List.length_singleton, hl]
  omega

theorem encLhash_inFlight {s : State} (hp : s.phase = .eLhash) (hs : s.InFlight) : (encLhash s).InFlight := by
  have henc : s.phase.encoding = true := by simp [hp, Phase.encoding]
  obtain ⟨-, -, hh, -⟩ := hs.oaep_sel (.inl henc)
  rcases encLhash_cases s with ⟨-, h⟩ | ⟨-, alg, halg, h⟩ <;> rw [h]
  · exact .of_idle rfl
  · have hl : (digest alg (labelBytes s)).length = s.w.h := by rw [digest_length, hh, hlen_of_entry halg]
    exact hs.encoding_step henc rfl (by constructor <;> simp) (by simp)
      (fun _ => dataBlock_length hl (hs.enc_room henc)) (by simp [maskLength])

theorem encSeed_inFlight {s : State} (hp : s.phase = .eSeed) (hs : s.InFlight) : (encSeed s).InFlight := by
  have henc : s.phase.encoding = true := by simp [hp, Phase.encoding]
  have hdb := hs.db_length (.inl ⟨henc, by simp [hp]⟩)
  have hkey := hs.enc_room henc
  rcases encSeed_cases s with ⟨-, h⟩ | ⟨-, seed, d, hd, h⟩ <;> rw [h]
  · exact .of_idle rfl
  · have hseed : seed.length = s.w.h := by rw [show seed = _ from congrArg Prod.fst hd, drawBytes_length]
    refine hs.encoding_step henc rfl (by constructor <;> simp) (fun _ => hseed) (fun _ => hdb) ?_
    simp [maskLength, dblen]
    omega

theorem encDbmask_inFlight {s : State} (hc : s.cfg.WellFormed) (hp : s.phase = .eDbmask) (hs : s.InFlight) :
    (encDbmask s).InFlight := by
  have henc : s.phase.encoding = true := by simp [hp, Phase.encoding]
  have hdb := hs.db_length (.inl ⟨henc, by simp [hp]⟩)
  have hseed := hs.seed_length (.inl hp)
  obtain ⟨-, hsel, hh, -⟩ := hs.oaep_sel (.inl henc)
  refine blockStep_inFlight (by simp [maskLength, hp]) hs (.of_idle rfl) fun mask hmask => ?_
  refine hs.encoding_step henc rfl (by constructor <;> simp) (fun _ => hseed) (fun _ => by simp [hmask, hdb]) ?_
  simpa [maskLength, hh] using hlen_pos hc hsel

theorem encSeedmask_inFlight {s : State} (hp : s.phase = .eSeedmask) (hs : s.InFlight) : (encSeedmask s).InFlight := by
  have henc : s.phase.encoding = true := by simp [hp, Phase.encoding]
  have hdb := hs.db_length (.inl ⟨henc, by simp [hp]⟩)
  have hseed := hs.seed_length (.inr (.inl hp))
  refine blockStep_inFlight (by simp [maskLength, hp]) hs (.of_idle rfl) fun mask hmask => ?_
  exact hs.encoding_step henc rfl (by constructor <;> simp) (fun _ => by simp [hmask, hseed]) (fun _ => hdb)
    (by simp [maskLength])

/-! ### OAEP_DEC -/

theorem decCheck_inFlight (s : State) : (decCheck s).InFlight := by
  rcases decCheck_cases s with
    ⟨-, h⟩ | ⟨⟨hhs, hms⟩, ⟨-, h⟩ | ⟨hin, ht, hlab, _, rfl, ⟨-, h⟩ | ⟨hkey, h⟩⟩⟩ <;> rw [h]
  · exact .of_idle rfl
  · exact .of_idle rfl
  · exact .of_idle rfl
  · have ht0 : s.tlen ≠ 0 := fun h0 => by simp [h0] at hkey
    exact .of_decoding rfl ⟨rfl, hms, rfl, hin, ht, ht0⟩ ⟨rfl, hhs, rfl, hlab, hkey⟩ (by simp) (by simp)
      (by simp [maskLength])

theorem decoding_lengths {s : State} (hp : s.phase.decoding = true) (hpad : s.phase ≠ .dPad) (hs : s.InFlight) :
    s.w.seed.length = s.w.h ∧ s.w.db.length = dblen s :=
  ⟨hs.seed_length (.inr (.inr (.inr ⟨hp, hpad⟩))), hs.db_length (.inr ⟨hp, hpad⟩)⟩

theorem paddedBlock_length (s : State) : (paddedBlock s).length = s.tlen.toNat := by
  unfold paddedBlock
  split
  · simp
  · simp [inputBytes]; omega

theorem decPad_inFlight {s : State} (hc : s.cfg.WellFormed) (hp : s.phase = .dPad) (hs : s.InFlight) :
    (decPad s).InFlight := by
  have hdec : s.phase.decoding = true := by simp [hp, Phase.decoding]
  obtain ⟨-, hsel, hh, -, hkey⟩ := hs.oaep_sel (.inr hdec)
  unfold decPad
  refine hs.decoding_step hdec rfl (by constructor <;> simp) (fun _ => ?_) (fun _ => ?_) ?_
  · simp [paddedBlock_length]; omega
  · simp [paddedBlock_length, dblen]; omega
  · simpa [maskLength, hh] using hlen_pos hc hsel

theorem decSeedmask_inFlight {s : State} (hp : s.phase = .dSeedmask) (hs : s.InFlight) : (decSeedmask s).InFlight := by
  have hdec : s.phase.decoding = true := by simp [hp, Phase.decoding]
  obtain ⟨hseed, hdb⟩ := decoding_lengths hdec (by simp [hp]) hs
  obtain ⟨-, -, -, -, hkey⟩ := hs.oaep_sel (.inr hdec)
  refine blockStep_inFlight (by simp [maskLength, hp]) hs (.of_idle rfl) fun mask hmask => ?_
  unfold unmaskSeed
  refine hs.decoding_step hdec rfl (by constructor <;> simp) (fun _ => by simp [hmask, hseed]) (fun _ => hdb) ?_
  simp [maskLength, dblen]
  omega

theorem decDbmask_inFlight {s : State} (hp : s.phase = .dDbmask) (hs : s.InFlight) : (decDbmask s).InFlight := by
  have hdec : s.phase.decoding = true := by simp [hp, Phase.decoding]
  obtain ⟨hseed, hdb⟩ := decoding_lengths hdec (by simp [hp]) hs
  refine blockStep_inFlight (by simp [maskLength, hp]) hs (.of_idle rfl) fun mask hmask => ?_
  unfold unmaskDb
  exact hs.decoding_step hdec rfl (by constructor <;> simp) (fun _ => hseed) (fun _ => by simp [hmask, hdb])
    (by simp [maskLength])

theorem decLhash_inFlight {s : State} (hp : s.phase = .dLhash) (hs : s.InFlight) : (decLhash s).InFlight := by
  have hdec : s.phase.decoding = true := by simp [hp, Phase.decoding]
  obtain ⟨hseed, hdb⟩ := decoding_lengths hdec (by simp [hp]) hs
  rcases decLhash_cases s with ⟨-, h⟩ | ⟨-, alg, -, h⟩ <;> rw [h]
  · exact .of_idle rfl
  · exact hs.decoding_step hdec rfl (by constructor <;> simp) (fun _ => hseed) (fun _ => hdb) (by simp [maskLength])

theorem decScan_inFlight (s : State) : (decScan s).InFlight := by
  obtain ⟨u, -, ⟨-, h⟩ | ⟨-, h⟩⟩ := decScan_cases s <;> rw [h] <;> exact .of_idle rfl

/-! ### Every step -/

theorem ControllerMove.inFlight {s t : State} (h : ControllerMove s t) (hc : s.cfg.WellFormed) (hs : s.InFlight) :
    t.InFlight := by
  cases h with
  | reserved | encOut => exact .of_idle rfl
  | signCheck _ hp => exact signCheck_inFlight hp hs
  | signDraw _ hp => exact signDraw_inFlight hp hs
  | signMulg _ hp => exact signMulg_inFlight hc hp hs
  | signRs _ hp => exact signRs_inFlight hp hs
  | verifyCheck => exact verifyCheck_inFlight s
  | verifyRange _ hp => exact verifyRange_inFlight hp hs
  | verifyMul _ hp => exact verifyMul_inFlight hp hs
  | verifyCmp => exact verifyCmp_inFlight s
  | mgf1Check => exact mgf1Check_inFlight s
  | mgf1Block _ hp => exact mgf1Block_inFlight hp hs
  | encCheck => exact encCheck_inFlight s
  | encLhash _ hp => exact encLhash_inFlight hp hs
  | encSeed _ hp => exact encSeed_inFlight hp hs
  | encDbmask _ hp => exact encDbmask_inFlight hc hp hs
  | encSeedmask _ hp => exact encSeedmask_inFlight hp hs
  | decCheck => exact decCheck_inFlight s
  | decPad _ hp => exact decPad_inFlight hc hp hs
  | decSeedmask _ hp => exact decSeedmask_inFlight hp hs
  | decDbmask _ hp => exact decDbmask_inFlight hp hs
  | decLhash _ hp => exact decLhash_inFlight hp hs
  | decScan => exact decScan_inFlight s

/-- The busy lock keeps a host's move from every operand of a running command (R47, R53); an accepted command starts
with the zero working registers of an IDLE block (R36). -/
theorem HostMove.inFlight {s t : State} (h : HostMove s t) (hzero : s.phase = .idle → s.w = Working.zero)
    (hs : s.InFlight) : t.InFlight := by
  cases h with
  | reset => exact .of_idle rfl
  | answer | again | locked | status | irqEn => exact hs.of_same
  | accept cmd hsel msel idle =>
    constructor
    case check_zero => exact fun _ => hzero idle
    all_goals simp [maskLength, Phase.signing, Phase.verifying, Phase.encoding, Phase.decoding]
  | length r v idle => exact .of_idle (by cases r <;> exact idle)
  | store off v idle => exact .of_idle idle

/-- Settles O52, by what a step of each agent can do; the controller's, phase by phase. -/
theorem stepKeepsInFlight : Obligations.StepKeepsInFlight := by
  intro s t hc hs hstep
  rcases step_cases hstep with ⟨-, -, rfl⟩ | ⟨_, _, -, -, move⟩ | ⟨-, -, move⟩ | ⟨-, _, _, -, -, move⟩
  · exact hs
  · exact move.inFlight hc.idle_zero hs.of_same
  · exact move.inFlight hc.cfg_wf hs
  · exact move.inFlight hc.cfg_wf hs.of_same

end Sys2Proof.Machine

/-! PROOF. Host accesses: what a legal read answers and what a legal write changes (spec/20_memory.md R41 to R49). -/

namespace Sys2Proof.Machine

open Sys2Proof.Config

/-! ### The step of a legal access (R41) -/

/-- The step of a word write at an offset of the block. -/
theorem step_write {off : Nat} {v : Word} {rest : List HostEvent} {s : State} (ho : off < 0x4000) (hm : off % 4 = 0)
    (h : HostNext (.write (s.cfg.base + off) 4 v) rest s) :
    step s = takeAction (if regAt off = some .ctrl then commandWrite v { s with inputs := rest, bus := .written }
      else .settled (.next ((memWrite off v { s with inputs := rest }).answer .written))) := by
  have hw : windowOffset s.cfg (s.cfg.base + off) = some off := by simp [windowOffset, ho]
  rw [step_host h]
  simp only [hostAction, hw, hostWrite, legalAccess, hm]
  rfl

theorem step_memWrite {off : Nat} {v : Word} {rest : List HostEvent} {s : State} (ho : off < 0x4000)
    (hm : off % 4 = 0) (hr : regAt off ≠ some .ctrl) (h : HostNext (.write (s.cfg.base + off) 4 v) rest s) :
    step s = .next ((memWrite off v { s with inputs := rest }).answer .written) := by
  rw [step_write ho hm h, if_neg hr]; rfl

/-- Settles O4: the host's turn reaches `exec` through the decoder, the controller's through the latched fields. -/
theorem stepRunsDecodedCommand : Obligations.StepRunsDecodedCommand := by
  refine ⟨fun s v i rest hnext hidle hdecode => ?_, fun s i hq hb hl => step_busy hq hb hl,
    fun s i wait op rest hq hb hl => ?_⟩
  · have hbusy : State.busy { s with inputs := rest, bus := .written } = false := by simp [State.busy, hidle]
    rw [step_write (by decide) (by decide) hnext, if_pos (by decide), commandWrite, hbusy, hdecode]
    rfl
  · have hlatched : decode (latchedWord { s with inputs := { wait := wait, op := op } :: rest }) = .ok i :=
      decode_latchedWord hl
    have hwait : ¬ (wait + 1 = 0 ∨ s.phase = .idle) := by simp [hb]
    simp only [step, nextAction, hq, if_neg hwait, controllerAction, Nat.add_sub_cancel, hlatched, takeAction]

/-! ### Writes to the registers of R18 to R23 -/

/-- Settles O15, by the step of a STATUS write. -/
theorem statusWriteAcknowledges : Obligations.StatusWriteAcknowledges := by
  intro s v rest hnext
  refine ⟨_, step_memWrite (by decide) (by decide) (by decide) hnext, rfl, fun hbit => ?_⟩
  change ((s.done && !v.getLsbD 1) && s.irqEn) = false
  rw [hbit, Bool.not_true, Bool.and_false, Bool.false_and]

/-- Settles O16, by the steps of an IRQ_EN write and read; IRQ by its definition. -/
theorem irqEnableHoldsItsBit : Obligations.IrqEnableHoldsItsBit := by
  refine ⟨fun s v rest hnext => step_memWrite (by decide) (by decide) (by decide) hnext, fun s rest hnext => ?_,
    fun s => by rw [State.irq, Bool.and_eq_true], fun s rest hnext => ⟨_, step_host hnext, rfl⟩⟩
  have hword : memRead s 0x018 = if s.irqEn then 1 else 0 := by
    change irqEnWord s = _
    unfold irqEnWord
    cases s.irqEn <;> rfl
  rw [step_read (by decide) (by decide) hnext, hword]

/-- The low bits of a word (R20 to R23). -/
theorem extractLsb'_zero_eq_ofNat (v : Word) (n : Nat) : v.extractLsb' 0 n = BitVec.ofNat n v.toNat := by
  apply BitVec.eq_of_toNat_eq
  simp

/-- A write to a length register of a block that is not BUSY (R46). -/
theorem step_lengthWrite {off : Nat} {r : Reg} {v : Word} {rest : List HostEvent} {s : State}
    (hreg : regAt off = some r) (hlen : isLength r = true) (ho : off < 0x4000) (hm : off % 4 = 0)
    (hidle : s.phase = .idle) (hnext : HostNext (.write (s.cfg.base + off) 4 v) rest s) :
    step s = .next ((storeLength r v { s with inputs := rest }).answer .written) := by
  have hbusy : State.busy { s with inputs := rest } = false := by simp [State.busy, hidle]
  have hne : r ≠ .ctrl ∧ r ≠ .status ∧ r ≠ .irqEn := by cases r <;> simp [isLength] at hlen ⊢
  obtain ⟨hctrl, hstatus, hirqEn⟩ := hne
  rw [step_memWrite ho hm (by simpa [hreg] using hctrl) hnext]
  simp [memWrite, hreg, writeReg, hstatus, hirqEn, hlen, hbusy]

/-- Settles O17, by the step of a length write. -/
theorem lengthRegistersStoreAsWritten : Obligations.LengthRegistersStoreAsWritten := by
  intro s v rest hidle
  rw [← extractLsb'_zero_eq_ofNat v 16, ← extractLsb'_zero_eq_ofNat v 8]
  exact ⟨step_lengthWrite (r := .inLen) rfl rfl (by decide) (by decide) hidle,
    step_lengthWrite (r := .tlen) rfl rfl (by decide) (by decide) hidle,
    step_lengthWrite (r := .labelLen) rfl rfl (by decide) (by decide) hidle,
    step_lengthWrite (r := .eLen) rfl rfl (by decide) (by decide) hidle⟩

/-! ### The words the registers read as (R14 to R25) -/

theorem regAt_some {off : Nat} {r : Reg} (h : regAt off = some r) : off < 0x4000 ∧ off % 4 = 0 := by
  by_contra hout
  unfold regAt at h
  simp (disch := omega) only [if_neg, reduceCtorEq] at h

/-- A word put together from two fields is the upper one shifted, plus the lower one. -/
theorem toNat_append_eq_add {m n : Nat} (x : BitVec m) (y : BitVec n) :
    (x ++ y).toNat = x.toNat * 2 ^ n + y.toNat := by
  rw [BitVec.toNat_append, ← Nat.shiftLeft_add_eq_or_of_lt y.isLt, Nat.shiftLeft_eq]

theorem cap0Word_toNat {cfg : Params} (hc : cfg.WellFormed) : (cap0Word cfg).toNat = cfg.bmax + 2 ^ 16 * cfg.lmax := by
  have hb := hc.bmax_le
  have hl := hc.lmax_le
  rw [cap0Word, toNat_append_eq_add, BitVec.toNat_ofNat, BitVec.toNat_ofNat]
  omega

theorem cap1Word_toNat {cfg : Params} (hc : cfg.WellFormed) :
    (cap1Word cfg).toNat = cfg.sb + 2 ^ 8 * cfg.emax + 2 ^ 16 * cfg.hmax := by
  have hs := hc.sb_le
  have he := hc.emax_le
  have hh := hc.hmax_le
  simp only [cap1Word, toNat_append_eq_add, BitVec.toNat_ofNat]
  omega

theorem ctrlWord_toNat (s : State) :
    (ctrlWord s).toNat = 2 ^ 4 * s.ctrl.cmd.toNat + 2 ^ 8 * s.ctrl.hsel.toNat + 2 ^ 12 * s.ctrl.msel.toNat := by
  simp only [ctrlWord, toNat_append_eq_add, BitVec.toNat_ofNat]
  omega

theorem busy_toNat (s : State) : s.busy.toNat = if s.phase = .idle then 0 else 1 := by
  by_cases h : s.phase = .idle <;> simp [State.busy, h]

theorem statusWord_toNat (s : State) :
    (statusWord s).toNat = (if s.phase = .idle then 0 else 1) + 2 * s.done.toNat + 4 * s.valid.toNat +
      8 * s.werr.toNat + 16 * s.err.code.toNat := by
  simp only [statusWord, toNat_append_eq_add, BitVec.toNat_ofNat, BitVec.toNat_ofBool, ← busy_toNat]
  omega

theorem irqEnWord_toNat (s : State) : (irqEnWord s).toNat = s.irqEn.toNat := by
  simp only [irqEnWord, toNat_append_eq_add, BitVec.toNat_ofNat, BitVec.toNat_ofBool]
  omega

/-- A field narrower than a word reads as its number. -/
theorem toNat_setWidth_word {n : Nat} (hn : n ≤ 32) (x : BitVec n) : (x.setWidth 32).toNat = x.toNat := by
  rw [BitVec.toNat_setWidth, Nat.mod_eq_of_lt (Nat.lt_of_lt_of_le x.isLt (Nat.pow_le_pow_right (by decide) hn))]

theorem outLen_toNat (s : State) : (readReg s .outLen).toNat = if s.phase = .idle then s.outLen.toNat else 0 := by
  by_cases h : s.phase = .idle
  · simpa [readReg, State.busy, h] using toNat_setWidth_word (by decide) s.outLen
  · simp [readReg, State.busy, h]

/-- The step of a register's read, by the number the register reads as. -/
theorem step_readReg {off value : Nat} {r : Reg} {rest : List HostEvent} {s : State} (hreg : regAt off = some r)
    (hvalue : (readReg s r).toNat = value) (hnext : HostNext (.read (s.cfg.base + off) 4) rest s) :
    value < 2 ^ 32 ∧ step s = .next { s with inputs := rest, bus := .data (BitVec.ofNat 32 value) } := by
  obtain ⟨ho, hm⟩ := regAt_some hreg
  have hword : memRead s off = readReg s r := by simp only [memRead, hreg]
  subst hvalue
  exact ⟨(readReg s r).isLt, by rw [step_read ho hm hnext, hword, BitVec.ofNat_toNat, BitVec.setWidth_eq]⟩

/-- Settles O10, by the word of each register. -/
theorem registersReadAsTheirFields : Obligations.RegistersReadAsTheirFields := by
  refine ⟨fun s off value rest hc hmem hnext => ?_, rfl⟩
  simp only [List.mem_cons, Prod.mk.injEq, List.not_mem_nil, or_false] at hmem
  rcases hmem with ⟨rfl, rfl⟩ | ⟨rfl, rfl⟩ | ⟨rfl, rfl⟩ | ⟨rfl, rfl⟩ | ⟨rfl, rfl⟩ | ⟨rfl, rfl⟩ | ⟨rfl, rfl⟩ |
    ⟨rfl, rfl⟩ | ⟨rfl, rfl⟩ | ⟨rfl, rfl⟩ | ⟨rfl, rfl⟩ | ⟨rfl, rfl⟩
  · exact step_readReg (r := .id) rfl rfl hnext
  · exact step_readReg (r := .cap0) rfl (cap0Word_toNat hc) hnext
  · exact step_readReg (r := .cap1) rfl (cap1Word_toNat hc) hnext
  · exact step_readReg (r := .ctrl) rfl (ctrlWord_toNat s) hnext
  · exact step_readReg (r := .status) rfl (statusWord_toNat s) hnext
  · exact step_readReg (r := .irqEn) rfl (irqEnWord_toNat s) hnext
  · exact step_readReg (r := .inLen) rfl (toNat_setWidth_word (by decide) s.inLen) hnext
  · exact step_readReg (r := .tlen) rfl (toNat_setWidth_word (by decide) s.tlen) hnext
  · exact step_readReg (r := .labelLen) rfl (toNat_setWidth_word (by decide) s.labelLen) hnext
  · exact step_readReg (r := .eLen) rfl (toNat_setWidth_word (by decide) s.eLen) hnext
  · exact step_readReg (r := .outLen) rfl (outLen_toNat s) hnext
  · exact step_readReg (r := .signIter) rfl rfl hnext

/-! ### The words of the windows (R42, R45, R48) -/

theorem regAt_window {off : Nat} (h : 0x100 ≤ off) : regAt off = none := by
  unfold regAt
  simp (disch := omega) only [if_neg]

/-- The map's bounds of a window: past the registers, inside the block, whole words. -/
theorem Win.span_bounds (win : Win) :
    0x100 ≤ win.base ∧ win.base + win.span ≤ 0x4000 ∧ (win.base + win.span) % 4 = 0 := by
  cases win <;> decide

theorem laneByte_window {s : State} {win : Win} {a : Nat} (h1 : win.base ≤ a) (h2 : a < win.base + win.span) :
    laneByte s a = if a < win.base + win.capacity s.cfg then readByte s.mem a else 0 := by
  simp only [laneByte, isStorage, winAt_of_mem h1 h2, decide_eq_true_eq]

theorem extractLsb'_wordOfLanes (b0 b1 b2 b3 : Byte) {j : Nat} (hj : j < 4) :
    (wordOfLanes b0 b1 b2 b3).extractLsb' (8 * j) 8 = [b0, b1, b2, b3].getD j 0 := by
  rw [← lanesOf_wordOfLanes b0 b1 b2 b3]
  interval_cases j <;> rfl

/-- Lane j of the word a window reads as: 0 where the window is hidden, else the byte at its offset. -/
theorem extractLsb'_readWindow (s : State) (win : Win) (off : Nat) {j : Nat} (hj : j < 4) :
    (readWindow s win off).extractLsb' (8 * j) 8 = if readsZero s win then 0 else laneByte s (off + j) := by
  unfold readWindow
  split
  · simp
  · rw [extractLsb'_wordOfLanes _ _ _ _ hj]
    interval_cases j <;> rfl

theorem readsZero_iff (s : State) (win : Win) :
    readsZero s win = true ↔ win = .da ∨ (s.phase ≠ .idle ∧ (win = .r ∨ win = .s ∨ win = .outBuf)) := by
  simp [readsZero, State.busy, or_assoc]

/-- Settles O11, lane by lane. -/
theorem windowsReadTheirBytes : Obligations.WindowsReadTheirBytes := by
  intro s win off rest hlo hhi hm hnext
  obtain ⟨hbase, htop, hwhole⟩ := win.span_bounds
  have hword : memRead s off = readWindow s win off := by
    simp only [memRead, regAt_window (Nat.le_trans hbase hlo), winAt_of_mem hlo hhi]
  refine ⟨_, step_read (by omega) hm hnext, fun j hj => ?_⟩
  simp only [hword, extractLsb'_readWindow s win off hj, readsZero_iff,
    laneByte_window (s := s) (win := win) (a := off + j) (by omega) (by omega)]

end Sys2Proof.Machine

/-! PROOF. What each host operation can change, and the registers that only few steps change: SIGN_ITER, IRQ and
WERR. -/

namespace Sys2Proof.Machine

open Sys2Proof.Config

/-! ### Which host operation leads to which next state -/

/-- `HostMove` with the operation that makes the move: only a reset resets, only a word write starts a command or is
locked out, and only STATUS and IRQ_EN have the effects of R18 and R19. -/
inductive HostEffect (s : State) : HostOp → State → Prop where
  | reset : HostEffect s .reset (applyReset s)
  | answered {op : HostOp} (r : BusResponse) (inputs : List HostEvent) :
      HostEffect s op { s with bus := r, inputs := inputs }
  | accepted {addr : Nat} {v : Word} (cmd hsel msel : Sel) (idle : s.phase = .idle) :
      HostEffect s (.write addr 4 v) (accept cmd hsel msel (s.answer .written))
  | locked {addr : Nat} {v : Word} (busy : s.phase ≠ .idle) :
      HostEffect s (.write addr 4 v) (turnAway (s.answer .written))
  | acknowledged (v : Word) : HostEffect s (.write (s.cfg.base + 0x014) 4 v) ((writeStatus v s).answer .written)
  | enabled (v : Word) : HostEffect s (.write (s.cfg.base + 0x018) 4 v) ((writeIrqEn v s).answer .written)
  | length {addr : Nat} (r : Reg) (v : Word) :
      HostEffect s (.write addr 4 v) ((storeLength r v s).answer .written)
  | stored {addr : Nat} {v : Word} (m : Memory) : HostEffect s (.write addr 4 v) ((s.setMem m).answer .written)

theorem windowOffset_some {cfg : Params} {addr off : Nat} (h : windowOffset cfg addr = some off) :
    addr = cfg.base + off := by
  unfold windowOffset at h
  split_ifs at h
  cases h
  omega

theorem regAt_status {off : Nat} (h : regAt off = some .status) : off = 0x014 := by
  simp only [regAt, ite_eq_iff, Option.some.injEq, reduceCtorEq, and_false, and_true, false_or, or_false] at h
  omega

theorem regAt_irqEn {off : Nat} (h : regAt off = some .irqEn) : off = 0x018 := by
  simp only [regAt, ite_eq_iff, Option.some.injEq, reduceCtorEq, and_false, and_true, false_or, or_false] at h
  omega

theorem busy_iff (s : State) : s.busy = true ↔ s.phase ≠ .idle := by simp [State.busy]

theorem memWrite_effect (off : Nat) (v : Word) (s : State) :
    HostEffect s (.write (s.cfg.base + off) 4 v) ((memWrite off v s).answer .written) := by
  have ignored : HostEffect s (.write (s.cfg.base + off) 4 v) (s.answer .written) := .answered .written s.inputs
  unfold memWrite
  cases hreg : regAt off with
  | some r =>
    dsimp only
    unfold writeReg
    split_ifs with hstatus hirqEn _ hbusy
    · obtain rfl := regAt_status (hstatus ▸ hreg)
      exact .acknowledged v
    · obtain rfl := regAt_irqEn (hirqEn ▸ hreg)
      exact .enabled v
    · exact .locked ((busy_iff s).1 hbusy)
    · exact .length r v
    · exact ignored
  | none =>
    dsimp only
    cases winAt off with
    | none => exact ignored
    | some win =>
      dsimp only
      unfold writeWindow
      split_ifs with _ _ hbusy
      · exact ignored
      · exact ignored
      · exact .locked ((busy_iff s).1 hbusy)
      · exact .stored _

theorem commandWrite_effect {addr : Nat} {v : Word} {s t : State}
    (h : takeAction (commandWrite v (s.answer .written)) = .next t) : HostEffect s (.write addr 4 v) t := by
  unfold commandWrite at h
  split_ifs at h with hbusy
  · cases h
    exact .locked ((busy_iff s).1 hbusy)
  · have hidle : s.phase = .idle := not_not.1 fun hb => hbusy ((busy_iff s).2 hb)
    cases hd : decode v with
    | ok i =>
      rw [hd] at h
      cases (exec_idle (i := i) (s := s.answer .written) hidle).symm.trans h
      exact .accepted _ _ _ hidle
    | error e =>
      rw [hd] at h
      cases e with
      | reservedCmd cmd => cases h; exact .accepted _ _ _ hidle
      | notStarted | notAWord => cases h; exact .answered .written s.inputs

theorem hostAction_effect {op : HostOp} {s t : State} (h : takeAction (hostAction op s) = .next t) :
    HostEffect s op t := by
  cases op with
  | reset => cases h; exact .reset
  | waitDone gaps =>
    cases h
    unfold waitRead
    split
    · exact .answered _ s.inputs
    · exact .answered _ _
  | read addr size =>
    unfold hostAction at h
    dsimp only at h
    split at h <;> cases h
    · unfold hostRead
      split <;> exact .answered _ s.inputs
    · exact .answered _ s.inputs
  | write addr size v =>
    unfold hostAction at h
    dsimp only at h
    cases hw : windowOffset s.cfg addr with
    | none => rw [hw] at h; cases h; exact .answered _ s.inputs
    | some off =>
      rw [hw] at h
      obtain rfl := windowOffset_some hw
      dsimp only [hostWrite] at h
      split_ifs at h with hlegal hctrl
      · cases h; exact .answered _ s.inputs
      · obtain rfl : size = 4 := by simp [legalAccess] at hlegal; exact hlegal.1
        exact commandWrite_effect h
      · obtain rfl : size = 4 := by simp [legalAccess] at hlegal; exact hlegal.1
        cases h
        exact memWrite_effect off v s

/-- What a step can do, with the operation of a host's move and the outcome of a controller's. -/
theorem step_outcomes {s t : State} (h : step s = .next t) :
    t = s ∨ (∃ op rest, HostNext op rest s ∧ HostEffect { s with inputs := rest } op t) ∨
      (s.phase ≠ .idle ∧ ∃ inputs, ControllerOutcome { s with inputs := inputs } t) := by
  rcases step_cases h with ⟨-, -, hst⟩ | ⟨ev, rest, hq, hturn, -⟩ | ⟨hb, -, move⟩ | ⟨hb, ev, rest, -, -, move⟩
  · exact .inl hst
  · have hnext : HostNext ev.op rest s := ⟨ev.wait, hq, hturn⟩
    exact .inr (.inl ⟨ev.op, rest, hnext, hostAction_effect ((step_host hnext).symm.trans h)⟩)
  · exact .inr (.inr ⟨hb, s.inputs, move.outcome⟩)
  · exact .inr (.inr ⟨hb, _, move.outcome⟩)

/-! ### What a length write leaves unchanged -/

@[simp] theorem storeLength_done (r : Reg) (v : Word) (s : State) : (storeLength r v s).done = s.done := by
  cases r <;> rfl
@[simp] theorem storeLength_irqEn (r : Reg) (v : Word) (s : State) : (storeLength r v s).irqEn = s.irqEn := by
  cases r <;> rfl
@[simp] theorem storeLength_werr (r : Reg) (v : Word) (s : State) : (storeLength r v s).werr = s.werr := by
  cases r <;> rfl
@[simp] theorem storeLength_signIter (r : Reg) (v : Word) (s : State) :
    (storeLength r v s).signIter = s.signIter := by cases r <;> rfl

/-! ### SIGN_ITER, IRQ and WERR -/

/-- A controller step counts in S_DRAW of SM2_SIGN or leaves SIGN_ITER (R25). -/
theorem ControllerOutcome.countsDraw {s t : State} (h : ControllerOutcome s t) : CountsDraw s t.signIter := by
  cases h with
  | runs _ _ iter => exact iter
  | completes _ _ _ _ iter => exact iter

/-- Settles O58: only acceptance and reset clear SIGN_ITER, only S_DRAW counts. -/
theorem signIterCountsDraws : Obligations.SignIterCountsDraws := by
  intro s t _ hstep hne
  rcases step_outcomes hstep with rfl | ⟨op, rest, hnext, effect⟩ | ⟨_, inputs, outcome⟩
  · exact absurd rfl hne
  · cases effect with
    | reset => exact .inr ⟨rfl, .inr ⟨rest, hnext⟩⟩
    | accepted _ _ _ idle => exact .inr ⟨rfl, .inl ⟨idle, rfl⟩⟩
    | length r v => exact absurd (storeLength_signIter r v _) hne
    | answered | locked | acknowledged | enabled | stored => exact absurd rfl hne
  · rcases outcome.countsDraw with same | counts
    · exact absurd same hne
    · exact .inl counts

/-- A controller step leaves the interrupt as it is unless it completes (R38, R116). -/
theorem ControllerOutcome.irq {s t : State} (h : ControllerOutcome s t) :
    t.irq = s.irq ∨ (t.phase = .idle ∧ t.done = true) := by
  cases h with
  | runs => exact .inl rfl
  | completes _ done => exact .inr ⟨done.phase, done.done⟩

/-- Settles O59: of the host's moves only an enable can raise IRQ, and only a completion among the controller's. -/
theorem irqRisesOnCompletion : Obligations.IrqRisesOnCompletion := by
  intro s t _ hstep hlow hhigh
  rcases step_outcomes hstep with rfl | ⟨op, rest, hnext, effect⟩ | ⟨hb, inputs, outcome⟩
  · simp [hlow] at hhigh
  · cases effect with
    | enabled v =>
      obtain ⟨hdone, hbit⟩ : s.done = true ∧ v.getLsbD 0 = true := Bool.and_eq_true_iff.1 hhigh
      exact .inr ⟨hdone, by simpa [State.irq, hdone] using hlow, v, rest, hnext, hbit⟩
    | acknowledged v =>
      obtain ⟨hdone, hen⟩ : (s.done && !v.getLsbD 1) = true ∧ s.irqEn = true := Bool.and_eq_true_iff.1 hhigh
      simp [State.irq, (Bool.and_eq_true_iff.1 hdone).1, hen] at hlow
    | reset | accepted => simp [State.irq] at hhigh
    | length r v =>
      have hsame : s.irq = true := by simpa [State.irq] using hhigh
      simp [hlow] at hsame
    | answered | locked | stored => exact absurd (hlow.symm.trans hhigh) Bool.false_ne_true
  · rcases outcome.irq with same | ⟨hidle, hdone⟩
    · exact absurd (hlow.symm.trans (same.symm.trans hhigh)) Bool.false_ne_true
    · exact .inl ⟨hb, hidle, hdone⟩

theorem ControllerOutcome.werr {s t : State} (h : ControllerOutcome s t) : t.werr = s.werr := by
  cases h with
  | runs => rfl
  | completes _ done => exact done.control.werr

/-- A host operation that sets WERR is a word write that the busy lock ignores (R47, R112). -/
theorem HostEffect.sets_werr {s t : State} {op : HostOp} (h : HostEffect s op t) (hclear : s.werr = false)
    (hset : t.werr = true) :
    s.phase ≠ .idle ∧ t.phase = s.phase ∧ t.mem = s.mem ∧ ∃ addr v, op = .write addr 4 v := by
  cases h with
  | locked busy => exact ⟨busy, rfl, rfl, _, _, rfl⟩
  | acknowledged v => simp [writeStatus, hclear] at hset
  | _ => simp [writeIrqEn, hclear] at hset

/-- A host operation that clears WERR is a reset or the acknowledge of bit 3 (R18). -/
theorem HostEffect.clears_werr {s t : State} {op : HostOp} (h : HostEffect s op t) (hset : s.werr = true)
    (hclear : t.werr = false) :
    op = .reset ∨ ∃ v : Word, op = .write (s.cfg.base + 0x014) 4 v ∧ v.getLsbD 3 = true := by
  cases h with
  | reset => exact .inl rfl
  | acknowledged v => exact .inr ⟨v, rfl, by simpa [writeStatus, hset] using hclear⟩
  | _ => simp [writeIrqEn, hset] at hclear

/-- Settles O60, by the host operations that can move WERR; the controller moves it never. -/
theorem werrIsSticky : Obligations.WerrIsSticky := by
  intro s t _ hstep
  rcases step_outcomes hstep with rfl | ⟨op, rest, hnext, effect⟩ | ⟨_, inputs, outcome⟩
  · exact ⟨fun hclear hset => absurd (hclear.symm.trans hset) Bool.false_ne_true,
      fun hset hclear => absurd (hclear.symm.trans hset) Bool.false_ne_true⟩
  · refine ⟨fun hclear hset => ?_, fun hset hclear => ?_⟩
    · obtain ⟨busy, phase, mem, addr, v, rfl⟩ := effect.sets_werr hclear hset
      exact ⟨busy, phase, mem, addr, v, rest, hnext⟩
    · rcases effect.clears_werr hset hclear with rfl | ⟨v, rfl, hbit⟩
      · exact .inl ⟨rest, hnext⟩
      · exact .inr ⟨v, rest, hnext, hbit⟩
  · have same : t.werr = s.werr := outcome.werr
    exact ⟨fun hclear hset => absurd (hclear.symm.trans (same.symm.trans hset)) Bool.false_ne_true,
      fun hset hclear => absurd (hclear.symm.trans (same.trans hset)) Bool.false_ne_true⟩

end Sys2Proof.Machine

/-! PROOF. The memory map as a host access meets it: bus errors, reserved offsets, window writes and the busy lock
(spec/20_memory.md R40 to R47). -/

namespace Sys2Proof.Machine

open Sys2Proof.Config

/-! ### Bus errors (R41, R111) -/

theorem windowOffset_base_add {cfg : Params} {off : Nat} (ho : off < 0x4000) :
    windowOffset cfg (cfg.base + off) = some off := by simp [windowOffset, ho]

theorem legalAccess_iff {off size : Nat} : legalAccess off size = true ↔ size = 4 ∧ off % 4 = 0 := by
  simp [legalAccess]

theorem step_illegalRead {off size : Nat} {rest : List HostEvent} {s : State} (ho : off < 0x4000)
    (hbad : legalAccess off size = false) (hnext : HostNext (.read (s.cfg.base + off) size) rest s) :
    step s = .next { s with inputs := rest, bus := .busError } := by
  rw [step_host hnext]
  simp only [hostAction, windowOffset_base_add ho, hostRead, hbad]
  rfl

theorem step_illegalWrite {off size : Nat} {v : Word} {rest : List HostEvent} {s : State} (ho : off < 0x4000)
    (hbad : legalAccess off size = false) (hnext : HostNext (.write (s.cfg.base + off) size v) rest s) :
    step s = .next { s with inputs := rest, bus := .busError } := by
  rw [step_host hnext]
  simp only [hostAction, windowOffset_base_add ho, hostWrite, hbad]
  rfl

/-- A CTRL write keeps the answer given to it, whether it starts a command or not. -/
theorem commandWrite_bus (v : Word) (s : State) :
    ∃ t, takeAction (commandWrite v s) = .next t ∧ t.bus = s.bus := by
  unfold commandWrite
  split
  · exact ⟨_, rfl, rfl⟩
  · rename_i hbusy
    have hidle : s.phase = .idle := by simpa [State.busy] using hbusy
    split
    · exact ⟨_, exec_idle hidle, rfl⟩
    all_goals exact ⟨_, rfl, rfl⟩

/-- Every word write is answered as taken, also one that is ignored. -/
theorem step_write_written {off : Nat} {v : Word} {rest : List HostEvent} {s : State} (ho : off < 0x4000)
    (hm : off % 4 = 0) (hnext : HostNext (.write (s.cfg.base + off) 4 v) rest s) :
    ∃ t, step s = .next t ∧ t.bus = .written := by
  rw [step_write ho hm hnext]
  split
  · exact commandWrite_bus v _
  · exact ⟨_, rfl, rfl⟩

/-- Settles O9, by the legality of the access. -/
theorem illegalAccessIsBusError : Obligations.IllegalAccessIsBusError := by
  intro s off size op rest ho hop hnext
  rw [← legalAccess_iff, Bool.not_eq_true]
  refine ⟨fun hbad => ?_, fun hlegal => ?_⟩
  · rcases hop with rfl | ⟨v, rfl⟩
    · exact step_illegalRead ho hbad hnext
    · exact step_illegalWrite ho hbad hnext
  · obtain ⟨rfl, hm⟩ := legalAccess_iff.1 hlegal
    rcases hop with rfl | ⟨v, rfl⟩
    · exact ⟨_, step_read ho hm hnext, by simp⟩
    · obtain ⟨t, hstep, hbus⟩ := step_write_written ho hm hnext
      exact ⟨t, hstep, by simp [hbus]⟩

/-! ### Reserved offsets (R40) -/

/-- The offsets of the map that hold neither a register nor a window (R40). -/
def ReservedOffset (off : Nat) : Prop :=
  off = 0x00C ∨ off = 0x01C ∨ (0x038 ≤ off ∧ off < 0x100) ∨ (0x400 ≤ off ∧ off < 0x1000)

theorem ReservedOffset.lt {off : Nat} (h : ReservedOffset off) : off < 0x4000 := by
  unfold ReservedOffset at h; omega

theorem ReservedOffset.regAt {off : Nat} (h : ReservedOffset off) : regAt off = none := by
  unfold ReservedOffset at h
  unfold Machine.regAt
  simp (disch := omega) only [if_neg]

theorem ReservedOffset.winAt {off : Nat} (h : ReservedOffset off) : winAt off = none := by
  unfold ReservedOffset at h
  unfold Machine.winAt
  simp (disch := omega) only [if_neg]

theorem ReservedOffset.memRead {off : Nat} (h : ReservedOffset off) (s : State) : memRead s off = 0 := by
  simp only [Machine.memRead, h.regAt, h.winAt]

theorem ReservedOffset.memWrite {off : Nat} (h : ReservedOffset off) (v : Word) (s : State) :
    memWrite off v s = s := by
  simp only [Machine.memWrite, h.regAt, h.winAt]

/-- The step of a write that the map ignores, at an offset other than CTRL's. -/
theorem step_ignoredWrite {off : Nat} {v : Word} {rest : List HostEvent} {s : State} (ho : off < 0x4000)
    (hm : off % 4 = 0) (hctrl : regAt off ≠ some .ctrl) (hignored : ∀ u, memWrite off v u = u)
    (hnext : HostNext (.write (s.cfg.base + off) 4 v) rest s) :
    step s = .next { s with inputs := rest, bus := .written } := by
  rw [step_memWrite ho hm hctrl hnext, hignored]
  rfl

theorem step_reservedWrite {off : Nat} {v : Word} {rest : List HostEvent} {s : State} (h : ReservedOffset off)
    (hm : off % 4 = 0) (hnext : HostNext (.write (s.cfg.base + off) 4 v) rest s) :
    step s = .next { s with inputs := rest, bus := .written } :=
  step_ignoredWrite h.lt hm (by simp [h.regAt]) (h.memWrite v) hnext

/-- Settles O12: the map finds neither a register nor a window there. -/
theorem reservedOffsetsReadZero : Obligations.ReservedOffsetsReadZero := by
  intro s off rest hm hres
  have h : ReservedOffset off := hres
  refine ⟨fun hnext => ?_, fun v => step_reservedWrite h hm⟩
  rw [step_read h.lt hm hnext, h.memRead]

/-! ### Writes that no phase takes (R46) -/

theorem memWrite_readOnly {off : Nat} (h : off ∈ [0x000, 0x004, 0x008, 0x030, 0x034]) (v : Word) (s : State) :
    memWrite off v s = s := by
  simp only [List.mem_cons, List.not_mem_nil, or_false] at h
  rcases h with rfl | rfl | rfl | rfl | rfl <;> rfl

theorem step_readOnlyWrite {off : Nat} {v : Word} {rest : List HostEvent} {s : State}
    (h : off ∈ [0x000, 0x004, 0x008, 0x030, 0x034]) (hnext : HostNext (.write (s.cfg.base + off) 4 v) rest s) :
    step s = .next { s with inputs := rest, bus := .written } := by
  have hmap : ∀ o ∈ [0x000, 0x004, 0x008, 0x030, 0x034], o < 0x4000 ∧ o % 4 = 0 ∧ regAt o ≠ some .ctrl := by decide
  obtain ⟨ho, hm, hctrl⟩ := hmap off h
  exact step_ignoredWrite ho hm hctrl (memWrite_readOnly h v) hnext

theorem memWrite_window {win : Win} {off : Nat} (hlo : win.base ≤ off) (hhi : off < win.base + win.span) (v : Word)
    (s : State) : memWrite off v s = writeWindow win off v s := by
  simp only [memWrite, regAt_window (Nat.le_trans win.span_bounds.1 hlo), winAt_of_mem hlo hhi]

/-- The step of a window write, by what the window makes of it. -/
theorem step_windowWrite {win : Win} {off : Nat} {v : Word} {rest : List HostEvent} {s : State}
    (hlo : win.base ≤ off) (hhi : off < win.base + win.span) (hm : off % 4 = 0)
    (hnext : HostNext (.write (s.cfg.base + off) 4 v) rest s) :
    step s = .next ((writeWindow win off v { s with inputs := rest }).answer .written) := by
  obtain ⟨hbase, htop, -⟩ := win.span_bounds
  rw [step_memWrite (by omega) hm (by simp [regAt_window (Nat.le_trans hbase hlo)]) hnext, memWrite_window hlo hhi]

theorem step_outBufWrite {off : Nat} {v : Word} {rest : List HostEvent} {s : State}
    (h : 0x2000 ≤ off ∧ off < 0x3000) (hm : off % 4 = 0) (hnext : HostNext (.write (s.cfg.base + off) 4 v) rest s) :
    step s = .next { s with inputs := rest, bus := .written } :=
  step_windowWrite (win := .outBuf) h.1 h.2 hm hnext

/-! ### Window writes on a block that is not BUSY (R42, R46) -/

theorem isStorage_window {cfg : Params} {win : Win} {a : Nat} (hlo : win.base ≤ a) (hhi : a < win.base + win.span) :
    isStorage cfg a = true ↔ a < win.base + win.capacity cfg := by
  simp only [isStorage, winAt_of_mem hlo hhi, decide_eq_true_eq]

/-- The four bytes of a word of a window lie in its span. -/
theorem word_lt_span {win : Win} {off a : Nat} (hhi : off < win.base + win.span) (hm : off % 4 = 0)
    (ha : a < off + 4) : a < win.base + win.span := by
  have hwhole := win.span_bounds.2.2
  omega

/-- Where no lane is storage, storing the lanes changes nothing, so `writeWindow` may skip the test. -/
theorem storeLanes_of_noStorage {cfg : Params} {off : Nat} (h : anyStorage cfg off = false) (m : Memory) (v : Word) :
    storeLanes cfg m off (lanesOf v) = m := by
  simp only [anyStorage, Bool.or_eq_false_iff] at h
  obtain ⟨⟨⟨h0, h1⟩, h2⟩, h3⟩ := h
  simp [storeLanes, lanesOf, h0, h1, h2, h3]

theorem writeWindow_idle {win : Win} {s : State} (hwin : win ≠ .outBuf) (hidle : s.phase = .idle) (off : Nat)
    (v : Word) : writeWindow win off v s = s.setMem (storeLanes s.cfg s.mem off (lanesOf v)) := by
  have hbusy : s.busy = false := by simp [State.busy, hidle]
  rw [writeWindow, if_neg hwin, hbusy]
  cases hany : anyStorage s.cfg off with
  | true => rfl
  | false => rw [storeLanes_of_noStorage hany]; rfl

theorem step_windowWrite_idle {win : Win} {off : Nat} {v : Word} {rest : List HostEvent} {s : State}
    (hwin : win ≠ .outBuf) (hlo : win.base ≤ off) (hhi : off < win.base + win.span) (hm : off % 4 = 0)
    (hidle : s.phase = .idle) (hnext : HostNext (.write (s.cfg.base + off) 4 v) rest s) :
    step s = .next
      { s with mem := storeLanes s.cfg s.mem off (lanesOf v), inputs := rest, bus := .written } := by
  rw [step_windowWrite hlo hhi hm hnext, writeWindow_idle (s := { s with inputs := rest }) hwin hidle]
  rfl

theorem lanesOf_length (v : Word) : (lanesOf v).length = 4 := rfl

theorem lanesOf_getD (v : Word) {j : Nat} (hj : j < 4) : (lanesOf v).getD j 0 = v.extractLsb' (8 * j) 8 := by
  interval_cases j <;> rfl

/-- Settles O13: the lanes below the capacity are stored, and what the map makes read-only is left alone. -/
theorem windowWriteStoresItsLanes : Obligations.WindowWriteStoresItsLanes := by
  intro s off v rest hs hm hidle hnext
  refine ⟨fun win hwin hlo hhi => ⟨_, step_windowWrite_idle hwin hlo hhi hm hidle hnext, fun a => ?_⟩, ?_⟩
  · rw [readByte_storeLanes hs.mem_wf, lanesOf_length]
    by_cases ha : off ≤ a ∧ a < off + 4
    · have hlane := lanesOf_getD v (j := a - off) (by omega)
      simp only [isStorage_window (Nat.le_trans hlo ha.1) (word_lt_span hhi hm ha.2), hlane]
    · rw [if_neg (by omega), if_neg (by omega)]
  · rintro (hreg | hout)
    · exact step_readOnlyWrite hreg hnext
    · exact step_outBufWrite hout hm hnext

/-! ### The busy lock (R47) -/

theorem writeReg_busy {r : Reg} {s : State} (hlen : isLength r = true) (hb : s.phase ≠ .idle) (v : Word) :
    writeReg r v s = turnAway s := by
  have hne : r ≠ .status ∧ r ≠ .irqEn := by cases r <;> simp [isLength] at hlen ⊢
  simp [writeReg, hne, hlen, (busy_iff s).2 hb]

theorem writeWindow_busy {win : Win} {off : Nat} {s : State} (hwin : win ≠ .outBuf)
    (hstored : isStorage s.cfg off = true) (hb : s.phase ≠ .idle) (v : Word) :
    writeWindow win off v s = turnAway s := by
  simp [writeWindow, hwin, anyStorage, hstored, (busy_iff s).2 hb]

/-- A word without storage is taken as reserved, in every phase (assumption log 11). -/
theorem writeWindow_beyond {win : Win} {off : Nat} {s : State} (hlo : win.base ≤ off)
    (hhi : off < win.base + win.span) (hm : off % 4 = 0) (hcap : win.base + win.capacity s.cfg ≤ off) (v : Word) :
    writeWindow win off v s = s := by
  have none_stored : ∀ j < 4, isStorage s.cfg (off + j) = false := fun j hj => by
    rw [← Bool.not_eq_true, isStorage_window (win := win) (by omega) (word_lt_span hhi hm (by omega))]
    omega
  have hany : anyStorage s.cfg off = false := by
    simp only [anyStorage, none_stored 1 (by decide), none_stored 2 (by decide), none_stored 3 (by decide),
      Bool.or_false]
    exact none_stored 0 (by decide)
  simp [writeWindow, hany]

theorem step_ctrlWrite_busy {v : Word} {rest : List HostEvent} {s : State} (hb : s.phase ≠ .idle)
    (hnext : HostNext (.write (s.cfg.base + 0x010) 4 v) rest s) :
    step s = .next { s with werr := true, inputs := rest, bus := .written } := by
  have hbusy : State.busy { s with inputs := rest, bus := .written } = true := (busy_iff _).2 hb
  rw [step_write (by decide) (by decide) hnext, if_pos (by decide), commandWrite, if_pos hbusy]
  rfl

theorem step_lengthWrite_busy {off : Nat} {r : Reg} {v : Word} {rest : List HostEvent} {s : State}
    (hreg : regAt off = some r) (hlen : isLength r = true) (hb : s.phase ≠ .idle)
    (hnext : HostNext (.write (s.cfg.base + off) 4 v) rest s) :
    step s = .next { s with werr := true, inputs := rest, bus := .written } := by
  obtain ⟨ho, hm⟩ := regAt_some hreg
  have hctrl : r ≠ .ctrl := by rintro rfl; cases hlen
  rw [step_memWrite ho hm (by simpa [hreg] using hctrl) hnext]
  simp only [memWrite, hreg, writeReg_busy (s := { s with inputs := rest }) hlen hb]
  rfl

/-- The registers under the busy lock: CTRL and the lengths. -/
theorem step_lockedRegWrite {off : Nat} {v : Word} {rest : List HostEvent} {s : State}
    (h : off ∈ [0x010, 0x020, 0x024, 0x028, 0x02C]) (hb : s.phase ≠ .idle)
    (hnext : HostNext (.write (s.cfg.base + off) 4 v) rest s) :
    step s = .next { s with werr := true, inputs := rest, bus := .written } := by
  simp only [List.mem_cons, List.not_mem_nil, or_false] at h
  rcases h with rfl | rfl | rfl | rfl | rfl
  · exact step_ctrlWrite_busy hb hnext
  · exact step_lengthWrite_busy (r := .inLen) rfl rfl hb hnext
  · exact step_lengthWrite_busy (r := .tlen) rfl rfl hb hnext
  · exact step_lengthWrite_busy (r := .labelLen) rfl rfl hb hnext
  · exact step_lengthWrite_busy (r := .eLen) rfl rfl hb hnext

/-- Settles O14, place by place of the map. -/
theorem busyLockKeepsOperands : Obligations.BusyLockKeepsOperands := by
  intro s off v rest hb hm hnext
  refine ⟨fun h => step_lockedRegWrite h hb hnext, fun win hwin hlo hhi hcap => ?_, ?_, ?_, ?_,
    fun win hlo hhi hcap => ?_⟩
  · have hstored : isStorage s.cfg off = true := (isStorage_window hlo hhi).2 hcap
    rw [step_windowWrite hlo hhi hm hnext, writeWindow_busy (s := { s with inputs := rest }) hwin hstored hb]
    rfl
  · rintro rfl
    obtain ⟨_, hstep, rfl, -⟩ := statusWriteAcknowledges s v rest hnext
    exact hstep
  · rintro rfl
    exact irqEnableHoldsItsBit.1 s v rest hnext
  · rintro (hreg | hout | hres)
    · exact step_readOnlyWrite hreg hnext
    · exact step_outBufWrite hout hm hnext
    · exact step_reservedWrite hres hm hnext
  · rw [step_windowWrite hlo hhi hm hnext, writeWindow_beyond (s := { s with inputs := rest }) hlo hhi hm hcap]
    rfl

/-! ### The script of a window's bytes (R43, R67) -/

/-- The memory once the first k words of a string's script are written at a base. -/
def storeWords (cfg : Params) (m : Memory) (base : Nat) (b : List Byte) : Nat → Memory
  | 0 => m
  | k + 1 => storeLanes cfg (storeWords cfg m base b k) (base + 4 * k) (lanesOf (scriptWord b k))

theorem storeWords_wf {m : Memory} (hm : Memory.wf m = true) (cfg : Params) (base : Nat) (b : List Byte) (k : Nat) :
    Memory.wf (storeWords cfg m base b k) = true := by
  induction k with
  | zero => exact hm
  | succ k ih => exact storeLanes_wf ih _ _

theorem lanesOf_scriptWord (b : List Byte) (k : Nat) {j : Nat} (hj : j < 4) :
    (lanesOf (scriptWord b k)).getD j 0 = b.getD (4 * k + j) 0 := by
  rw [scriptWord, lanesOf_wordOfLanes]
  interval_cases j <;> rfl

/-- Reading after k words: the string's byte where they reach storage, the old byte elsewhere. -/
theorem readByte_storeWords {m : Memory} (hm : Memory.wf m = true) (cfg : Params) (base : Nat) (b : List Byte)
    (k a : Nat) :
    readByte (storeWords cfg m base b k) a =
      if base ≤ a ∧ a < base + 4 * k ∧ isStorage cfg a = true then b.getD (a - base) 0 else readByte m a := by
  induction k with
  | zero => rw [if_neg (by omega)]; rfl
  | succ k ih =>
    rw [storeWords, readByte_storeLanes (storeWords_wf hm cfg base b k), ih, lanesOf_length]
    by_cases hword : base + 4 * k ≤ a ∧ a < base + 4 * k + 4 ∧ isStorage cfg a = true
    · obtain ⟨hlo, hhi, hst⟩ := hword
      have hidx : 4 * k + (a - (base + 4 * k)) = a - base := by omega
      rw [if_pos ⟨hlo, hhi, hst⟩, if_pos ⟨by omega, by omega, hst⟩, lanesOf_scriptWord b k (by omega), hidx]
    · rw [if_neg hword]
      by_cases hst : isStorage cfg a = true
      · simp only [hst, and_true] at hword ⊢
        congr 1
        simp only [eq_iff_iff]
        omega
      · simp [hst]

/-- The first k steps of a script that writes a string to a window of an IDLE block. -/
theorem steps_writeLines {win : Win} {b : List Byte} {rest : List HostEvent} {s : State} (hwin : win ≠ .outBuf)
    (hidle : s.phase = .idle) (hfits : b.length ≤ win.span)
    (hq : s.inputs = scriptEvents s.cfg ((writeLines win b).map fun line => (0, line)) ++ rest) {k : Nat}
    (hk : k ≤ wordCount b.length) :
    steps k s = .next { s with
      mem := storeWords s.cfg s.mem win.base b k
      inputs := scriptEvents s.cfg (((writeLines win b).drop k).map fun line => (0, line)) ++ rest
      bus := if k = 0 then s.bus else .written } := by
  induction k with
  | zero => rw [List.drop_zero, ← hq]; rfl
  | succ k ih =>
    have hspan := win.span_bounds
    have hword : win.base + 4 * k < win.base + win.span := by rw [wordCount] at hk; omega
    have hdrop : (writeLines win b).drop k =
        .w (win.base + 4 * k) (scriptWord b k) :: (writeLines win b).drop (k + 1) := by
      rw [List.drop_eq_getElem_cons (by simpa [writeLines] using hk)]
      simp [writeLines]
    rw [steps_add (ih (by omega)) 1]
    refine steps_one (step_windowWrite_idle (win := win) hwin (Nat.le_add_right _ _) hword ?_ hidle ⟨0, ?_, .inl rfl⟩)
    · cases win <;> simp only [Win.base] <;> omega
    · rw [hdrop]; rfl

/-- A window of which the script has written every storage byte holds the string. -/
theorem readBytes_storeWords {cfg : Params} {m : Memory} {win : Win} {b : List Byte} {k : Nat}
    (hc : cfg.WellFormed) (hm : Memory.wf m = true) (hlen : b.length = win.capacity cfg) (hk : b.length ≤ 4 * k) :
    readBytes (storeWords cfg m win.base b k) win.base b.length = b := by
  refine List.ext_getElem (by simp) fun i h1 h2 => ?_
  have hst : isStorage cfg (win.base + i) = true := (isStorage_iff hc).2 ⟨win, by omega, by omega⟩
  rw [readBytes_getElem, readByte_storeWords hm, if_pos ⟨by omega, by omega, hst⟩, Nat.add_sub_cancel_left,
    List.getD_eq_getElem _ _ h2]

/-- A script on a window writes no byte outside it. -/
theorem readByte_storeWords_outside {cfg : Params} {m : Memory} {win : Win} {b : List Byte} {k a : Nat}
    (hm : Memory.wf m = true) (hk : 4 * k ≤ win.span)
    (ha : ¬ (win.base ≤ a ∧ a < win.base + win.capacity cfg)) :
    readByte (storeWords cfg m win.base b k) a = readByte m a := by
  rw [readByte_storeWords hm, if_neg]
  rintro ⟨hlo, hhi, hst⟩
  exact ha ⟨hlo, (isStorage_window hlo (by omega)).1 hst⟩

/-- Settles O19: the script writes all SB bytes of the window, and no other storage. -/
theorem scalarScriptStoresItsValue : Obligations.ScalarScriptStoresItsValue := by
  intro s win v rest hs hidle hwin hv hq
  have hscalar : win ≠ .outBuf ∧ win.capacity s.cfg = s.cfg.sb ∧ win.span = 0x80 := by
    revert hwin; cases win <;> simp [Win.capacity, Win.span]
  obtain ⟨hout, hcap, hspan⟩ := hscalar
  have hpos := hs.cfg_wf.sb_pos
  have hle := hs.cfg_wf.sb_le
  have hlen : (i2be s.cfg.sb v).length = s.cfg.sb := i2be_length _ _
  have hcount : s.cfg.sb ≤ 4 * wordCount s.cfg.sb ∧ 4 * wordCount s.cfg.sb ≤ 0x80 ∧ wordCount s.cfg.sb ≠ 0 := by
    rw [wordCount]; omega
  obtain ⟨hall, hwords, hsome⟩ := hcount
  refine ⟨storeWords s.cfg s.mem win.base (i2be s.cfg.sb v) (wordCount s.cfg.sb), ?_, ?_, fun a ha => ?_⟩
  · have hrun := steps_writeLines (k := wordCount s.cfg.sb) hout hidle (by omega) hq (by rw [hlen])
    rw [hrun, if_neg hsome, List.drop_of_length_le (by simp [writeLines])]
    rfl
  · have hread := readBytes_storeWords (k := wordCount s.cfg.sb) hs.cfg_wf hs.mem_wf (hlen.trans hcap.symm) (by omega)
    rw [hlen] at hread
    rw [scalar, State.winBytes, hread, beNat_i2be hv]
  · exact readByte_storeWords_outside hs.mem_wf (by omega) (ha win (by simp))

end Sys2Proof.Machine

/-! PROOF. What a controller step writes: the windows of its command, and OUT_LEN of the commands with an output string
(spec/10_state.md R55, spec/30_encoding.md R65). -/

namespace Sys2Proof.Machine

open Sys2Proof.Config

/-! ### How a controller step ends -/

/-- A controller step has worked on the hidden registers alone, and then goes to a phase or makes the completion of its
command. `ControllerOutcome` says what either sets; this says which writes a completion makes. -/
inductive ControllerEnd (s : State) : State → Prop where
  | runs {u : State} {p : Phase} (worked : WorkedFrom s u) : ControllerEnd s (u.goto p)
  | signs {u : State} {code : ErrCode} (worked : WorkedFrom s u) (cmd : s.ctrl.cmd = 1) :
      ControllerEnd s (signFinish code u)
  | verifies {u : State} {code : ErrCode} (worked : WorkedFrom s u) : ControllerEnd s (verifyFinish code u)
  | outputs {u : State} {code : ErrCode} {b : List Byte} (worked : WorkedFrom s u)
      (cmd : s.ctrl.cmd = 3 ∨ s.ctrl.cmd = 4 ∨ s.ctrl.cmd = 5) : ControllerEnd s (finish code (outputWrites code b) u)

/-- A block step stays in its phase, or ends as its failure or its finished mask does. -/
theorem end_blockStep {s : State} {src : List Byte} {L : Nat} {fail : State → State} {use : List Byte → State → State}
    (hfail : ControllerEnd s (fail s.drawn)) (huse : ∀ mask w, ControllerEnd s (use mask (s.drawn.setW w))) :
    ControllerEnd s (blockStep src L fail use s) := by
  have stays : ∀ w, ControllerEnd s (s.drawn.setW w) := fun w => .runs (u := s.drawn.setW w) (p := s.phase) rfl
  rcases blockStep_cases src L fail use s with ⟨-, h⟩ | ⟨alg, -, -, ⟨-, h⟩ | ⟨-, h⟩⟩ <;> rw [h]
  · exact hfail
  · exact huse _ _
  · exact stays _

/-! ### SM2_SIGN and SM2_VERIFY -/

theorem signCheck_end {s : State} (hcmd : s.ctrl.cmd = 1) : ControllerEnd s (signCheck s) := by
  rcases signCheck_cases s with ⟨-, h⟩ | ⟨-, ⟨-, h⟩ | ⟨-, -, -, h⟩ | ⟨-, -, h⟩⟩ <;> rw [h]
  exacts [.signs rfl hcmd, .signs rfl hcmd, .runs rfl, .signs rfl hcmd]

theorem signDraw_end {s : State} (hcmd : s.ctrl.cmd = 1) : ControllerEnd s (signDraw s) := by
  rcases signDraw_cases s with ⟨-, h⟩ | ⟨-, k, d, -, ⟨-, h⟩ | ⟨-, -, h⟩ | ⟨-, -, h⟩⟩ <;> rw [h]
  exacts [.signs rfl hcmd, .signs rfl hcmd, .runs rfl, .runs rfl]

theorem signMulg_end {s : State} (hcmd : s.ctrl.cmd = 1) : ControllerEnd s (signMulg s) := by
  rcases signMulg_cases s with ⟨-, h⟩ | ⟨-, x1, -, h⟩ <;> rw [h]
  exacts [.signs rfl hcmd, .runs rfl]

theorem signRs_end {s : State} (hcmd : s.ctrl.cmd = 1) : ControllerEnd s (signRs s) := by
  rcases signRs_cases s with ⟨-, h⟩ | ⟨-, r, -, ⟨-, h⟩ | ⟨-, -, ⟨-, h⟩ | ⟨-, sv, -, ⟨-, h⟩ | ⟨-, h⟩⟩⟩⟩ <;> rw [h]
  exacts [.signs rfl hcmd, .runs rfl, .signs rfl hcmd, .runs rfl, .signs rfl hcmd]

theorem verifyCheck_end (s : State) : ControllerEnd s (verifyCheck s) := by
  rcases verifyCheck_cases s with ⟨-, h⟩ | ⟨-, ⟨-, h⟩ | ⟨-, h⟩⟩ <;> rw [h]
  exacts [.verifies rfl, .verifies rfl, .runs rfl]

theorem verifyRange_end (s : State) : ControllerEnd s (verifyRange s) := by
  rcases verifyRange_cases s with ⟨-, h⟩ | ⟨-, ⟨-, h⟩ | ⟨-, v, -, ⟨-, h⟩ | ⟨-, h⟩⟩⟩ <;> rw [h]
  exacts [.verifies rfl, .verifies rfl, .verifies rfl, .runs rfl]

theorem verifyMul_end (s : State) : ControllerEnd s (verifyMul s) := by
  rcases verifyMul_cases s with ⟨-, h⟩ | ⟨-, ⟨-, h⟩ | ⟨x1, -, h⟩⟩ <;> rw [h]
  exacts [.verifies rfl, .verifies rfl, .runs rfl]

theorem verifyCmp_end (s : State) : ControllerEnd s (verifyCmp s) := by
  rcases verifyCmp_cases s with ⟨-, h⟩ | ⟨-, ⟨-, h⟩ | ⟨-, h⟩⟩ <;> rw [h]
  exacts [.verifies rfl, .verifies rfl, .verifies rfl]

/-! ### The commands with an output string -/

section
variable {s : State} (hout : s.ctrl.cmd = 3 ∨ s.ctrl.cmd = 4 ∨ s.ctrl.cmd = 5)
include hout

theorem mgf1Check_end : ControllerEnd s (mgf1Check s) := by
  rcases mgf1Check_cases s with ⟨-, h⟩ | ⟨-, ⟨-, h⟩ | ⟨-, -, u, rfl, ⟨-, h⟩ | ⟨-, h⟩⟩⟩ <;> rw [h]
  exacts [.outputs rfl hout, .outputs rfl hout, .outputs rfl hout, .runs rfl]

theorem mgf1Block_end : ControllerEnd s (mgf1Block s) :=
  end_blockStep (.outputs rfl hout) fun _ _ => .outputs rfl hout

theorem encCheck_end : ControllerEnd s (encCheck s) := by
  rcases encCheck_cases s with ⟨-, h⟩ | ⟨-, ⟨-, h⟩ | ⟨-, -, -, _, -, ⟨-, h⟩ | ⟨-, -, h⟩ | ⟨-, h⟩⟩⟩ <;> rw [h]
  exacts [.outputs rfl hout, .outputs rfl hout, .outputs rfl hout, .outputs rfl hout, .runs rfl]

theorem encLhash_end : ControllerEnd s (encLhash s) := by
  rcases encLhash_cases s with ⟨-, h⟩ | ⟨-, alg, -, h⟩ <;> rw [h]
  exacts [.outputs rfl hout, .runs rfl]

theorem encSeed_end : ControllerEnd s (encSeed s) := by
  rcases encSeed_cases s with ⟨-, h⟩ | ⟨-, seed, d, -, h⟩ <;> rw [h]
  exacts [.outputs rfl hout, .runs rfl]

theorem encDbmask_end : ControllerEnd s (encDbmask s) :=
  end_blockStep (.outputs rfl hout) fun _ _ => .runs rfl

theorem encSeedmask_end : ControllerEnd s (encSeedmask s) :=
  end_blockStep (.outputs rfl hout) fun _ _ => .runs rfl

theorem encOut_end : ControllerEnd s (encOut s) := .outputs rfl hout

theorem decCheck_end : ControllerEnd s (decCheck s) := by
  rcases decCheck_cases s with ⟨-, h⟩ | ⟨-, ⟨-, h⟩ | ⟨-, -, -, _, -, ⟨-, h⟩ | ⟨-, h⟩⟩⟩ <;> rw [h]
  exacts [.outputs rfl hout, .outputs rfl hout, .outputs rfl hout, .runs rfl]

theorem decSeedmask_end : ControllerEnd s (decSeedmask s) :=
  end_blockStep (.outputs rfl hout) fun _ _ => .runs rfl

theorem decDbmask_end : ControllerEnd s (decDbmask s) :=
  end_blockStep (.outputs rfl hout) fun _ _ => .runs rfl

theorem decLhash_end : ControllerEnd s (decLhash s) := by
  rcases decLhash_cases s with ⟨-, h⟩ | ⟨-, alg, -, h⟩ <;> rw [h]
  exacts [.outputs rfl hout, .runs rfl]

theorem decScan_end : ControllerEnd s (decScan s) := by
  obtain ⟨u, rfl, ⟨-, h⟩ | ⟨-, h⟩⟩ := decScan_cases s <;> rw [h]
  exacts [.outputs rfl hout, .outputs rfl hout]

end

theorem decPad_end (s : State) : ControllerEnd s (decPad s) := .runs rfl

/-- Every controller step ends in one of these ways (R37). -/
theorem ControllerMove.ends {s t : State} (h : ControllerMove s t) : ControllerEnd s t := by
  cases h with
  | reserved => exact .verifies (code := .badCmd) rfl
  | signCheck hcmd => exact signCheck_end hcmd
  | signDraw hcmd => exact signDraw_end hcmd
  | signMulg hcmd => exact signMulg_end hcmd
  | signRs hcmd => exact signRs_end hcmd
  | verifyCheck => exact verifyCheck_end s
  | verifyRange => exact verifyRange_end s
  | verifyMul => exact verifyMul_end s
  | verifyCmp => exact verifyCmp_end s
  | mgf1Check hcmd => exact mgf1Check_end (.inl hcmd)
  | mgf1Block hcmd => exact mgf1Block_end (.inl hcmd)
  | encCheck hcmd => exact encCheck_end (.inr (.inl hcmd))
  | encLhash hcmd => exact encLhash_end (.inr (.inl hcmd))
  | encSeed hcmd => exact encSeed_end (.inr (.inl hcmd))
  | encDbmask hcmd => exact encDbmask_end (.inr (.inl hcmd))
  | encSeedmask hcmd => exact encSeedmask_end (.inr (.inl hcmd))
  | encOut hcmd => exact encOut_end (.inr (.inl hcmd))
  | decCheck hcmd => exact decCheck_end (.inr (.inr hcmd))
  | decPad => exact decPad_end s
  | decSeedmask hcmd => exact decSeedmask_end (.inr (.inr hcmd))
  | decDbmask hcmd => exact decDbmask_end (.inr (.inr hcmd))
  | decLhash hcmd => exact decLhash_end (.inr (.inr hcmd))
  | decScan hcmd => exact decScan_end (.inr (.inr hcmd))

/-! ### The bytes and registers it leaves -/

/-- A completion of SM2_SIGN fills R, S and DA, whatever its code (R72). -/
theorem signFinish_mem (code : ErrCode) (s : State) :
    ∃ r sv, (signFinish code s).mem = (((s.fillWin .r r).fillWin .s sv).fillWin .da []).mem := by
  unfold signFinish finish signWrites
  split
  · exact ⟨_, _, rfl⟩
  · exact ⟨_, _, rfl⟩

/-- The windows written under the CMD value latched (R55, R65). -/
def windowsOf (cmd : Sel) : List Win :=
  if cmd = 1 then [.r, .s, .da] else if cmd = 3 ∨ cmd = 4 ∨ cmd = 5 then [.outBuf] else []

theorem writtenWindows_eq (i : Instr) : writtenWindows i = windowsOf i.cmd := by
  cases i <;> rfl

theorem ControllerEnd.sameBytes {s t : State} (h : ControllerEnd s t) (hm : Memory.wf s.mem = true) :
    SameBytesOutside (windowsOf s.ctrl.cmd) s t := by
  intro a ha
  cases h with
  | runs worked => rw [State.goto_mem, worked.mem]
  | verifies worked => exact congrArg (readByte · a) worked.mem
  | @signs u code worked cmd =>
    rw [← worked.mem] at hm
    obtain ⟨r, sv, hmem⟩ := signFinish_mem code u
    rw [cmd, ← worked.control.cfg] at ha
    rw [hmem, readByte_signature hm r sv a ha, worked.mem]
  | @outputs u code b worked cmd =>
    rw [← worked.mem] at hm
    have hwin : windowsOf s.ctrl.cmd = [.outBuf] := by rcases cmd with cmd | cmd | cmd <;> rw [cmd] <;> rfl
    rw [hwin, ← worked.control.cfg] at ha
    rw [outputFinish_mem, State.readByte_fillWin hm, if_neg (ha _ (by simp)), worked.mem]

theorem ControllerEnd.outLen {s t : State} (h : ControllerEnd s t) :
    t.outLen = s.outLen ∨ s.ctrl.cmd = 3 ∨ s.ctrl.cmd = 4 ∨ s.ctrl.cmd = 5 := by
  cases h with
  | runs worked => exact .inl (by rw [State.goto_outLen, worked])
  | signs worked => exact .inl (by rw [signFinish_outLen, worked])
  | @verifies u code worked => exact .inl (show u.outLen = s.outLen by rw [worked])
  | outputs _ cmd => exact .inr cmd

theorem ControllerOutcome.control {s t : State} (h : ControllerOutcome s t) : SameControl s t := by
  cases h with
  | runs => exact ⟨rfl, rfl, rfl, rfl, rfl, rfl, rfl, rfl, rfl, rfl⟩
  | completes _ done => exact done.control

/-- Settles O55, by the outcome of the step (registers, SIGN_ITER) and by how it ends (bytes, OUT_LEN). -/
theorem controllerWritesOnlyItsState : Obligations.ControllerWritesOnlyItsState := by
  intro i p s t hrun hbusy hexec
  have hp : s.phase = p := hrun.phase
  have hcmd : s.ctrl.cmd = i.cmd := congrArg Ctrl.cmd hrun.latched
  have move : ControllerMove s t := exec_busy_cases (hp ▸ hbusy) hrun.latched hexec
  have hbytes := move.ends.sameBytes hrun.consistent.mem_wf
  rw [hcmd, ← writtenWindows_eq] at hbytes
  refine ⟨move.outcome.control, hbytes, fun hiter => ?_, fun hlen => ?_⟩
  · rcases move.outcome.countsDraw with same | ⟨-, hdraw, hsign⟩
    · exact absurd same hiter
    · exact ⟨hcmd ▸ hsign, hp ▸ hdraw⟩
  · rw [← hcmd]
    exact move.ends.outLen.resolve_left hlen

end Sys2Proof.Machine

/-! PROOF. The command word (spec/30_encoding.md R56 to R61): a word is its fields, the decoder reads four of them, and
the masks of R59 and R60 keep exactly what it reads. -/

namespace Sys2Proof

open Sys2Proof.Machine

/-! ### A word and its fields (R56) -/

theorem word_eq_fields (v : Word) :
    v = v.extractLsb' 16 16 ++ mselField v ++ hselField v ++ cmdField v ++ v.extractLsb' 1 3 ++ v.extractLsb' 0 1 := by
  simp only [mselField, hselField, cmdField, BitVec.extractLsb'_append_extractLsb'_eq_extractLsb']
  exact BitVec.extractLsb'_eq_self.symm

/-- Words with the same fields and the same ignored bits are the same. -/
theorem word_ext {v w : Word} (start : startField v = startField w) (low : v.extractLsb' 1 3 = w.extractLsb' 1 3)
    (cmd : cmdField v = cmdField w) (hsel : hselField v = hselField w) (msel : mselField v = mselField w)
    (high : v.extractLsb' 16 16 = w.extractLsb' 16 16) : v = w := by
  have bit0 : v.extractLsb' 0 1 = w.extractLsb' 0 1 := by
    ext i hi
    obtain rfl : i = 0 := by omega
    simpa [startField] using start
  rw [word_eq_fields v, word_eq_fields w, high, msel, hsel, cmd, low, bit0]

theorem wordOfLanes_lanes (v : Word) :
    wordOfLanes (v.extractLsb' 0 8) (v.extractLsb' 8 8) (v.extractLsb' 16 8) (v.extractLsb' 24 8) = v := by
  simp only [wordOfLanes, BitVec.extractLsb'_append_extractLsb'_eq_extractLsb']
  exact BitVec.extractLsb'_eq_self

theorem decodeBytes_lanesOf (v : Word) : decodeBytes (lanesOf v) = decode v := by
  rw [lanesOf, decodeBytes, wordOfLanes_lanes]

/-! ### The fields of a masked word -/

@[simp] theorem startField_and (v w : Word) : startField (v &&& w) = (startField v && startField w) :=
  BitVec.getLsbD_and

@[simp] theorem cmdField_and (v w : Word) : cmdField (v &&& w) = cmdField v &&& cmdField w :=
  BitVec.extractLsb'_and

@[simp] theorem hselField_and (v w : Word) : hselField (v &&& w) = hselField v &&& hselField w :=
  BitVec.extractLsb'_and

@[simp] theorem mselField_and (v w : Word) : mselField (v &&& w) = mselField v &&& mselField w :=
  BitVec.extractLsb'_and

/-- A mask that is itself of the form of a command word asks for START = 1 and masks each field. -/
theorem and_commandWord_eq_iff {v : Word} {cmd hsel msel c h m : Sel} :
    v &&& commandWord cmd hsel msel = commandWord c h m ↔
      startField v = true ∧ cmdField v &&& cmd = c ∧ hselField v &&& hsel = h ∧ mselField v &&& msel = m := by
  constructor
  · intro hv
    refine ⟨?_, ?_, ?_, ?_⟩
    · simpa using congrArg startField hv
    · simpa using congrArg cmdField hv
    · simpa using congrArg hselField hv
    · simpa using congrArg mselField hv
  · rintro ⟨hstart, rfl, rfl, rfl⟩
    obtain ⟨mask_low, mask_high⟩ := ignored_commandWord cmd hsel msel
    obtain ⟨low, high⟩ := ignored_commandWord (cmdField v &&& cmd) (hselField v &&& hsel) (mselField v &&& msel)
    apply word_ext
    case start => simp [hstart]
    case low => rw [BitVec.extractLsb'_and, mask_low, low]; exact BitVec.and_zero
    case high => rw [BitVec.extractLsb'_and, mask_high, high]; exact BitVec.and_zero
    all_goals simp

/-- The mask that clears the ignored bits [3:1] and [31:16] (R60). -/
theorem and_unignored_eq_commandWord_iff {v : Word} {c h m : Sel} :
    v &&& 0x0000FFF1 = commandWord c h m ↔
      startField v = true ∧ cmdField v = c ∧ hselField v = h ∧ mselField v = m := by
  have hmask : (0x0000FFF1 : Word) = commandWord (.allOnes 4) (.allOnes 4) (.allOnes 4) := by decide
  rw [hmask, and_commandWord_eq_iff]
  simp only [BitVec.and_allOnes]

/-- The mask of the opcode map (R59): it keeps START and CMD. -/
theorem and_opcode_eq_commandWord_iff {v : Word} {c : Sel} :
    v &&& 0x000000F1 = commandWord c 0 0 ↔ startField v = true ∧ cmdField v = c := by
  have hmask : (0x000000F1 : Word) = commandWord (.allOnes 4) 0 0 := by decide
  rw [hmask, and_commandWord_eq_iff, BitVec.and_allOnes]
  simp

/-! ### What the decoder answers -/

theorem commandOf_fields (i : Instr) : commandOf i.cmd i.hsel i.msel = some i := by cases i <;> rfl

theorem commandOf_eq_none_iff {cmd hsel msel : Sel} :
    commandOf cmd hsel msel = none ↔ cmd = 0 ∨ 6 ≤ cmd.toNat := by
  unfold commandOf
  split_ifs with h1 h2 h3 h4 h5
  case neg => simp only [true_iff]; bv_omega
  all_goals subst cmd; decide

theorem decode_of_commandOf_some {v : Word} {i : Instr} (hstart : startField v = true)
    (hi : commandOf (cmdField v) (hselField v) (mselField v) = some i) : decode v = .ok i := by
  rw [decode, if_pos hstart, hi]

theorem decode_of_commandOf_none {v : Word} (hstart : startField v = true)
    (hnone : commandOf (cmdField v) (hselField v) (mselField v) = none) :
    decode v = .error (.reservedCmd (cmdField v)) := by
  rw [decode, if_pos hstart, hnone]

theorem decode_of_not_started {v : Word} (hstart : startField v = false) : decode v = .error .notStarted := by
  rw [decode, hstart, if_neg Bool.false_ne_true]

theorem decode_eq_ok_iff {v : Word} {i : Instr} :
    decode v = .ok i ↔
      startField v = true ∧ cmdField v = i.cmd ∧ hselField v = i.hsel ∧ mselField v = i.msel := by
  constructor
  · intro h
    obtain ⟨hstart, hcmd, hhsel, hmsel⟩ := decode_eq_ok h
    exact ⟨hstart, hcmd.symm, hhsel.symm, hmsel.symm⟩
  · rintro ⟨hstart, hcmd, hhsel, hmsel⟩
    exact decode_of_commandOf_some hstart (by rw [hcmd, hhsel, hmsel, commandOf_fields])

theorem decode_eq_reserved_iff {v : Word} {c : Sel} :
    decode v = .error (.reservedCmd c) ↔ startField v = true ∧ (c = 0 ∨ 6 ≤ c.toNat) ∧ cmdField v = c := by
  cases hstart : startField v with
  | false => simp [decode_of_not_started hstart]
  | true =>
    cases hcommand : commandOf (cmdField v) (hselField v) (mselField v) with
    | some i =>
      have assigned : ¬ (cmdField v = 0 ∨ 6 ≤ (cmdField v).toNat) := by
        rw [← commandOf_eq_none_iff (hsel := hselField v) (msel := mselField v), hcommand]
        simp
      rw [decode_of_commandOf_some hstart hcommand]
      simp only [reduceCtorEq, true_and, false_iff]
      rintro ⟨hreserved, rfl⟩
      exact assigned hreserved
    | none =>
      rw [decode_of_commandOf_none hstart hcommand]
      simp only [Except.error.injEq, DecodeError.reservedCmd.injEq, true_and]
      refine ⟨?_, And.right⟩
      rintro rfl
      exact ⟨commandOf_eq_none_iff.1 hcommand, rfl⟩

theorem decode_eq_notStarted_iff {v : Word} : decode v = .error .notStarted ↔ startField v = false := by
  refine ⟨fun h => ?_, decode_of_not_started⟩
  by_contra hstart
  rw [Bool.not_eq_false] at hstart
  cases hcommand : commandOf (cmdField v) (hselField v) (mselField v) with
  | some i => simp [decode_of_commandOf_some hstart hcommand] at h
  | none => simp [decode_of_commandOf_none hstart hcommand] at h

theorem decode_encode (i : Instr) : decode (encode i) = .ok i := by
  rw [decode_eq_ok_iff, encode]
  simp

/-- Settles O1: an encoding has the fields the decoder reads, and the mask of R60 keeps these fields only. -/
theorem decodeInvertsEncode : Obligations.DecodeInvertsEncode := by
  refine ⟨fun i _ => ⟨decode_encode i, ?_⟩, fun v i => ?_⟩
  · rw [decodeBytes_lanesOf, decode_encode]
  · rw [decode_eq_ok_iff, encode, and_unignored_eq_commandWord_iff]

/-- The opcode mask selects the command that `make` builds from its selectors. -/
theorem opcodeMask_selects {make : Sel → Sel → Instr} {c : Sel}
    (fields : ∀ h m, (make h m).cmd = c ∧ (make h m).hsel = h ∧ (make h m).msel = m) (v : Word) :
    v &&& 0x000000F1 = commandWord c 0 0 ↔ ∃ h m, decode v = .ok (make h m) := by
  rw [and_opcode_eq_commandWord_iff]
  constructor
  · rintro ⟨hstart, hcmd⟩
    obtain ⟨make_cmd, make_hsel, make_msel⟩ := fields (hselField v) (mselField v)
    exact ⟨_, _, decode_eq_ok_iff.2 ⟨hstart, hcmd.trans make_cmd.symm, make_hsel.symm, make_msel.symm⟩⟩
  · rintro ⟨h, m, hdecode⟩
    obtain ⟨hstart, hcmd, -, -⟩ := decode_eq_ok_iff.1 hdecode
    exact ⟨hstart, hcmd.trans (fields h m).1⟩

/-- Settles O2: each value of the opcode map is the command word with its CMD and selectors 0. -/
theorem maskSelectsCommand : Obligations.MaskSelectsCommand := by
  intro v
  refine ⟨opcodeMask_selects (c := 1) (fun _ _ => ⟨rfl, rfl, rfl⟩) v,
    opcodeMask_selects (c := 2) (fun _ _ => ⟨rfl, rfl, rfl⟩) v,
    opcodeMask_selects (c := 3) (fun _ _ => ⟨rfl, rfl, rfl⟩) v,
    opcodeMask_selects (c := 4) (fun _ _ => ⟨rfl, rfl, rfl⟩) v,
    opcodeMask_selects (c := 5) (fun _ _ => ⟨rfl, rfl, rfl⟩) v, ?_, decode_eq_notStarted_iff.symm⟩
  constructor
  · rintro ⟨hstart, hreserved⟩
    exact ⟨cmdField v, decode_eq_reserved_iff.2 ⟨hstart, hreserved, rfl⟩⟩
  · rintro ⟨c, hdecode⟩
    obtain ⟨hstart, hreserved, rfl⟩ := decode_eq_reserved_iff.1 hdecode
    exact ⟨hstart, hreserved⟩

/-- Settles O3, by the fields of each word. -/
theorem sampleWordsDecode : Obligations.SampleWordsDecode := by
  refine ⟨?_, ?_, ?_, ?_, ?_⟩ <;> exact decode_eq_ok_iff.2 (by decide)

end Sys2Proof

/-! PROOF. The writes of CTRL and what follows them: acceptance, the ignored write of a BUSY block, the completion of a
reserved CMD, and the CHECK of MGF1 (spec/30_encoding.md R57 to R59, R62, R63; spec/42_mgf1.md R89). -/

namespace Sys2Proof.Machine

open Sys2Proof.Config

/-! ### A CTRL write (R57, R58) -/

theorem not_busy {s : State} (hidle : s.phase = .idle) : ¬ s.busy = true := fun hb => (busy_iff s).1 hb hidle

theorem commandWrite_busy {v : Word} {s : State} (hb : s.phase ≠ .idle) :
    takeAction (commandWrite v s) = .next (turnAway s) := by
  rw [commandWrite, if_pos ((busy_iff s).2 hb)]
  rfl

/-- START = 1 on an IDLE block: an assigned CMD and a reserved one are accepted alike (R57, R59). -/
theorem commandWrite_started {v : Word} {s : State} (hidle : s.phase = .idle) (hstart : startField v = true) :
    takeAction (commandWrite v s) = .next (accept (cmdField v) (hselField v) (mselField v) s) := by
  rw [commandWrite, if_neg (not_busy hidle)]
  cases hcommand : commandOf (cmdField v) (hselField v) (mselField v) with
  | some i =>
    have hdecode := decode_of_commandOf_some hstart hcommand
    obtain ⟨-, hcmd, hhsel, hmsel⟩ := decode_eq_ok_iff.1 hdecode
    rw [hdecode, hcmd, hhsel, hmsel]
    exact exec_idle hidle
  | none =>
    rw [decode_of_commandOf_none hstart hcommand]
    rfl

theorem commandWrite_not_started {v : Word} {s : State} (hidle : s.phase = .idle) (hstart : startField v = false) :
    takeAction (commandWrite v s) = .next s := by
  rw [commandWrite, if_neg (not_busy hidle), decode_of_not_started hstart]
  rfl

theorem step_ctrlWrite {v : Word} {rest : List HostEvent} {s : State}
    (h : HostNext (.write (s.cfg.base + 0x010) 4 v) rest s) :
    step s = takeAction (commandWrite v { s with inputs := rest, bus := .written }) := by
  rw [step_write (by decide) (by decide) h, if_pos (by decide)]

/-- Settles O5, by `exec_idle`. -/
theorem commandIsAccepted : Obligations.CommandIsAccepted := fun _ _ hidle => exec_idle hidle

/-- Settles O6, by the START bit of the word. -/
theorem ctrlWriteStartsCommand : Obligations.CtrlWriteStartsCommand := by
  intro s v rest hnext hidle
  rw [step_ctrlWrite hnext]
  exact ⟨fun hstart => commandWrite_started hidle hstart, fun hstart => commandWrite_not_started hidle hstart⟩

/-- Settles O7, by the busy lock of CTRL. -/
theorem ctrlWriteWhileBusyIgnored : Obligations.CtrlWriteWhileBusyIgnored := by
  intro s v rest hnext hb
  rw [step_ctrlWrite hnext]
  exact commandWrite_busy hb

/-! ### The controller's turn (R10, R37) -/

theorem step_controller {s : State} (hq : s.inputs = []) (hb : s.phase ≠ .idle) :
    step s = takeAction (controllerAction s) := by
  simp only [step, nextAction, hq, if_neg hb]

/-- A head of the queue that still waits loses one of its waits (assumption log 3). -/
theorem step_controller_waiting {s : State} {wait : Nat} {op : HostOp} {rest : List HostEvent}
    (hq : s.inputs = { wait := wait + 1, op := op } :: rest) (hb : s.phase ≠ .idle) :
    step s = takeAction (controllerAction { s with inputs := { wait := wait, op := op } :: rest }) := by
  have hwait : ¬ (wait + 1 = 0 ∨ s.phase = .idle) := by simp [hb]
  simp only [step, nextAction, hq, if_neg hwait, Nat.add_sub_cancel]

/-! ### A reserved CMD (R59) -/

/-- The latched word of a reserved CMD decodes to no command, so its CHECK completes (R59, R115). -/
theorem controllerAction_reserved {s : State} (hp : s.phase = .check)
    (hc : s.ctrl.cmd = 0 ∨ 6 ≤ s.ctrl.cmd.toNat) :
    takeAction (controllerAction s) =
      .next { s with err := .badCmd, valid := false, w := Working.zero, phase := .idle, done := true } := by
  have hdecode : decode (latchedWord s) = .error (.reservedCmd s.ctrl.cmd) :=
    decode_eq_reserved_iff.2 ⟨startField_commandWord .., hc, cmdField_commandWord ..⟩
  have hstep : takeAction (controllerAction s) = reservedStep s := by rw [controllerAction, hdecode]; rfl
  have hvalid : (s.ctrl.cmd == 2 && ErrCode.badCmd == .ok) = false := Bool.and_false _
  rw [hstep, reservedStep, if_pos hp, finish_eq, hvalid]
  rfl

/-- Settles O8: the controller has the turn, with an empty queue and with one whose head still waits. -/
theorem reservedCommandIsBadCmd : Obligations.ReservedCommandIsBadCmd := by
  intro s hp hc
  have hb : s.phase ≠ .idle := by simp [hp]
  refine ⟨fun hq => ?_, fun wait op rest hq => ?_⟩
  · rw [step_controller hq hb]
    exact controllerAction_reserved hp hc
  · rw [step_controller_waiting hq hb]
    exact controllerAction_reserved hp hc

/-! ### CHECK of MGF1 (R62, R63, R89, R113) -/

theorem validSel_eq_false_iff {s : State} {sel : Sel} : validSel s sel = false ↔ hashEntry s.cfg sel = none := by
  simp [validSel]

theorem validSel_of_entry {s : State} {sel : Sel} {alg : HashAlg} (h : hashEntry s.cfg sel = some alg) :
    validSel s sel = true := by simp [validSel, h]

theorem sameControl_setW (s : State) (w : Working) : SameControl s (s.setW w) :=
  ⟨rfl, rfl, rfl, rfl, rfl, rfl, rfl, rfl, rfl, rfl⟩

theorem exec_mgf1_check {h m : Sel} {s : State} (hs : Running (.mgf1 h m) .check s) :
    exec (.mgf1 h m) s = .next (mgf1Check s) := by
  have hb : s.phase ≠ .idle := by simp [hs.phase]
  rw [exec_latched hb hs.latched, phaseStep, mgf1Phase, hs.phase]

section
variable {s : State}

theorem mgf1Check_of_invalid (hbad : validSel s (resolvedMs s) = false) :
    mgf1Check s = mgf1Finish .badCmd [] (storeSelectors s) := by
  simpa [hbad] using mgf1Check_cases s

theorem mgf1Check_of_long (hvalid : validSel s (resolvedMs s) = true)
    (hlong : s.cfg.bmax < s.inLen.toNat ∨ s.cfg.bmax < s.tlen.toNat) :
    mgf1Check s = mgf1Finish .alloc [] (storeSelectors s) := by
  have hfits : ¬ (s.inLen.toNat ≤ s.cfg.bmax ∧ s.tlen.toNat ≤ s.cfg.bmax) := by omega
  simpa [hvalid, hlong, ← and_assoc, hfits] using mgf1Check_cases s

/-- The capacities fit: TLEN decides (R89). -/
theorem mgf1Check_of_fits (hvalid : validSel s (resolvedMs s) = true) (hin : s.inLen.toNat ≤ s.cfg.bmax)
    (htlen : s.tlen.toNat ≤ s.cfg.bmax) {u : State}
    (hu : u = (storeSelectors s).setW { (storeSelectors s).w with out := [], i := 0 }) :
    mgf1Check s = if s.tlen = 0 then mgf1Finish .ok [] u else u.goto .mBlock := by
  subst hu
  have hcap : ¬ (s.cfg.bmax < s.inLen.toNat ∨ s.cfg.bmax < s.tlen.toNat) := by omega
  have hends := mgf1Check_cases s
  simp only [hvalid, hcap, hin, htlen, exists_eq_left, true_and, false_and, false_or, Bool.true_eq_false] at hends
  rcases hends with ⟨hzero, hcheck⟩ | ⟨hpos, hcheck⟩
  · rw [if_pos hzero, hcheck]
  · rw [if_neg hpos, hcheck]

end

/-- A completion in CHECK after storing working registers: the common outcome, the empty mask, and no draw used. -/
theorem mgf1Finish_of_check (code : ErrCode) {s : State} (hs : s.Consistent) (w : Working) :
    Completes s (mgf1Finish code [] (s.setW w)) code ∧ WritesOutput s (mgf1Finish code [] (s.setW w)) [] ∧
      (mgf1Finish code [] (s.setW w)).draws = s.draws := by
  refine ⟨mgf1Finish_completes code [] (sameControl_setW s w), ?_, mgf1Finish_draws ..⟩
  exact outputFinish_writes (by simp) hs.mem_wf rfl rfl rfl (Nat.zero_le _) (by simp)

/-- Settles O36, by the order of CHECK's tests in R89: selector, capacities, TLEN. -/
theorem mgf1CheckOutcome : Obligations.Mgf1CheckOutcome := by
  intro h m s hs
  rw [exec_mgf1_check hs]
  refine ⟨fun hnone => ⟨_, rfl, ?_⟩, fun ma hma => ⟨fun hlong => ⟨_, rfl, ?_⟩, fun hin htlen => ?_⟩⟩
  · rw [mgf1Check_of_invalid (validSel_eq_false_iff.2 hnone)]
    exact mgf1Finish_of_check .badCmd hs.consistent _
  · rw [mgf1Check_of_long (validSel_of_entry hma) hlong]
    exact mgf1Finish_of_check .alloc hs.consistent _
  · rw [mgf1Check_of_fits (validSel_of_entry hma) hin htlen rfl]
    refine ⟨fun hzero => ⟨_, rfl, ?_⟩, fun hpos => ?_⟩
    · rw [if_pos hzero]
      exact mgf1Finish_of_check .ok hs.consistent _
    · rw [if_neg hpos, storeSelectors, hlen_of_entry hma]
      rfl

end Sys2Proof.Machine

/-! PROOF. With which codes a controller step can complete, and what its completion leaves in the windows
(spec/60_exceptions.md R109, R115; spec/40_sm2_sign.md R72). -/

namespace Sys2Proof.Machine

open Sys2Proof.Config

/-! ### How each phase of each command may end (R68, R77, R89, R92, R99) -/

/-- The completion a command makes from a state with this code (R72, R81, R89, R96, R105). -/
def IsCompletion : Instr → ErrCode → State → State → Prop
  | .sm2Sign _ _, code, u, t => t = signFinish code u
  | .sm2Verify _ _, code, u, t => t = verifyFinish code u
  | .mgf1 _ _, code, u, t => ∃ b, t = finish code (outputWrites code b) u
  | .oaepEnc _ _, code, u, t => ∃ b, t = finish code (outputWrites code b) u
  | .oaepDec _ _, code, u, t => ∃ b, t = finish code (outputWrites code b) u

/-- A step of the command in this phase runs on, or makes the command's completion with a code of its phase. -/
inductive EndsIn (i : Instr) (p : Phase) (s : State) : State → Prop where
  | runs {t : State} (busy : t.phase ≠ .idle) : EndsIn i p s t
  | completes {u t : State} {code : ErrCode} (worked : WorkedFrom s u) (possible : code ∈ possibleCodes i p)
      (completion : IsCompletion i code u t) : EndsIn i p s t

theorem endsIn_goto {i : Instr} {p q : Phase} {s u : State} (busy : q ≠ .idle) : EndsIn i p s (u.goto q) :=
  .runs busy

theorem endsIn_signFinish {h m : Sel} {p : Phase} {s u : State} {code : ErrCode} (worked : WorkedFrom s u)
    (possible : code ∈ possibleCodes (.sm2Sign h m) p) : EndsIn (.sm2Sign h m) p s (signFinish code u) :=
  .completes worked possible rfl

theorem endsIn_verifyFinish {h m : Sel} {p : Phase} {s u : State} {code : ErrCode} (worked : WorkedFrom s u)
    (possible : code ∈ possibleCodes (.sm2Verify h m) p) : EndsIn (.sm2Verify h m) p s (verifyFinish code u) :=
  .completes worked possible rfl

theorem endsIn_outputFinish {i : Instr} {p : Phase} {s u : State} {code : ErrCode} {b : List Byte}
    (worked : WorkedFrom s u) (possible : code ∈ possibleCodes i p)
    (completion : IsCompletion i code u (finish code (outputWrites code b) u)) :
    EndsIn i p s (finish code (outputWrites code b) u) := .completes worked possible completion

theorem endsIn_blockStep {i : Instr} {p : Phase} {s : State} {src : List Byte} {L : Nat} {fail : State → State}
    {use : List Byte → State → State} (hp : s.phase = p) (busy : p ≠ .idle) (hfail : EndsIn i p s (fail s.drawn))
    (huse : ∀ mask w, EndsIn i p s (use mask (s.drawn.setW w))) : EndsIn i p s (blockStep src L fail use s) := by
  rcases blockStep_cases src L fail use s with ⟨-, h⟩ | ⟨alg, -, -, ⟨-, h⟩ | ⟨-, h⟩⟩ <;> rw [h]
  · exact hfail
  · exact huse _ _
  · exact .runs (by simpa [hp] using busy)

section
variable {h m : Sel} (s : State)

theorem signCheck_endsIn : EndsIn (.sm2Sign h m) .check s (signCheck s) := by
  rcases signCheck_cases s with ⟨-, h⟩ | ⟨-, ⟨-, h⟩ | ⟨-, -, -, h⟩ | ⟨-, -, h⟩⟩ <;> rw [h]
  · exact endsIn_signFinish rfl (by simp [possibleCodes])
  · exact endsIn_signFinish rfl (by simp [possibleCodes])
  · exact endsIn_goto (by decide)
  · exact endsIn_signFinish rfl (by simp [possibleCodes])

theorem signDraw_endsIn : EndsIn (.sm2Sign h m) .sDraw s (signDraw s) := by
  rcases signDraw_cases s with ⟨-, h⟩ | ⟨-, k, d, -, ⟨-, h⟩ | ⟨-, -, h⟩ | ⟨-, -, h⟩⟩ <;> rw [h]
  · exact endsIn_signFinish rfl (by simp [possibleCodes])
  · exact endsIn_signFinish rfl (by simp [possibleCodes])
  · exact endsIn_goto (by decide)
  · exact endsIn_goto (by decide)

theorem signMulg_endsIn : EndsIn (.sm2Sign h m) .sMulg s (signMulg s) := by
  rcases signMulg_cases s with ⟨-, h⟩ | ⟨-, x1, -, h⟩ <;> rw [h]
  · exact endsIn_signFinish rfl (by simp [possibleCodes])
  · exact endsIn_goto (by decide)

theorem signRs_endsIn : EndsIn (.sm2Sign h m) .sRs s (signRs s) := by
  rcases signRs_cases s with ⟨-, h⟩ | ⟨-, r, -, ⟨-, h⟩ | ⟨-, -, ⟨-, h⟩ | ⟨-, sv, -, ⟨-, h⟩ | ⟨-, h⟩⟩⟩⟩ <;> rw [h]
  · exact endsIn_signFinish rfl (by simp [possibleCodes])
  · exact endsIn_goto (by decide)
  · exact endsIn_signFinish rfl (by simp [possibleCodes])
  · exact endsIn_goto (by decide)
  · exact endsIn_signFinish rfl (by simp [possibleCodes])

theorem verifyCheck_endsIn : EndsIn (.sm2Verify h m) .check s (verifyCheck s) := by
  rcases verifyCheck_cases s with ⟨-, h⟩ | ⟨-, ⟨-, h⟩ | ⟨-, h⟩⟩ <;> rw [h]
  · exact endsIn_verifyFinish rfl (by simp [possibleCodes])
  · exact endsIn_verifyFinish rfl (by simp [possibleCodes])
  · exact endsIn_goto (by decide)

theorem verifyRange_endsIn : EndsIn (.sm2Verify h m) .vRange s (verifyRange s) := by
  rcases verifyRange_cases s with ⟨-, h⟩ | ⟨-, ⟨-, h⟩ | ⟨-, v, -, ⟨-, h⟩ | ⟨-, h⟩⟩⟩ <;> rw [h]
  · exact endsIn_verifyFinish rfl (by simp [possibleCodes])
  · exact endsIn_verifyFinish rfl (by simp [possibleCodes])
  · exact endsIn_verifyFinish rfl (by simp [possibleCodes])
  · exact endsIn_goto (by decide)

theorem verifyMul_endsIn : EndsIn (.sm2Verify h m) .vMul s (verifyMul s) := by
  rcases verifyMul_cases s with ⟨-, h⟩ | ⟨-, ⟨-, h⟩ | ⟨x1, -, h⟩⟩ <;> rw [h]
  · exact endsIn_verifyFinish rfl (by simp [possibleCodes])
  · exact endsIn_verifyFinish rfl (by simp [possibleCodes])
  · exact endsIn_goto (by decide)

theorem verifyCmp_endsIn : EndsIn (.sm2Verify h m) .vCmp s (verifyCmp s) := by
  rcases verifyCmp_cases s with ⟨-, h⟩ | ⟨-, ⟨-, h⟩ | ⟨-, h⟩⟩ <;> rw [h]
  · exact endsIn_verifyFinish rfl (by simp [possibleCodes])
  · exact endsIn_verifyFinish rfl (by simp [possibleCodes])
  · exact endsIn_verifyFinish rfl (by simp [possibleCodes])

theorem mgf1Check_endsIn : EndsIn (.mgf1 h m) .check s (mgf1Check s) := by
  rcases mgf1Check_cases s with ⟨-, h⟩ | ⟨-, ⟨-, h⟩ | ⟨-, -, u, rfl, ⟨-, h⟩ | ⟨-, h⟩⟩⟩ <;> rw [h]
  · exact endsIn_outputFinish rfl (by simp [possibleCodes]) ⟨_, rfl⟩
  · exact endsIn_outputFinish rfl (by simp [possibleCodes]) ⟨_, rfl⟩
  · exact endsIn_outputFinish rfl (by simp [possibleCodes]) ⟨_, rfl⟩
  · exact endsIn_goto (by decide)

theorem mgf1Block_endsIn (hp : s.phase = .mBlock) : EndsIn (.mgf1 h m) .mBlock s (mgf1Block s) :=
  endsIn_blockStep hp (by decide) (endsIn_outputFinish rfl (by simp [possibleCodes]) ⟨_, rfl⟩)
    fun _ _ => endsIn_outputFinish rfl (by simp [possibleCodes]) ⟨_, rfl⟩

theorem encCheck_endsIn : EndsIn (.oaepEnc h m) .check s (encCheck s) := by
  rcases encCheck_cases s with ⟨-, h⟩ | ⟨-, ⟨-, h⟩ | ⟨-, -, -, _, -, ⟨-, h⟩ | ⟨-, -, h⟩ | ⟨-, h⟩⟩⟩ <;> rw [h]
  · exact endsIn_outputFinish rfl (by simp [possibleCodes]) ⟨_, rfl⟩
  · exact endsIn_outputFinish rfl (by simp [possibleCodes]) ⟨_, rfl⟩
  · exact endsIn_outputFinish rfl (by simp [possibleCodes]) ⟨_, rfl⟩
  · exact endsIn_outputFinish rfl (by simp [possibleCodes]) ⟨_, rfl⟩
  · exact endsIn_goto (by decide)

theorem encLhash_endsIn : EndsIn (.oaepEnc h m) .eLhash s (encLhash s) := by
  rcases encLhash_cases s with ⟨-, h⟩ | ⟨-, alg, -, h⟩ <;> rw [h]
  · exact endsIn_outputFinish rfl (by simp [possibleCodes]) ⟨_, rfl⟩
  · exact endsIn_goto (by decide)

theorem encSeed_endsIn : EndsIn (.oaepEnc h m) .eSeed s (encSeed s) := by
  rcases encSeed_cases s with ⟨-, h⟩ | ⟨-, seed, d, -, h⟩ <;> rw [h]
  · exact endsIn_outputFinish rfl (by simp [possibleCodes]) ⟨_, rfl⟩
  · exact endsIn_goto (by decide)

theorem encDbmask_endsIn (hp : s.phase = .eDbmask) : EndsIn (.oaepEnc h m) .eDbmask s (encDbmask s) :=
  endsIn_blockStep hp (by decide) (endsIn_outputFinish rfl (by simp [possibleCodes]) ⟨_, rfl⟩)
    fun _ _ => endsIn_goto (by decide)

theorem encSeedmask_endsIn (hp : s.phase = .eSeedmask) : EndsIn (.oaepEnc h m) .eSeedmask s (encSeedmask s) :=
  endsIn_blockStep hp (by decide) (endsIn_outputFinish rfl (by simp [possibleCodes]) ⟨_, rfl⟩)
    fun _ _ => endsIn_goto (by decide)

theorem encOut_endsIn : EndsIn (.oaepEnc h m) .eOut s (encOut s) :=
  endsIn_outputFinish rfl (by simp [possibleCodes]) ⟨_, rfl⟩

theorem decCheck_endsIn : EndsIn (.oaepDec h m) .check s (decCheck s) := by
  rcases decCheck_cases s with ⟨-, h⟩ | ⟨-, ⟨-, h⟩ | ⟨-, -, -, _, -, ⟨-, h⟩ | ⟨-, h⟩⟩⟩ <;> rw [h]
  · exact endsIn_outputFinish rfl (by simp [possibleCodes]) ⟨_, rfl⟩
  · exact endsIn_outputFinish rfl (by simp [possibleCodes]) ⟨_, rfl⟩
  · exact endsIn_outputFinish rfl (by simp [possibleCodes]) ⟨_, rfl⟩
  · exact endsIn_goto (by decide)

theorem decSeedmask_endsIn (hp : s.phase = .dSeedmask) : EndsIn (.oaepDec h m) .dSeedmask s (decSeedmask s) :=
  endsIn_blockStep hp (by decide) (endsIn_outputFinish rfl (by simp [possibleCodes]) ⟨_, rfl⟩)
    fun _ _ => endsIn_goto (by decide)

theorem decDbmask_endsIn (hp : s.phase = .dDbmask) : EndsIn (.oaepDec h m) .dDbmask s (decDbmask s) :=
  endsIn_blockStep hp (by decide) (endsIn_outputFinish rfl (by simp [possibleCodes]) ⟨_, rfl⟩)
    fun _ _ => endsIn_goto (by decide)

theorem decLhash_endsIn : EndsIn (.oaepDec h m) .dLhash s (decLhash s) := by
  rcases decLhash_cases s with ⟨-, h⟩ | ⟨-, alg, -, h⟩ <;> rw [h]
  · exact endsIn_outputFinish rfl (by simp [possibleCodes]) ⟨_, rfl⟩
  · exact endsIn_goto (by decide)

theorem decScan_endsIn : EndsIn (.oaepDec h m) .dScan s (decScan s) := by
  obtain ⟨u, rfl, ⟨-, h⟩ | ⟨-, h⟩⟩ := decScan_cases s <;> rw [h]
  · exact endsIn_outputFinish rfl (by simp [possibleCodes]) ⟨_, rfl⟩
  · exact endsIn_outputFinish rfl (by simp [possibleCodes]) ⟨_, rfl⟩

end

/-- Every phase of every command ends so (R37). -/
theorem phaseStep_endsIn {i : Instr} {s t : State} (hstep : phaseStep i s = .next t) : EndsIn i s.phase s t := by
  cases i with
  | sm2Sign h m =>
    simp only [phaseStep, signPhase] at hstep
    split at hstep <;> cases hstep <;> rename_i hp <;> rw [hp]
    exacts [signCheck_endsIn s, signDraw_endsIn s, signMulg_endsIn s, signRs_endsIn s]
  | sm2Verify h m =>
    simp only [phaseStep, verifyPhase] at hstep
    split at hstep <;> cases hstep <;> rename_i hp <;> rw [hp]
    exacts [verifyCheck_endsIn s, verifyRange_endsIn s, verifyMul_endsIn s, verifyCmp_endsIn s]
  | mgf1 h m =>
    simp only [phaseStep, mgf1Phase] at hstep
    split at hstep <;> cases hstep <;> rename_i hp <;> rw [hp]
    exacts [mgf1Check_endsIn s, mgf1Block_endsIn s hp]
  | oaepEnc h m =>
    simp only [phaseStep, encPhase] at hstep
    split at hstep <;> cases hstep <;> rename_i hp <;> rw [hp]
    exacts [encCheck_endsIn s, encLhash_endsIn s, encSeed_endsIn s, encDbmask_endsIn s hp, encSeedmask_endsIn s hp,
      encOut_endsIn s]
  | oaepDec h m =>
    simp only [phaseStep, decPhase] at hstep
    split at hstep <;> cases hstep <;> rename_i hp <;> rw [hp]
    exacts [decCheck_endsIn s, endsIn_goto (by decide), decSeedmask_endsIn s hp, decDbmask_endsIn s hp,
      decLhash_endsIn s, decScan_endsIn s]

/-! ### What a completion leaves -/

theorem outputFinish_err (code : ErrCode) (b : List Byte) (s : State) :
    (finish code (outputWrites code b) s).err = code := by simp [finish]

section
variable {i : Instr} {code : ErrCode} {s u t : State} (h : IsCompletion i code u t)
include h

theorem IsCompletion.err : t.err = code := by
  cases i with
  | sm2Sign => rw [h]; exact signFinish_err code u
  | sm2Verify => rw [h]; rfl
  | mgf1 | oaepEnc | oaepDec => obtain ⟨b, rfl⟩ := h; exact outputFinish_err code b u

theorem IsCompletion.of_sign (hcmd : i.cmd = 1) : t = signFinish code u := by
  cases i with
  | sm2Sign => exact h
  | _ => simp [Instr.cmd] at hcmd

theorem IsCompletion.of_output (hcmd : i.cmd = 3 ∨ i.cmd = 4 ∨ i.cmd = 5) :
    ∃ b, t = finish code (outputWrites code b) u := by
  cases i with
  | mgf1 | oaepEnc | oaepDec => exact h
  | _ => simp [Instr.cmd] at hcmd

end

theorem WorkedFrom.cfg_wf {s u : State} (worked : WorkedFrom s u) (hs : s.Consistent) : u.cfg.WellFormed := by
  rw [worked.control.cfg]; exact hs.cfg_wf

theorem WorkedFrom.mem_wf {s u : State} (worked : WorkedFrom s u) (hs : s.Consistent) : Memory.wf u.mem = true := by
  rw [worked.mem]; exact hs.mem_wf

/-- A completion of SM2_SIGN clears DA, whatever its code (R72). -/
theorem scalar_da_signFinish (code : ErrCode) {u : State} (hc : u.cfg.WellFormed) (hm : Memory.wf u.mem = true) :
    scalar (signFinish code u) .da = 0 := by
  obtain ⟨r, sv, hmem⟩ := signFinish_mem code u
  obtain ⟨-, -, hda⟩ := scalar_signature hc hm r sv _ rfl
  rw [← hda, scalar, scalar, State.winBytes, State.winBytes, hmem]
  simp

/-- A failing SM2_SIGN: the common outcome, and R, S and DA all zero (R72, R115). -/
theorem signFinish_fails {s u : State} {code : ErrCode} (hs : s.Consistent) (worked : WorkedFrom s u)
    (hcode : code ≠ .ok) :
    Completes s (signFinish code u) code ∧ WritesSignature s (signFinish code u) 0 0 ∧
      (signFinish code u).signIter = u.signIter ∧ (signFinish code u).draws = u.draws :=
  ⟨signFinish_completes code worked.control,
    signFinish_writes_fail (worked.cfg_wf hs) (worked.mem_wf hs) worked.control.cfg worked.mem (by rw [worked]) hcode,
    signFinish_signIter .., signFinish_draws ..⟩

/-- A failing command with an output string leaves OUT_BUF all zero and OUT_LEN 0 (R89, R96, R105). -/
theorem outputFinish_fails {s u : State} {code : ErrCode} (b : List Byte) (hs : s.Consistent) (worked : WorkedFrom s u)
    (hiter : u.signIter = s.signIter) (hcode : code ≠ .ok) :
    WritesOutput s (finish code (outputWrites code b) u) [] :=
  outputFinish_writes_fail b (worked.mem_wf hs) worked.control.cfg worked.mem hiter hcode

/-- Settles O57, by how the phase of the command ends. -/
theorem completionCodes : Obligations.CompletionCodes := by
  intro i p s t hrun hbusy hexec hidle
  have hp : s.phase = p := hrun.phase
  have hcount := (controllerWritesOnlyItsState i p s t hrun hbusy hexec).2.2.1
  rw [exec_latched (hp ▸ hbusy) hrun.latched] at hexec
  have hends := phaseStep_endsIn hexec
  rw [hp] at hends
  cases hends with
  | runs busy => exact absurd hidle busy
  | @completes u _ code worked possible completion =>
    rw [completion.err]
    refine ⟨possible, fun hcode hout => ?_, fun hsign => ?_⟩
    · obtain ⟨b, rfl⟩ := completion.of_output hout
      refine outputFinish_fails b hrun.consistent worked (Decidable.by_contra fun hiter => ?_) hcode
      obtain ⟨hsign, -⟩ := hcount (by simpa [finish] using hiter)
      simp [hsign] at hout
    · obtain rfl := completion.of_sign hsign
      refine ⟨scalar_da_signFinish code (worked.cfg_wf hrun.consistent) (worked.mem_wf hrun.consistent), fun hcode => ?_⟩
      obtain ⟨-, hwrites, -⟩ := signFinish_fails hrun.consistent worked hcode
      exact hwrites

end Sys2Proof.Machine

/-! PROOF. SM2_SIGN phase by phase, and the signature it completes with (spec/40_sm2_sign.md R68 to R73). -/

namespace Sys2Proof.Machine

open Sys2Proof.Config

/-! ### The step of a running SM2_SIGN -/

theorem exec_sign {h m : Sel} {p : Phase} {s : State} (hs : Running (.sm2Sign h m) p s) (hb : p ≠ .idle) :
    exec (.sm2Sign h m) s = signPhase s := exec_latched (hs.phase.symm ▸ hb) hs.latched

section
variable {h m : Sel} {s : State}

theorem exec_signCheck (hs : Running (.sm2Sign h m) .check s) : exec (.sm2Sign h m) s = .next (signCheck s) :=
  (exec_sign hs (by decide)).trans (by rw [signPhase, hs.phase])

theorem exec_signDraw (hs : Running (.sm2Sign h m) .sDraw s) : exec (.sm2Sign h m) s = .next (signDraw s) :=
  (exec_sign hs (by decide)).trans (by rw [signPhase, hs.phase])

theorem exec_signMulg (hs : Running (.sm2Sign h m) .sMulg s) : exec (.sm2Sign h m) s = .next (signMulg s) :=
  (exec_sign hs (by decide)).trans (by rw [signPhase, hs.phase])

theorem exec_signRs (hs : Running (.sm2Sign h m) .sRs s) : exec (.sm2Sign h m) s = .next (signRs s) :=
  (exec_sign hs (by decide)).trans (by rw [signPhase, hs.phase])

end

/-! ### CHECK and S_DRAW -/

/-- Settles O20, by the cases of CHECK. -/
theorem signCheckOutcome : Obligations.SignCheckOutcome := by
  intro h m s hs
  rw [exec_signCheck hs]
  rcases signCheck_cases s with ⟨hlong, hend⟩ | ⟨hfits, hcases⟩
  · rw [hend]
    exact ⟨fun _ => ⟨_, rfl, signFinish_fails hs.consistent rfl (by decide)⟩, fun hfits => absurd hlong hfits.not_gt⟩
  refine ⟨fun hlong => absurd hlong hfits.not_gt, fun _ => ?_⟩
  rcases hcases with ⟨hfault, hend⟩ | ⟨hok, hpos, hle, hend⟩ | ⟨hok, hkey, hend⟩ <;> rw [hend]
  · exact ⟨fun _ => ⟨_, rfl, signFinish_fails hs.consistent rfl (by decide)⟩, fun hok => by simp [hfault] at hok⟩
  · refine ⟨fun hbad => ?_, fun _ _ _ => rfl⟩
    rcases hbad with hfault | hkey
    · simp [hok] at hfault
    · omega
  · exact ⟨fun _ => ⟨_, rfl, signFinish_fails hs.consistent rfl (by decide)⟩,
      fun _ hpos hle => absurd ⟨hpos, hle⟩ hkey⟩

/-- The next scripted draw is the answer, and the others stay scripted (assumption log 6). -/
theorem drawRange_scripted {d : Draws} {k : Nat} {ks : List Nat} (h : d.ranges = k :: ks) :
    drawRange d = (k, { d with ranges := ks }) := by simp [drawRange, h]

theorem drawn_ranges (s : State) : s.drawn.draws.ranges = s.draws.ranges := by
  simp only [State.drawn_draws, drawFail]
  split <;> rfl

/-- Settles O21, by the cases of S_DRAW. -/
theorem signDrawOutcome : Obligations.SignDrawOutcome := by
  intro h m s hs
  have signing : s.phase.signing = true := by simp [hs.phase, Phase.signing]
  obtain ⟨hk, -⟩ := hs.inFlight.sign_regs signing
  rw [exec_signDraw hs]
  rcases signDraw_cases s with ⟨hfault, hend⟩ | ⟨hok, k, d, hdraw, hcases⟩
  · rw [hend]
    exact ⟨fun _ => ⟨_, rfl, signFinish_fails hs.consistent rfl (by decide)⟩, fun hok => by simp [hfault] at hok⟩
  refine ⟨fun hfault => by simp [hfault] at hok, fun _ => ⟨k, d, fun k' ks hranges => ?_, ?_⟩⟩
  · rw [drawRange_scripted ((drawn_ranges s).trans hranges)] at hdraw
    exact Prod.mk.inj hdraw
  rcases hcases with ⟨hlarge, hend⟩ | ⟨hlt, hzero, hend⟩ | ⟨hlt, hpos, hend⟩ <;> rw [hend]
  · exact ⟨fun _ => ⟨_, rfl, signFinish_fails hs.consistent rfl (by decide)⟩, fun _ => by omega, fun _ _ => by omega⟩
  · exact ⟨fun _ => by omega, fun _ => by rw [State.goto, ← hs.phase]; rfl, fun _ _ => by omega⟩
  · exact ⟨fun _ => by omega, fun _ => by omega, fun _ _ => rfl⟩

/-! ### S_MULG -/

/-- Every multiple from 1 to n - 1 is a point (R4). -/
theorem multipleOfG_isSome {c : Curve} {k : Nat} (hpos : 1 ≤ k) (hlt : k < c.order) : ∃ q, multipleOfG c k = some q := by
  obtain ⟨j, rfl⟩ := Nat.exists_eq_add_of_le' hpos
  have hj : j < c.points.length := by rw [Curve.order] at hlt; omega
  exact ⟨c.points[j], List.getElem?_eq_getElem hj⟩

theorem ecMulG_of_point {c : Curve} {k : Nat} {q : Nat × Nat} (h : multipleOfG c k = some q) :
    ecMulG c k = some q.1 := by rw [ecMulG, h]; rfl

theorem Running.order {i : Instr} {p : Phase} {s : State} (hs : Running i p s)
    (hp : p.signing = true ∨ p.verifying = true) : s.w.n = s.cfg.curve.order :=
  (hs.inFlight.sm2 (hs.phase.symm ▸ hp)).1

/-- Settles O22: the nonce is between 1 and n - 1, so its multiple of G is a point. -/
theorem signMulgOutcome : Obligations.SignMulgOutcome := by
  intro h m s hs
  obtain ⟨hk, -⟩ := hs.inFlight.sign_regs (by simp [hs.phase, Phase.signing])
  rw [hs.order (.inl rfl)] at hk
  obtain ⟨q, hq⟩ := multipleOfG_isSome (hs.inFlight.sign_nonce (.inl hs.phase)) hk
  rw [exec_signMulg hs]
  rcases signMulg_cases s with ⟨hfault, hend⟩ | ⟨hok, x1, hx1, hend⟩ <;> rw [hend]
  · refine ⟨fun _ => ⟨_, rfl, signFinish_fails hs.consistent rfl (by decide)⟩, fun hok => ?_⟩
    simp [hok, ecMulG_of_point hq] at hfault
  · rw [ecMulG_of_point hq, Option.some_inj] at hx1
    subst hx1
    exact ⟨fun hfault => by simp [hfault] at hok, fun _ => ⟨q, hq, rfl⟩⟩

/-! ### S_RS: s and its inverse (R8, R71) -/

theorem modInv_some {a n x : Nat} (h : modInv a n = some x) : x < n ∧ a * x % n = 1 :=
  ⟨List.mem_range.1 (List.mem_of_find?_eq_some h), by simpa using List.find?_some h⟩

theorem modInv_isSome {a n : Nat} (hn : 1 < n) (h : a.Coprime n) : ∃ x, modInv a n = some x := by
  obtain ⟨x, hx, hmod⟩ := Nat.exists_mul_mod_eq_one_of_coprime h hn
  refine Option.isSome_iff_exists.1 (List.find?_isSome.2 ⟨x, List.mem_range.2 hx, ?_⟩)
  simpa using hmod

theorem signS_eq (n dA k r : Nat) :
    signS n dA k r = (modInv (1 + dA) n).map fun inv : Nat =>
      ((inv : Int) * ((k : Int) - (r : Int) * (dA : Int)) % (n : Int)).toNat := by
  unfold signS
  cases modInv (1 + dA) n <;> rfl

theorem isSigS_of_signS {n dA k r sv : Nat} (h : signS n dA k r = some sv) : IsSigS n dA k r sv := by
  rw [signS_eq] at h
  obtain ⟨inv, hinv, rfl⟩ := Option.map_eq_some_iff.1 h
  obtain ⟨hlt, hmod⟩ := modInv_some hinv
  have hpos : 1 ≤ inv := Nat.pos_of_ne_zero fun h0 => by simp [h0] at hmod
  exact ⟨inv, hpos, hlt, hmod, Int.toNat_of_nonneg (Int.emod_nonneg _ (by omega))⟩

/-- 1 + dA has an inverse modulo the prime n for every dA in [1, n - 2], so the line of s answers (assumption
log 10). -/
theorem signS_isSome {n dA : Nat} (hn : n.Prime) (hle : dA + 2 ≤ n) (k r : Nat) : ∃ sv, signS n dA k r = some sv := by
  have hcoprime : (1 + dA).Coprime n :=
    ((hn.coprime_iff_not_dvd).2 (Nat.not_dvd_of_pos_of_lt (by omega) (by omega))).symm
  obtain ⟨inv, hinv⟩ := modInv_isSome hn.one_lt hcoprime
  exact ⟨_, by rw [signS_eq, hinv]; rfl⟩

theorem IsSigS.lt {n dA k r sv : Nat} (h : IsSigS n dA k r sv) : sv < n := by
  obtain ⟨inv, -, hlt, -, hsv⟩ := h
  have := Int.emod_lt_of_pos ((inv : Int) * ((k : Int) - (r : Int) * (dA : Int))) (b := n) (by omega)
  omega

theorem IsSigS.exists_inverse {n dA k r sv : Nat} (h : IsSigS n dA k r sv) :
    ∃ inv : ZMod n, (1 + dA) * inv = 1 ∧ sv = inv * (k - r * dA) := by
  obtain ⟨inv, -, -, hinv, hsv⟩ := h
  have hone := congrArg (Nat.cast : Nat → ZMod n) hinv
  have hmul := congrArg (Int.cast : Int → ZMod n) hsv
  exact ⟨inv, by simpa using hone, by simpa using hmul⟩

/-- (1 + dA) · s = k - r · dA modulo n (R71). -/
theorem IsSigS.equation {n dA k r sv : Nat} (h : IsSigS n dA k r sv) :
    ((1 + dA) * sv : ZMod n) = k - r * dA := by
  obtain ⟨inv, hone, hsv⟩ := h.exists_inverse
  linear_combination (k - r * dA : ZMod n) * hone + (1 + dA : ZMod n) * hsv

/-- A signing attempt has one s. -/
theorem IsSigS.unique {n dA k r a b : Nat} (ha : IsSigS n dA k r a) (hb : IsSigS n dA k r b) : a = b := by
  obtain ⟨inv, hone, hinv⟩ := ha.exists_inverse
  obtain ⟨inv', hone', hinv'⟩ := hb.exists_inverse
  have heq : (a : ZMod n) = b := by
    linear_combination hinv - hinv' + (k - r * dA : ZMod n) * (inv' * hone - inv * hone')
  rwa [ZMod.natCast_eq_natCast_iff', Nat.mod_eq_of_lt ha.lt, Nat.mod_eq_of_lt hb.lt] at heq

/-- Every residue modulo n fits a scalar window (R4). -/
theorem lt_window {cfg : Params} (hc : cfg.WellFormed) {v : Nat} (h : v < cfg.curve.order) : v < 256 ^ cfg.sb :=
  h.trans hc.order_lt

/-- A completed SM2_SIGN: the common outcome, and the signature in R and S (R72, R115). -/
theorem signFinish_signs {s u : State} (hs : s.Consistent) (worked : WorkedFrom s u)
    (hr : u.w.r < s.cfg.curve.order) (hsv : u.w.s < s.cfg.curve.order) :
    Completes s (signFinish .ok u) .ok ∧ WritesSignature s (signFinish .ok u) u.w.r u.w.s ∧
      (signFinish .ok u).signIter = u.signIter ∧ (signFinish .ok u).draws = u.draws := by
  have hc := worked.cfg_wf hs
  rw [← worked.control.cfg] at hr hsv
  exact ⟨signFinish_completes .ok worked.control,
    signFinish_writes_ok hc (worked.mem_wf hs) worked.control.cfg worked.mem (by rw [worked]) (lt_window hc hr)
      (lt_window hc hsv),
    signFinish_signIter .., signFinish_draws ..⟩

/-- Settles O23, by the cases of S_RS. -/
theorem signRsOutcome : Obligations.SignRsOutcome := by
  rintro h m s hs r rfl
  have signing : s.phase.signing = true := by simp [hs.phase, Phase.signing]
  have hn := hs.order (.inl rfl)
  have hprime : s.w.n.Prime := hn ▸ hs.consistent.cfg_wf.order_prime
  obtain ⟨-, hle⟩ := hs.inFlight.sign_key signing
  rw [exec_signRs hs]
  rcases signRs_cases s with ⟨hfault, hend⟩ | ⟨hok, r, rfl, hcases⟩
  · rw [hend]
    exact ⟨fun _ => ⟨_, rfl, signFinish_fails hs.consistent rfl (by decide)⟩, fun hok => by simp [hfault] at hok⟩
  have hr : (s.w.e + s.w.x1) % s.w.n < s.w.n := Nat.mod_lt _ hprime.pos
  generalize (s.w.e + s.w.x1) % s.w.n = r at hr hcases ⊢
  refine ⟨fun hfault => by simp [hfault] at hok, fun _ => ?_⟩
  rcases hcases with ⟨hrej, hend⟩ | ⟨hr0, hrk, hcases⟩
  · rw [hend]
    exact ⟨fun _ => rfl, fun hr0 hrk => absurd hrej (not_or.2 ⟨hr0, hrk⟩)⟩
  refine ⟨fun hrej => absurd hrej (not_or.2 ⟨hr0, hrk⟩), fun _ _ => ?_⟩
  rcases hcases with ⟨hfault, hend⟩ | ⟨hok', sv, hsv, hcases⟩
  · rw [hend]
    refine ⟨fun _ => ⟨_, rfl, signFinish_fails hs.consistent rfl (by decide)⟩, fun hok' => ?_⟩
    obtain ⟨sv, hsv⟩ := signS_isSome hprime hle s.w.k r
    simp [hok', hsv] at hfault
  refine ⟨fun hfault => by simp [hfault] at hok', fun _ => ⟨sv, isSigS_of_signS hsv, ?_⟩⟩
  rcases hcases with ⟨hzero, hend⟩ | ⟨hpos, hend⟩ <;> rw [hend]
  · exact ⟨fun _ => rfl, fun hpos => absurd hzero hpos⟩
  · exact ⟨fun hzero => absurd hzero hpos,
      fun _ => ⟨_, rfl, signFinish_signs hs.consistent rfl (hn ▸ hr) (hn ▸ signS_lt hprime.pos hsv)⟩⟩

/-! ### The signature of a completed SM2_SIGN (R73) -/

/-- An S_RS step that completes with OK leaves the signature of its nonce. -/
theorem signRs_completed {h m : Sel} {s t : State} (hs : Running (.sm2Sign h m) .sRs s)
    (hexec : exec (.sm2Sign h m) s = .next t) (hidle : t.phase = .idle) (hok : t.err = .ok) :
    ∃ r sv, r = (s.w.e + s.w.x1) % s.w.n ∧ r ≠ 0 ∧ r + s.w.k ≠ s.w.n ∧
      IsSigS s.w.n (scalar s .da) s.w.k r sv ∧ sv ≠ 0 ∧ WritesSignature s t r sv := by
  rw [exec_signRs hs] at hexec
  cases hexec
  have hn := hs.order (.inl rfl)
  have hprime := hs.consistent.cfg_wf.order_prime
  rcases signRs_cases s with ⟨-, hend⟩ | ⟨-, r, hr, ⟨-, hend⟩ | ⟨hr0, hrk, hcases⟩⟩
  · simp [hend] at hok
  · simp [hend] at hidle
  rcases hcases with ⟨-, hend⟩ | ⟨-, sv, hsv, ⟨-, hend⟩ | ⟨hpos, hend⟩⟩
  · simp [hend] at hok
  · simp [hend] at hidle
  · have hsig := isSigS_of_signS hsv
    have hlt : r < s.w.n := hr ▸ Nat.mod_lt _ (hn ▸ hprime.pos)
    obtain ⟨-, hwrites, -⟩ := signFinish_signs (u := s.drawn.drawn.setW { s.w with r := r, s := sv }) hs.consistent rfl
      (hn ▸ hlt) (hn ▸ hsig.lt)
    exact ⟨r, sv, hr, hr0, hrk, hsig, hpos, hend ▸ hwrites⟩

theorem sRs_of_ok_possible {h m : Sel} {p : Phase} (hok : .ok ∈ possibleCodes (.sm2Sign h m) p) : p = .sRs := by
  cases p with
  | sRs => rfl
  | _ => simp [possibleCodes] at hok

/-- Settles O24: only S_RS completes with OK, and it has rejected r = 0, s = 0 and r + k = n. -/
theorem signatureIsInRange : Obligations.SignatureIsInRange := by
  intro h m p s t hs hbusy hexec hidle hok
  obtain ⟨hcode, -⟩ := completionCodes _ p s t hs hbusy hexec hidle
  obtain rfl := sRs_of_ok_possible (hok ▸ hcode)
  obtain ⟨r, sv, hr, hr0, hrk, hsig, hpos, hwrites⟩ := signRs_completed hs hexec hidle hok
  have hprime := hs.consistent.cfg_wf.order_prime
  rw [hs.order (.inl rfl)] at hr hrk hsig
  have hlt : r < s.cfg.curve.order := hr ▸ Nat.mod_lt _ hprime.pos
  have hslt := hsig.lt
  rw [hwrites.sigR, hwrites.sigS]
  omega

end Sys2Proof.Machine

/-! PROOF. Whole runs of SM2_SIGN: rejected draws keep the loop running, and an accepted nonce completes the signature
(spec/40_sm2_sign.md R74, R75). -/

namespace Sys2Proof.Machine

open Sys2Proof.Config

/-! ### Runs of a BUSY block that has not completed -/

/-- After k steps, BUSY before each of them, the command runs its phase p: SIGN_ITER and the draws are these, and only
the working registers may differ besides (R116). -/
structure Reaches (k : Nat) (p : Phase) (iter : Word) (d : Draws) (s t : State) : Prop where
  run : steps k s = .next t
  busy : BusyThrough k s
  state : ∃ w, t = { s with phase := p, w := w, signIter := iter, draws := d }

theorem Reaches.zero (s : State) : Reaches 0 s.phase s.signIter s.draws s s := ⟨rfl, .zero s, s.w, rfl⟩

theorem Reaches.trans {a b : Nat} {p q : Phase} {i j : Word} {d e : Draws} {s t u : State} (h : Reaches a p i d s t)
    (h' : Reaches b q j e t u) : Reaches (a + b) q j e s u := by
  refine ⟨(steps_add h.run b).trans h'.run, h.busy.add h.run h'.busy, ?_⟩
  obtain ⟨_, rfl⟩ := h.state
  obtain ⟨w, rfl⟩ := h'.state
  exact ⟨w, rfl⟩

theorem steps_keep_invariants {k : Nat} {s t : State} (hc : s.Consistent) (hw : s.InFlight)
    (h : steps k s = .next t) : t.Consistent ∧ t.InFlight := by
  induction k generalizing s with
  | zero => cases h; exact ⟨hc, hw⟩
  | succ k ih =>
    cases hstep : step s with
    | next u =>
      rw [steps_succ hstep] at h
      exact ih (stepKeepsConsistent s u hc hstep) (stepKeepsInFlight s u hc hw hstep) h
    | fault | refused => simp [steps, hstep] at h

section
variable {i : Instr} {p q : Phase} {s : State} (hs : Running i p s) (hb : p ≠ .idle) (hq : s.inputs = [])
include hs

theorem Running.reached {k : Nat} {iter : Word} {d : Draws} {t : State} (h : Reaches k q iter d s t) :
    Running i q t := by
  obtain ⟨hc, hw⟩ := steps_keep_invariants hs.consistent hs.inFlight h.run
  obtain ⟨w, rfl⟩ := h.state
  exact ⟨hc, hw, hs.latched, rfl⟩

include hb

theorem Running.busy : s.phase ≠ .idle := hs.phase.symm ▸ hb

include hq

theorem Running.step_eq : step s = exec i s := step_busy hq (hs.busy hb) hs.latched

theorem Running.reaches_next {w : Working} {iter : Word} {d : Draws}
    (h : exec i s = .next { s with phase := q, w := w, signIter := iter, draws := d }) :
    Reaches 1 q iter d s { s with phase := q, w := w, signIter := iter, draws := d } :=
  ⟨steps_one ((hs.step_eq hb hq).trans h), .one (hs.busy hb), w, rfl⟩

end

section
variable {k : Nat} {p : Phase} {iter : Word} {d : Draws} {s t : State} (h : Reaches k p iter d s t)
include h

theorem Reaches.cfg : t.cfg = s.cfg := by obtain ⟨w, rfl⟩ := h.state; rfl
theorem Reaches.inputs : t.inputs = s.inputs := by obtain ⟨w, rfl⟩ := h.state; rfl
theorem Reaches.signIter : t.signIter = iter := by obtain ⟨w, rfl⟩ := h.state; rfl
theorem Reaches.draws : t.draws = d := by obtain ⟨w, rfl⟩ := h.state; rfl
theorem Reaches.scalar (win : Win) : scalar t win = scalar s win := by obtain ⟨w, rfl⟩ := h.state; rfl

theorem Reaches.order {i : Instr} (ht : Running i p t) (hp : p.signing = true ∨ p.verifying = true := by decide) :
    t.w.n = s.cfg.curve.order := (ht.order hp).trans (by rw [h.cfg])

theorem Reaches.sigR {x r : Nat} (hr : IsSigR s x r) : IsSigR t x r := by obtain ⟨w, rfl⟩ := h.state; exact hr

theorem Reaches.rejected {x : Nat} (hx : Rejected s x) : Rejected t x := by obtain ⟨w, rfl⟩ := h.state; exact hx

theorem Reaches.completes {u : State} {code : ErrCode} (hu : Completes t u code) : Completes s u code := by
  obtain ⟨w, rfl⟩ := h.state
  exact { hu with control := { hu.control with } }

theorem Reaches.signature {u : State} {r sv : Nat} (hu : WritesSignature t u r sv) : WritesSignature s u r sv := by
  obtain ⟨w, rfl⟩ := h.state
  exact { hu with }

end

/-! ### Scripted failures (assumption log 6) -/

theorem callFails_scripted {s : State} {b : Bool} {fs : List Bool} (h : s.draws.fails = b :: fs) :
    s.callFails = b := by simp [State.callFails, drawFail, h]

theorem drawn_scripted {s : State} {b : Bool} {fs : List Bool} (h : s.draws.fails = b :: fs) :
    s.drawn.draws = { s.draws with fails := fs } := by simp [drawFail, h]

theorem noFail_add {a b : Nat} {rest : List Bool} {s : State} :
    NoFail (a + b) rest s ↔ NoFail a (List.replicate b false ++ rest) s := by
  rw [NoFail, NoFail, List.replicate_add, List.append_assoc]

theorem replicate_append_left_comm {α : Type} (a b : Nat) (x : α) (l : List α) :
    List.replicate a x ++ (List.replicate b x ++ l) = List.replicate b x ++ (List.replicate a x ++ l) := by
  rw [← List.append_assoc, ← List.append_assoc, ← List.replicate_add, ← List.replicate_add, Nat.add_comm]

/-! ### One draw -/

section
variable {h m : Sel} {s : State} {k : Nat} {ks : List Nat}

/-- A scripted S_DRAW: its answer is the next integer of the script. -/
theorem signDraw_scripted {fs : List Bool} (hs : Running (.sm2Sign h m) .sDraw s) (hranges : s.draws.ranges = k :: ks)
    (hfails : s.draws.fails = false :: fs) {d : Draws} (hd : d = { s.draws with ranges := ks, fails := fs }) :
    (k = 0 → exec (.sm2Sign h m) s = .next { s with phase := .sDraw, signIter := s.signIter + 1, draws := d }) ∧
      (1 ≤ k → k < s.cfg.curve.order → exec (.sm2Sign h m) s = .next { s with
        phase := .sMulg, w := { s.w with k := k }, signIter := s.signIter + 1, draws := d }) := by
  obtain ⟨-, hanswer⟩ := signDrawOutcome h m s hs
  obtain ⟨k', d', hscript, -, hzero, hnonce⟩ := hanswer (callFails_scripted hfails)
  obtain ⟨rfl, rfl⟩ := hscript k ks hranges
  rw [drawn_scripted hfails, ← hd] at hzero hnonce
  rw [← hs.order (.inl rfl), ← hs.phase]
  exact ⟨hzero, hnonce⟩

theorem IsSigR.nonce_pos {x r : Nat} (hr : IsSigR s x r) : 1 ≤ x := by
  obtain ⟨q, hq, -⟩ := hr
  exact Nat.pos_of_ne_zero fun h0 => by simp [h0, multipleOfG] at hq

/-- A nonce in range takes two steps to S_RS, which then finds its r. -/
theorem nonce_reaches_sRs {r : Nat} {fs : List Bool} (hs : Running (.sm2Sign h m) .sDraw s) (hq : s.inputs = [])
    (hr : IsSigR s k r) (hlt : k < s.cfg.curve.order) (hranges : s.draws.ranges = k :: ks)
    (hfails : s.draws.fails = false :: false :: fs) :
    ∃ u, Reaches 2 .sRs (s.signIter + 1) { s.draws with ranges := ks, fails := fs } s u ∧
      Running (.sm2Sign h m) .sRs u ∧ u.w.k = k ∧ r = (u.w.e + u.w.x1) % u.w.n := by
  obtain ⟨-, hdraw⟩ := signDraw_scripted hs hranges hfails rfl
  have toMulg := hs.reaches_next (by decide) hq (hdraw hr.nonce_pos hlt)
  have hmulg := hs.reached toMulg
  obtain ⟨-, hpoint⟩ := signMulgOutcome h m _ hmulg
  obtain ⟨q, hpoint, hexec⟩ := hpoint (callFails_scripted rfl)
  rw [drawn_scripted rfl] at hexec
  have toRs := hmulg.reaches_next (by decide) hq hexec
  have hrs := hmulg.reached toRs
  refine ⟨_, toMulg.trans toRs, hrs, rfl, ?_⟩
  obtain ⟨q', hpoint', rfl⟩ := hr
  obtain ⟨hn, he, -⟩ := hrs.inFlight.sm2 (.inl rfl)
  rw [hn, he, Option.some.inj (hpoint'.symm.trans hpoint)]
  rfl

/-- S_RS rejects a signature, by r after one call or by s after two. -/
theorem signRs_redraws {r sv : Nat} {rest : List Bool} (hs : Running (.sm2Sign h m) .sRs s)
    (hr : r = (s.w.e + s.w.x1) % s.w.n) (hsv : IsSigS s.w.n (scalar s .da) s.w.k r sv)
    (hrej : r = 0 ∨ r + s.w.k = s.w.n ∨ sv = 0) (hfails : s.draws.fails = false :: false :: rest) :
    ∃ w used, used ≤ 2 ∧ exec (.sm2Sign h m) s = .next { s with
      phase := .sDraw, w := w, draws := { s.draws with fails := List.replicate (2 - used) false ++ rest } } := by
  have hdrawn := drawn_scripted hfails
  have hfails' : s.drawn.draws.fails = false :: rest := by rw [hdrawn]
  obtain ⟨-, hline⟩ := signRsOutcome h m s hs r hr
  obtain ⟨hreject_r, hsecond⟩ := hline (callFails_scripted hfails)
  rw [hdrawn] at hreject_r
  rcases or_assoc.2 hrej with hrej | rfl
  · exact ⟨_, 1, by decide, hreject_r hrej⟩
  by_cases hrej : r = 0 ∨ r + s.w.k = s.w.n
  · exact ⟨_, 1, by decide, hreject_r hrej⟩
  obtain ⟨hr0, hrk⟩ := not_or.1 hrej
  obtain ⟨-, hanswer⟩ := hsecond hr0 hrk
  obtain ⟨sv, hsv', hreject_s, -⟩ := hanswer (callFails_scripted hfails')
  rw [drawn_scripted hfails', hdrawn] at hreject_s
  exact ⟨_, 2, by decide, hreject_s (hsv'.unique hsv)⟩

/-- S_RS completes with a signature that it does not reject. -/
theorem signRs_accepts {r sv : Nat} {rest : List Bool} (hs : Running (.sm2Sign h m) .sRs s)
    (hr : r = (s.w.e + s.w.x1) % s.w.n) (hsv : IsSigS s.w.n (scalar s .da) s.w.k r sv) (hr0 : r ≠ 0)
    (hrk : r + s.w.k ≠ s.w.n) (hpos : sv ≠ 0) (hfails : s.draws.fails = false :: false :: rest) :
    ∃ t, exec (.sm2Sign h m) s = .next t ∧ Completes s t .ok ∧ WritesSignature s t r sv ∧
      t.signIter = s.signIter ∧ t.draws.ranges = s.draws.ranges := by
  have hfails' : s.drawn.draws.fails = false :: rest := by rw [drawn_scripted hfails]
  obtain ⟨-, hline⟩ := signRsOutcome h m s hs r hr
  obtain ⟨-, hsecond⟩ := hline (callFails_scripted hfails)
  obtain ⟨-, hanswer⟩ := hsecond hr0 hrk
  obtain ⟨sv', hsv', -, hsign⟩ := hanswer (callFails_scripted hfails')
  obtain rfl := hsv.unique hsv'
  obtain ⟨t, hexec, hdone, hwrites, hiter, hdraws⟩ := hsign hpos
  exact ⟨t, hexec, hdone, hwrites, hiter, by rw [hdraws, drawn_ranges, drawn_ranges]⟩

/-- A rejected draw leads back to S_DRAW, in one step or three, with at most four calls. -/
theorem rejected_reaches_sDraw {rest : List Bool} (hs : Running (.sm2Sign h m) .sDraw s) (hq : s.inputs = [])
    (hk : Rejected s k) (hranges : s.draws.ranges = k :: ks) (hfails : NoFail 4 rest s) :
    ∃ t used, used ≤ 4 ∧ Reaches (drawSteps k) .sDraw (s.signIter + 1)
      { s.draws with ranges := ks, fails := List.replicate (4 - used) false ++ rest } s t := by
  rcases hk with rfl | ⟨hlt, r, sv, hr, hsv, hrej⟩
  · obtain ⟨hzero, -⟩ := signDraw_scripted hs hranges hfails rfl
    exact ⟨_, 1, by decide, hs.reaches_next (by decide) hq (hzero rfl)⟩
  obtain ⟨u, toRs, hu, rfl, hru⟩ := nonce_reaches_sRs hs hq hr hlt hranges hfails
  have hsteps : drawSteps u.w.k = 2 + 1 := if_neg (Nat.ne_of_gt hr.nonce_pos)
  rw [← toRs.order hu, ← toRs.scalar] at hsv
  rw [← toRs.order hu] at hrej
  obtain ⟨w, used, hused, hexec⟩ := signRs_redraws hu hru hsv hrej (by rw [toRs.draws]; rfl)
  have back := toRs.trans (hu.reaches_next (by decide) (toRs.inputs.trans hq) hexec)
  rw [toRs.signIter, toRs.draws, ← hsteps] at back
  exact ⟨_, 2 + used, by omega, by rwa [Nat.sub_add_eq]⟩

end

/-! ### Any number of draws -/

theorem rejected_list_reaches_sDraw {h m : Sel} {ks more : List Nat} {s : State} {rest : List Bool}
    (hs : Running (.sm2Sign h m) .sDraw s) (hq : s.inputs = []) (hks : ∀ k ∈ ks, Rejected s k)
    (hranges : s.draws.ranges = ks ++ more) (hfails : NoFail (4 * ks.length) rest s) :
    ∃ t used, used ≤ 4 * ks.length ∧
      Reaches (ks.map drawSteps).sum .sDraw (s.signIter + BitVec.ofNat 32 ks.length)
        { s.draws with ranges := more, fails := List.replicate (4 * ks.length - used) false ++ rest } s t := by
  induction ks generalizing s rest with
  | nil =>
    obtain rfl : s.draws.ranges = more := hranges
    obtain rfl : s.draws.fails = rest := hfails
    have here := Reaches.zero s
    rw [hs.phase, ← BitVec.add_zero s.signIter] at here
    exact ⟨s, 0, Nat.le_refl _, here⟩
  | cons k ks ih =>
    obtain ⟨hk, hks⟩ := List.forall_mem_cons.1 hks
    rw [List.length_cons, Nat.mul_succ, Nat.add_comm, noFail_add] at hfails
    obtain ⟨t, used, hused, first⟩ := rejected_reaches_sDraw hs hq hk hranges hfails
    have hfails' : NoFail (4 * ks.length) (List.replicate (4 - used) false ++ rest) t := by
      rw [NoFail, first.draws, replicate_append_left_comm]
    obtain ⟨u, used', hused', others⟩ := ih (hs.reached first) (first.inputs.trans hq)
      (fun k' hk' => first.rejected (hks k' hk')) (by rw [first.draws]; rfl) hfails'
    have hcalls : 4 * (k :: ks).length - (used + used') = 4 * ks.length - used' + (4 - used) := by
      rw [List.length_cons]; omega
    have hcount : BitVec.ofNat 32 (k :: ks).length = 1 + BitVec.ofNat 32 ks.length := by
      rw [List.length_cons, Nat.add_comm, BitVec.ofNat_add]; rfl
    have all := first.trans others
    rw [first.draws, first.signIter, BitVec.add_assoc] at all
    refine ⟨u, used + used', by rw [List.length_cons]; omega, ?_⟩
    rw [hcalls, hcount, List.map_cons, List.sum_cons, List.replicate_add, List.append_assoc]
    exact all

/-- Settles O25, by induction over the draws. -/
theorem rejectedDrawsKeepSigning : Obligations.RejectedDrawsKeepSigning := by
  intro h m s ks more rest hs hq hks hranges hfails
  obtain ⟨t, used, hused, all⟩ := rejected_list_reaches_sDraw hs hq hks hranges hfails
  have ht := hs.reached all
  refine ⟨all.busy.add all.run (.one (ht.busy (by decide))), t, used, all.run, ht, ?_⟩
  obtain ⟨w, rfl⟩ := all.state
  exact ⟨⟨rfl, rfl, rfl, rfl, rfl, rfl, rfl, rfl, rfl, rfl⟩, rfl, rfl, rfl, rfl, rfl, rfl, hused, rfl⟩

/-! ### From CHECK to the signature -/

/-- A CHECK that passes, with a scripted EcOrder. -/
theorem signCheck_reaches_sDraw {h m : Sel} {s : State} {fs : List Bool} (hs : Running (.sm2Sign h m) .check s)
    (hq : s.inputs = []) (hlen : s.eLen.toNat ≤ s.cfg.emax) (hpos : 1 ≤ scalar s .da)
    (hle : scalar s .da + 2 ≤ s.cfg.curve.order) (hfails : s.draws.fails = false :: fs) :
    ∃ t, Reaches 1 .sDraw s.signIter { s.draws with fails := fs } s t := by
  obtain ⟨-, hcheck⟩ := signCheckOutcome h m s hs
  obtain ⟨-, hpass⟩ := hcheck hlen
  have hexec := hpass (callFails_scripted hfails) hpos hle
  rw [drawn_scripted hfails] at hexec
  exact ⟨_, hs.reaches_next (by decide) hq hexec⟩

/-- Settles O26: CHECK, the rejected draws, and the three steps of the accepted nonce. -/
theorem signRunsToItsSignature : Obligations.SignRunsToItsSignature := by
  intro h m s ks more k r sv rest hs hq hlen hpos hle hks hk1 hk hr hsv hr0 hrk hsv0 hranges hfails
  rw [Nat.add_comm, show 5 = 1 + 4 from rfl, Nat.add_assoc, noFail_add] at hfails
  obtain ⟨t, toDraw⟩ := signCheck_reaches_sDraw hs hq hlen hpos hle hfails
  have hfails_t : NoFail (4 * ks.length) (List.replicate 4 false ++ rest) t := by
    rw [NoFail, toDraw.draws, replicate_append_left_comm, ← List.append_assoc, ← List.replicate_add]
    rfl
  obtain ⟨u, used, -, rejects⟩ := rejected_list_reaches_sDraw (hs.reached toDraw) (toDraw.inputs.trans hq)
    (fun k' hk' => toDraw.rejected (hks k' hk')) (by rw [toDraw.draws]; exact hranges) hfails_t
  have before := toDraw.trans rejects
  obtain ⟨v, toRs, hv, rfl, hrv⟩ := nonce_reaches_sRs (hs.reached before) (before.inputs.trans hq) (before.sigR hr)
    (before.cfg ▸ hk) (by rw [before.draws])
    (by rw [before.draws, replicate_append_left_comm (4 * ks.length - used) 4]; rfl)
  have all := before.trans toRs
  rw [← all.order hv, ← all.scalar] at hsv
  rw [← all.order hv] at hrk
  obtain ⟨t', hexec, hdone, hwrites, hiter, hmore⟩ := signRs_accepts hv hrv hsv hr0 hrk hsv0 (by rw [toRs.draws]; rfl)
  have last : steps 1 v = .next t' := steps_one ((hv.step_eq (by decide) (all.inputs.trans hq)).trans hexec)
  refine ⟨all.busy.add all.run (.one (hv.busy (by decide))), t', (steps_add all.run 1).trans last, all.completes hdone,
    all.signature hwrites, ?_, hmore.trans (by rw [all.draws])⟩
  rw [hiter, all.signIter, before.signIter, toDraw.signIter, BitVec.add_assoc, BitVec.ofNat_add]
  rfl

end Sys2Proof.Machine

/-! PROOF. A signature made by SM2_SIGN verifies (spec/40_sm2_sign.md R76): the steps of an accepting SM2_VERIFY, and the
arithmetic modulo n that ties its equation to the signature's. -/

namespace Sys2Proof.Machine

open Sys2Proof.Config

/-! ### An accepting SM2_VERIFY, step by step (R77) -/

/-- The operands in the windows are a signature that SM2_VERIFY accepts: in range, t ≠ 0, and the equation holds. -/
structure AcceptedSignature (s : State) : Prop where
  e_fits : s.eLen.toNat ≤ s.cfg.emax
  r_range : 1 ≤ scalar s .r ∧ scalar s .r < s.cfg.curve.order
  s_range : 1 ≤ scalar s .s ∧ scalar s .s < s.cfg.curve.order
  t_ne_zero : (scalar s .r + scalar s .s) % s.cfg.curve.order ≠ 0
  equation : ∃ x1, ecMul2 s.cfg.curve (scalar s .s) ((scalar s .r + scalar s .s) % s.cfg.curve.order)
      (scalar s .paX, scalar s .paY) = some (.affine x1) ∧ (scalarE s + x1) % s.cfg.curve.order = scalar s .r

theorem Reaches.acceptedSignature {k : Nat} {p : Phase} {iter : Word} {d : Draws} {s t : State}
    (h : Reaches k p iter d s t) (hs : AcceptedSignature s) : AcceptedSignature t := by
  obtain ⟨w, rfl⟩ := h.state
  exact { hs with }

theorem exec_verify {h m : Sel} {p : Phase} {s : State} (hs : Running (.sm2Verify h m) p s) (hb : p ≠ .idle) :
    exec (.sm2Verify h m) s = verifyPhase s := exec_latched (hs.busy hb) hs.latched

section
variable {h m : Sel} {s : State}

theorem exec_verifyCheck (hs : Running (.sm2Verify h m) .check s) : exec (.sm2Verify h m) s = .next (verifyCheck s) :=
  (exec_verify hs (by decide)).trans (by rw [verifyPhase, hs.phase])

theorem exec_verifyRange (hs : Running (.sm2Verify h m) .vRange s) : exec (.sm2Verify h m) s = .next (verifyRange s) :=
  (exec_verify hs (by decide)).trans (by rw [verifyPhase, hs.phase])

theorem exec_verifyMul (hs : Running (.sm2Verify h m) .vMul s) : exec (.sm2Verify h m) s = .next (verifyMul s) :=
  (exec_verify hs (by decide)).trans (by rw [verifyPhase, hs.phase])

theorem exec_verifyCmp (hs : Running (.sm2Verify h m) .vCmp s) : exec (.sm2Verify h m) s = .next (verifyCmp s) :=
  (exec_verify hs (by decide)).trans (by rw [verifyPhase, hs.phase])

end

/-- A step that makes one scripted call, stores its answer and goes on. -/
theorem Running.reaches_after_call {i : Instr} {p q : Phase} {s : State} {w : Working} {fs : List Bool}
    (hs : Running i p s) (hb : p ≠ .idle) (hq : s.inputs = []) (hfails : s.draws.fails = false :: fs)
    (hexec : exec i s = .next ((s.drawn.setW w).goto q)) :
    Reaches 1 q s.signIter { s.draws with fails := fs } s ((s.drawn.setW w).goto q) :=
  ⟨steps_one ((hs.step_eq hb hq).trans hexec), .one (hs.busy hb), w, by rw [← drawn_scripted hfails]; rfl⟩

section
variable {h m : Sel} {s : State} {fs : List Bool} (hsig : AcceptedSignature s) (hok : s.callFails = false)
include hsig hok

theorem verifyCheck_of_accepted : ∃ w, verifyCheck s = (s.drawn.setW w).goto .vRange := by
  have hfits := hsig.e_fits
  rcases verifyCheck_cases s with ⟨hlong, -⟩ | ⟨-, ⟨hfault, -⟩ | ⟨-, hend⟩⟩
  · omega
  · simp [hok] at hfault
  · exact ⟨_, hend⟩

theorem verifyRange_of_accepted (hs : Running (.sm2Verify h m) .vRange s) :
    ∃ w, verifyRange s = (s.drawn.setW w).goto .vMul := by
  obtain ⟨hr, hsv⟩ := hs.inFlight.verify_operands (by simp [hs.phase, Phase.verifying])
  have hn := hs.order (.inr rfl)
  have hrange : 1 ≤ s.w.r ∧ s.w.r < s.w.n ∧ 1 ≤ s.w.s ∧ s.w.s < s.w.n := by
    rw [hr, hsv, hn, ← and_assoc]
    exact ⟨hsig.r_range, hsig.s_range⟩
  rcases verifyRange_cases s with ⟨hbad, -⟩ | ⟨-, ⟨hfault, -⟩ | ⟨-, t, rfl, ⟨hzero, -⟩ | ⟨-, hend⟩⟩⟩
  · exact absurd hrange hbad
  · simp [hok] at hfault
  · rw [hr, hsv, hn] at hzero
    exact absurd hzero hsig.t_ne_zero
  · exact ⟨_, hend⟩

theorem verifyMul_of_accepted (hs : Running (.sm2Verify h m) .vMul s) :
    ∃ w, verifyMul s = (s.drawn.setW w).goto .vCmp := by
  obtain ⟨x1, hsum, -⟩ := hsig.equation
  obtain ⟨hr, hsv⟩ := hs.inFlight.verify_operands (by simp [hs.phase, Phase.verifying])
  obtain ⟨-, -, -, -, ht, -⟩ := hs.inFlight.verify_range (.inl hs.phase)
  rw [← hs.order (.inr rfl), ← hr, ← hsv, ← ht] at hsum
  rcases verifyMul_cases s with ⟨hfault, -⟩ | ⟨-, ⟨hinf, -⟩ | ⟨x1, -, hend⟩⟩
  · simp [hok, hsum] at hfault
  · simp [hsum] at hinf
  · exact ⟨_, hend⟩

theorem verifyCmp_of_accepted (hs : Running (.sm2Verify h m) .vCmp s) : verifyCmp s = verifyFinish .ok s.drawn := by
  obtain ⟨x1, hsum, heq⟩ := hsig.equation
  obtain ⟨hr, hsv⟩ := hs.inFlight.verify_operands (by simp [hs.phase, Phase.verifying])
  obtain ⟨-, -, -, -, ht, -⟩ := hs.inFlight.verify_range (.inr hs.phase)
  obtain ⟨hn, he, -⟩ := hs.inFlight.sm2 (.inr (by simp [hs.phase, Phase.verifying]))
  have hx1 := hs.inFlight.verify_sum hs.phase
  rw [hsv, ht, hn, hr, hsv, hsum] at hx1
  obtain rfl : x1 = s.w.x1 := by simpa using hx1
  rw [← hn, ← he, ← hr] at heq
  rcases verifyCmp_cases s with ⟨hfault, -⟩ | ⟨-, ⟨-, hend⟩ | ⟨hne, -⟩⟩
  · simp [hok] at hfault
  · exact hend
  · exact absurd heq hne

end

/-- SM2_VERIFY takes four steps to accept, when none of its four calls fails (R77, R83). -/
theorem accepted_completes {h m : Sel} {s : State} {rest : List Bool} (hs : Running (.sm2Verify h m) .check s)
    (hq : s.inputs = []) (hsig : AcceptedSignature s) (hfails : NoFail 4 rest s) :
    ∃ t, steps 4 s = .next t ∧ Completes s t .ok := by
  have hfails : s.draws.fails = false :: false :: false :: false :: rest := hfails
  obtain ⟨w, hend⟩ := verifyCheck_of_accepted hsig (callFails_scripted hfails)
  have toRange := hs.reaches_after_call (by decide) hq hfails (hend ▸ exec_verifyCheck hs)
  have hrange := hs.reached toRange
  obtain ⟨w, hend⟩ := verifyRange_of_accepted (toRange.acceptedSignature hsig)
    (callFails_scripted (by rw [toRange.draws])) hrange
  have toMul := toRange.trans (hrange.reaches_after_call (by decide) (toRange.inputs.trans hq) (by rw [toRange.draws])
    (hend ▸ exec_verifyRange hrange))
  have hmul := hs.reached toMul
  obtain ⟨w, hend⟩ := verifyMul_of_accepted (toMul.acceptedSignature hsig)
    (callFails_scripted (by rw [toMul.draws])) hmul
  have toCmp := toMul.trans (hmul.reaches_after_call (by decide) (toMul.inputs.trans hq) (by rw [toMul.draws])
    (hend ▸ exec_verifyMul hmul))
  have hcmp := hs.reached toCmp
  have hend := verifyCmp_of_accepted (toCmp.acceptedSignature hsig)
    (callFails_scripted (by rw [toCmp.draws])) hcmp
  have last := (hcmp.step_eq (by decide) (toCmp.inputs.trans hq)).trans (exec_verifyCmp hcmp)
  rw [hend] at last
  exact ⟨_, (steps_add toCmp.run 1).trans (steps_one last),
    toCmp.completes (verifyFinish_completes .ok (sameControl_drawn _))⟩

/-! ### The signature's equation is the verification's (R68, R77) -/

/-- dA is the discrete logarithm of dA · G: the multiples of G differ (R4). -/
theorem discreteLog_of_point {c : Curve} (hc : c.points.Nodup) {d : Nat} {q : Nat × Nat}
    (h : multipleOfG c d = some q) : discreteLog c q = some d := by
  cases d with
  | zero => simp [multipleOfG] at h
  | succ j =>
    obtain ⟨hj, rfl⟩ := List.getElem?_eq_some_iff.1 h
    have hidx : c.points.idxOf? c.points[j] = some j :=
      List.findIdx?_eq_some_iff_getElem.2 ⟨hj, beq_self_eq_true _, fun i hi => by
        simpa [hc.getElem_inj_iff] using hi.ne⟩
    rw [discreteLog, hidx]
    rfl

/-- r + s ≡ 0 would make r + k ≡ 0, as s = -r turns the signature's equation into r = -k. -/
theorem IsSigS.t_ne_zero {n dA k r sv : Nat} (h : IsSigS n dA k r sv) (hr0 : r ≠ 0) (hrn : r < n) (hkn : k < n)
    (hrk : r + k ≠ n) : (r + sv) % n ≠ 0 := by
  intro hzero
  have ht : ((r + sv : Nat) : ZMod n) = 0 := (ZMod.natCast_eq_zero_iff ..).2 (Nat.dvd_of_mod_eq_zero hzero)
  have hsum : ((r + k : Nat) : ZMod n) = 0 := by
    push_cast at ht ⊢
    linear_combination (1 + dA : ZMod n) * ht - h.equation
  exact hrk (Nat.eq_of_dvd_of_lt_two_mul (by omega) ((ZMod.natCast_eq_zero_iff ..).1 hsum) (by omega))

/-- s + t · dA ≡ k modulo n, for t = r + s: the sum of V_MUL is the nonce's multiple of G. -/
theorem IsSigS.nonce_eq {n dA k r sv : Nat} (h : IsSigS n dA k r sv) (hk : k < n) :
    (sv + (r + sv) % n * dA) % n = k := by
  have heq : ((sv + (r + sv) % n * dA : Nat) : ZMod n) = k := by
    push_cast
    rw [ZMod.natCast_mod]
    push_cast
    linear_combination h.equation
  rwa [ZMod.natCast_eq_natCast_iff', Nat.mod_eq_of_lt hk] at heq

theorem ecMul2_of_point {c : Curve} (hc : c.points.Nodup) {a t d x : Nat} {p : Nat × Nat}
    (hp : multipleOfG c d = some p) (hx : ecMulG c ((a + t * d) % c.order) = some x) :
    ecMul2 c a t p = some (.affine x) := by
  simp [ecMul2, discreteLog_of_point hc hp, hx]

/-- Settles O27: what S_RS signs is an `AcceptedSignature`. -/
theorem signThenVerifyAccepts : Obligations.SignThenVerifyAccepts := by
  intro h m h' m' s t u rest hs hexec hidle hok hu hq hcfg hlen he hr hsv hpoint hfails
  obtain ⟨r, sv, hr_eq, hr0, hrk, hsig, hpos, hwrites⟩ := signRs_completed hs hexec hidle hok
  have hc := hs.consistent.cfg_wf
  obtain ⟨hn, he_reg, -⟩ := hs.inFlight.sm2 (.inl (by simp [hs.phase, Phase.signing]))
  obtain ⟨hk, -⟩ := hs.inFlight.sign_regs (by simp [hs.phase, Phase.signing])
  have hx1 := hs.inFlight.sign_point hs.phase
  have hrn : r < s.w.n := hr_eq ▸ Nat.mod_lt _ (hn ▸ hc.order_prime.pos)
  rw [hwrites.sigR] at hr
  rw [hwrites.sigS] at hsv
  have accepted : AcceptedSignature u := by
    refine ⟨hlen, ?_, ?_, ?_, s.w.x1, ?_, ?_⟩ <;> rw [hcfg, ← hn]
    · rw [hr]; omega
    · have := hsig.lt
      rw [hsv]; omega
    · rw [hr, hsv]; exact hsig.t_ne_zero hr0 hrn hk hrk
    · rw [hr, hsv]
      exact ecMul2_of_point hc.points_distinct hpoint (by rwa [← hn, hsig.nonce_eq hk])
    · rw [he, hr, hr_eq, he_reg]
  obtain ⟨v, hrun, hdone⟩ := accepted_completes hu hq accepted hfails
  have hcmd : u.ctrl.cmd = 2 := congrArg Ctrl.cmd hu.latched
  exact ⟨v, hrun, hdone, by rw [hdone.valid, hcmd]; rfl⟩

end Sys2Proof.Machine

/-! PROOF. SM2_VERIFY phase by phase (spec/41_sm2_verify.md R77 to R79), and its whole run, which decides the signature
equation (R81, R83). -/

namespace Sys2Proof.Machine

open Sys2Proof.Config

/-- Every completion of SM2_VERIFY writes STATUS and clears the working registers, and nothing else (R81, R115). -/
theorem Running.next_verifyFinish {h m : Sel} {p : Phase} {s : State} (hs : Running (.sm2Verify h m) p s)
    (code : ErrCode) (w : Working) (d : Draws) :
    (.next (verifyFinish code { s with w := w, draws := d }) : Result) = .next { s with
      err := code, valid := code == .ok, w := Working.zero, phase := .idle, done := true, draws := d } := by
  have hcmd : s.ctrl.cmd = 2 := congrArg Ctrl.cmd hs.latched
  have hvalid : (s.ctrl.cmd == 2 && code == .ok) = (code == .ok) := by rw [hcmd]; exact Bool.true_and _
  rw [verifyFinish, finish_eq, hvalid]
  rfl

/-! ### CHECK and V_RANGE -/

/-- Settles O28, by the cases of CHECK. -/
theorem verifyCheckOutcome : Obligations.VerifyCheckOutcome := by
  intro h m s hs
  rw [exec_verifyCheck hs]
  rcases verifyCheck_cases s with ⟨hlong, hend⟩ | ⟨hfits, ⟨hfault, hend⟩ | ⟨hok, hend⟩⟩ <;> rw [hend]
  · exact ⟨fun _ => hs.next_verifyFinish .alloc .., fun hfits => absurd hlong hfits.not_gt⟩
  · exact ⟨fun hlong => absurd hlong hfits.not_gt,
      fun _ => ⟨fun _ => hs.next_verifyFinish .arith .., fun hok => by simp [hfault] at hok⟩⟩
  · exact ⟨fun hlong => absurd hlong hfits.not_gt, fun _ => ⟨fun hfault => by simp [hok] at hfault, fun _ => rfl⟩⟩

/-- t = (r + s) mod n is 0 for r and s in [1, n - 1] exactly when r + s = n (R78). -/
theorem add_mod_eq_zero_iff {n r sv : Nat} (hr : 1 ≤ r) (hrn : r < n) (hsn : sv < n) :
    (r + sv) % n = 0 ↔ r + sv = n :=
  ⟨fun hzero => Nat.eq_of_dvd_of_lt_two_mul (by omega) (Nat.dvd_of_mod_eq_zero hzero) (by omega),
    fun heq => by rw [heq, Nat.mod_self]⟩

/-- Settles O29, by the cases of V_RANGE. -/
theorem verifyRangeOutcome : Obligations.VerifyRangeOutcome := by
  intro h m s hs
  rw [exec_verifyRange hs]
  rcases verifyRange_cases s with ⟨hbad, hend⟩ | ⟨⟨hr, hrn, hsv, hsn⟩, hcases⟩
  · rw [hend]
    exact ⟨fun _ => hs.next_verifyFinish .invalidSig ..,
      fun hr hrn hsv hsn => absurd ⟨hr, hrn, hsv, hsn⟩ hbad⟩
  refine ⟨fun hbad => by omega, fun _ _ _ _ => ?_⟩
  rw [Ne, ← add_mod_eq_zero_iff hr hrn hsn]
  rcases hcases with ⟨hfault, hend⟩ | ⟨hok, t, rfl, ⟨hzero, hend⟩ | ⟨hne, hend⟩⟩ <;> rw [hend]
  · exact ⟨fun _ => hs.next_verifyFinish .arith .., fun hok => by simp [hfault] at hok,
      fun hok => by simp [hfault] at hok⟩
  · exact ⟨fun hfault => by simp [hok] at hfault, fun _ _ => hs.next_verifyFinish .invalidSig ..,
      fun _ hne => absurd hzero hne⟩
  · exact ⟨fun hfault => by simp [hok] at hfault, fun _ hzero => absurd hzero hne, fun _ _ => rfl⟩

/-! ### V_MUL: the sum s·G + t·PA (R79) -/

theorem ecMul2_of_not_point {c : Curve} {p : Nat × Nat} (hp : p ∉ c.points) (a t : Nat) : ecMul2 c a t p = none := by
  simp [ecMul2, discreteLog, List.idxOf?_eq_none_iff.2 hp]

/-- A sum that is the multiple 0 of G is the point at infinity. -/
theorem ecMul2_of_infinity {c : Curve} (hc : c.points.Nodup) {a t d : Nat} {p : Nat × Nat}
    (hp : multipleOfG c d = some p) (hzero : (a + t * d) % c.order = 0) : ecMul2 c a t p = some .inf := by
  simp [ecMul2, discreteLog_of_point hc hp, hzero, ecMulG, multipleOfG]

section
variable {s : State}

theorem verifyMul_of_fault
    (hfault : s.callFails = true ∨ ecMul2 s.cfg.curve s.w.s s.w.t (scalar s .paX, scalar s .paY) = none) :
    verifyMul s = verifyFinish .arith s.drawn := by
  rcases verifyMul_cases s with ⟨-, hend⟩ | ⟨hok, ⟨hsum, -⟩ | ⟨x1, hsum, -⟩⟩
  · exact hend
  · simp [hok, hsum] at hfault
  · simp [hok, hsum] at hfault

theorem verifyMul_of_infinity (hok : s.callFails = false)
    (hsum : ecMul2 s.cfg.curve s.w.s s.w.t (scalar s .paX, scalar s .paY) = some .inf) :
    verifyMul s = verifyFinish .invalidSig s.drawn := by
  simpa [hok, hsum] using verifyMul_cases s

theorem verifyMul_of_affine {x1 : Nat} (hok : s.callFails = false)
    (hsum : ecMul2 s.cfg.curve s.w.s s.w.t (scalar s .paX, scalar s .paY) = some (.affine x1)) :
    verifyMul s = (s.drawn.setW { s.w with x1 := x1 }).goto .vCmp := by
  simpa [hok, hsum] using verifyMul_cases s

end

/-- Settles O30: with PA = d·G, the answer of EcMul2 is the multiple (s + t·d) mod n of G. -/
theorem verifyMulOutcome : Obligations.VerifyMulOutcome := by
  intro h m s hs
  have hc := hs.consistent.cfg_wf
  have hn := hs.order (.inr rfl)
  rw [exec_verifyMul hs, hn]
  refine ⟨fun hfault => ?_, fun d hok hpoint => ⟨fun hzero => ?_, fun hne => ?_⟩⟩
  · rw [verifyMul_of_fault (hfault.imp_right fun hout => ecMul2_of_not_point hout ..)]
    exact hs.next_verifyFinish .arith ..
  · rw [verifyMul_of_infinity hok (ecMul2_of_infinity hc.points_distinct hpoint hzero)]
    exact hs.next_verifyFinish .invalidSig ..
  · have hlt := Nat.mod_lt (s.w.s + s.w.t * d) hc.order_prime.pos
    obtain ⟨q, hq⟩ := multipleOfG_isSome (Nat.one_le_iff_ne_zero.2 hne) hlt
    have hsum := ecMul2_of_point hc.points_distinct hpoint (ecMulG_of_point hq)
    exact ⟨q, hq, by rw [verifyMul_of_affine hok hsum]; rfl⟩

/-! ### V_CMP -/

/-- Settles O31, by the cases of V_CMP. -/
theorem verifyCmpOutcome : Obligations.VerifyCmpOutcome := by
  intro h m s hs
  rw [exec_verifyCmp hs]
  rcases verifyCmp_cases s with ⟨hfault, hend⟩ | ⟨hok, ⟨heq, hend⟩ | ⟨hne, hend⟩⟩ <;> rw [hend]
  · exact ⟨fun _ => hs.next_verifyFinish .arith .., fun hok => by simp [hfault] at hok,
      fun hok => by simp [hfault] at hok⟩
  · exact ⟨fun hfault => by simp [hok] at hfault, fun _ _ => hs.next_verifyFinish .ok ..,
      fun _ hne => absurd heq hne⟩
  · exact ⟨fun hfault => by simp [hok] at hfault, fun _ heq => absurd heq hne,
      fun _ _ => hs.next_verifyFinish .invalidSig ..⟩

/-! ### The whole run (R83) -/

section
variable {h m : Sel} {s : State} {fs : List Bool}

/-- A CHECK that passes, with a scripted EcOrder. -/
theorem verifyCheck_reaches_vRange (hs : Running (.sm2Verify h m) .check s) (hq : s.inputs = [])
    (hfits : s.eLen.toNat ≤ s.cfg.emax) (hfails : s.draws.fails = false :: fs) :
    ∃ t, Reaches 1 .vRange s.signIter { s.draws with fails := fs } s t := by
  obtain ⟨-, hcheck⟩ := verifyCheckOutcome h m s hs
  obtain ⟨-, hpass⟩ := hcheck hfits
  have hexec := hpass (callFails_scripted hfails)
  rw [drawn_scripted hfails] at hexec
  exact ⟨_, hs.reaches_next (by decide) hq hexec⟩

/-- A V_RANGE that passes, with a scripted ModOp. -/
theorem verifyRange_reaches_vMul (hs : Running (.sm2Verify h m) .vRange s) (hq : s.inputs = [])
    (hr : 1 ≤ scalar s .r ∧ scalar s .r < s.cfg.curve.order) (hsv : 1 ≤ scalar s .s ∧ scalar s .s < s.cfg.curve.order)
    (ht : (scalar s .r + scalar s .s) % s.cfg.curve.order ≠ 0) (hfails : s.draws.fails = false :: fs) :
    ∃ t, Reaches 1 .vMul s.signIter { s.draws with fails := fs } s t := by
  obtain ⟨hwr, hws⟩ := hs.inFlight.verify_operands (by rw [hs.phase]; rfl)
  rw [← hwr, ← hs.order (.inr rfl)] at hr
  rw [← hws, ← hs.order (.inr rfl)] at hsv
  rw [← hwr, ← hws, ← hs.order (.inr rfl), Ne, add_mod_eq_zero_iff hr.1 hr.2 hsv.2] at ht
  obtain ⟨-, hrange⟩ := verifyRangeOutcome h m s hs
  obtain ⟨-, -, hpass⟩ := hrange hr.1 hr.2 hsv.1 hsv.2
  have hexec := hpass (callFails_scripted hfails) ht
  rw [drawn_scripted hfails] at hexec
  exact ⟨_, hs.reaches_next (by decide) hq hexec⟩

/-- A V_MUL whose sum is the point q, with a scripted EcMul2. -/
theorem verifyMul_reaches_vCmp {d : Nat} {q : Nat × Nat} (hs : Running (.sm2Verify h m) .vMul s) (hq : s.inputs = [])
    (hpoint : multipleOfG s.cfg.curve d = some (scalar s .paX, scalar s .paY))
    (hsum : multipleOfG s.cfg.curve ((scalar s .s + (scalar s .r + scalar s .s) % s.cfg.curve.order * d) %
      s.cfg.curve.order) = some q) (hfails : s.draws.fails = false :: fs) :
    ∃ t, Reaches 1 .vCmp s.signIter { s.draws with fails := fs } s t ∧ t.w.x1 = q.1 := by
  obtain ⟨hwr, hws⟩ := hs.inFlight.verify_operands (by rw [hs.phase]; rfl)
  obtain ⟨-, -, -, -, hwt, -⟩ := hs.inFlight.verify_range (.inl hs.phase)
  rw [← hwr, ← hws, ← hs.order (.inr rfl), ← hwt] at hsum
  have hfinite : (s.w.s + s.w.t * d) % s.w.n ≠ 0 := fun hzero => by simp [hzero, multipleOfG] at hsum
  obtain ⟨-, hmul⟩ := verifyMulOutcome h m s hs
  obtain ⟨-, hpass⟩ := hmul d (callFails_scripted hfails) hpoint
  obtain ⟨q', hq', hexec⟩ := hpass hfinite
  obtain rfl : q' = q := Option.some_inj.1 (hq'.symm.trans hsum)
  rw [drawn_scripted hfails] at hexec
  exact ⟨_, hs.reaches_next (by decide) hq hexec, rfl⟩

/-- Three steps to V_CMP, when the checks pass and the sum is the point q. -/
theorem verify_reaches_vCmp {d : Nat} {q : Nat × Nat} (hs : Running (.sm2Verify h m) .check s) (hq : s.inputs = [])
    (hfits : s.eLen.toNat ≤ s.cfg.emax) (hr : 1 ≤ scalar s .r ∧ scalar s .r < s.cfg.curve.order)
    (hsv : 1 ≤ scalar s .s ∧ scalar s .s < s.cfg.curve.order)
    (ht : (scalar s .r + scalar s .s) % s.cfg.curve.order ≠ 0)
    (hpoint : multipleOfG s.cfg.curve d = some (scalar s .paX, scalar s .paY))
    (hsum : multipleOfG s.cfg.curve ((scalar s .s + (scalar s .r + scalar s .s) % s.cfg.curve.order * d) %
      s.cfg.curve.order) = some q) (hfails : NoFail 3 fs s) :
    ∃ t, Reaches 3 .vCmp s.signIter { s.draws with fails := fs } s t ∧ t.w.x1 = q.1 := by
  obtain ⟨a, toRange⟩ := verifyCheck_reaches_vRange hs hq hfits hfails
  rw [← toRange.scalar, ← toRange.cfg] at hr hsv
  obtain ⟨b, first⟩ := verifyRange_reaches_vMul (hs.reached toRange) (toRange.inputs.trans hq) hr hsv
    (by rwa [toRange.scalar, toRange.scalar, toRange.cfg]) (by rw [toRange.draws]; rfl)
  have toMul := toRange.trans first
  rw [← toMul.scalar, ← toMul.scalar, ← toMul.cfg] at hpoint
  rw [← toMul.scalar, ← toMul.scalar, ← toMul.cfg] at hsum
  obtain ⟨c, second, hx1⟩ := verifyMul_reaches_vCmp (hs.reached toMul) (toMul.inputs.trans hq) hpoint hsum
    (by rw [toMul.draws]; rfl)
  have toCmp := toMul.trans second
  rw [toMul.signIter, toMul.draws, toRange.signIter, toRange.draws] at toCmp
  exact ⟨c, toCmp, hx1⟩

end

/-- Settles O32: the three steps to V_CMP, which compares (e + x1) mod n with r. -/
theorem verifyDecidesTheEquation : Obligations.VerifyDecidesTheEquation := by
  rintro h m s d t q rest hs hq hfits hr hrn hsv hsn rfl ht hpoint hsum hfails
  obtain ⟨c, toCmp, hx1⟩ := verify_reaches_vCmp (fs := false :: rest) hs hq hfits ⟨hr, hrn⟩ ⟨hsv, hsn⟩ ht hpoint hsum
    hfails
  have hcmp := hs.reached toCmp
  have hcall : c.draws.fails = false :: rest := by rw [toCmp.draws]
  have hok := callFails_scripted hcall
  have last {u : State} (hexec : exec (.sm2Verify h m) c = .next u) : steps 4 s = .next u :=
    (steps_add toCmp.run 1).trans (steps_one ((hcmp.step_eq (by decide) (toCmp.inputs.trans hq)).trans hexec))
  obtain ⟨-, haccept, hreject⟩ := verifyCmpOutcome h m c hcmp
  obtain ⟨hn, he, -⟩ := hcmp.inFlight.sm2 (.inr (by rw [hcmp.phase]; rfl))
  obtain ⟨hwr, -⟩ := hcmp.inFlight.verify_operands (by rw [hcmp.phase]; rfl)
  rw [hn, he, hx1, hwr, drawn_scripted hcall] at haccept hreject
  refine ⟨toCmp.busy.add toCmp.run (.one (hcmp.busy (by decide))), ?_⟩
  obtain ⟨w, rfl⟩ := toCmp.state
  exact ⟨fun heq => last (haccept hok heq), fun hne => last (hreject hok hne)⟩

end Sys2Proof.Machine

/-! PROOF. VALID: only an accepting SM2_VERIFY sets it, and it stands beside ERR = OK (spec/41_sm2_verify.md R80). -/

namespace Sys2Proof.Machine

/-- No host operation sets VALID (R46, R57, R132). -/
theorem HostMove.valid {s t : State} (h : HostMove s t) (ht : t.valid = true) : s.valid = true := by
  cases h with
  | reset | accept => simp at ht
  | answer | again | locked | status | irqEn | store => exact ht
  | length r => cases r <;> exact ht

/-- A controller step that sets VALID completes an SM2_VERIFY with OK (R115). -/
theorem ControllerOutcome.sets_valid {s t : State} (h : ControllerOutcome s t) (hs : s.valid = false)
    (ht : t.valid = true) : t.phase = .idle ∧ t.err = .ok ∧ s.ctrl.cmd = 2 := by
  cases h with
  | runs => exact absurd ht (by simp [hs])
  | completes code done =>
    rw [done.valid, Bool.and_eq_true, beq_iff_eq, beq_iff_eq] at ht
    obtain ⟨hcmd, rfl⟩ := ht
    exact ⟨done.phase, done.err, hcmd⟩

/-- SM2_VERIFY completes with OK in V_CMP alone (R77). -/
theorem EndsIn.vCmp_of_ok {h m : Sel} {p : Phase} {s t : State} (ends : EndsIn (.sm2Verify h m) p s t)
    (hidle : t.phase = .idle) (hok : t.err = .ok) : p = .vCmp := by
  cases ends with
  | runs busy => exact absurd hidle busy
  | completes _ possible completion =>
    rw [← completion.err, hok] at possible
    cases p with
    | vCmp => rfl
    | _ => simp [possibleCodes] at possible

theorem verifyCmp_ok {s : State} (h : (verifyCmp s).err = .ok) : (s.w.e + s.w.x1) % s.w.n = s.w.r := by
  rcases verifyCmp_cases s with ⟨-, hend⟩ | ⟨-, ⟨heq, -⟩ | ⟨-, hend⟩⟩
  · simp [hend] at h
  · exact heq
  · simp [hend] at h

/-- Of the moves with SM2_VERIFY latched, only a V_CMP whose equation holds completes with OK (R77). -/
theorem ControllerMove.accepts {s t : State} (move : ControllerMove s t) (hcmd : s.ctrl.cmd = 2)
    (hidle : t.phase = .idle) (hok : t.err = .ok) : s.phase = .vCmp ∧ (s.w.e + s.w.x1) % s.w.n = s.w.r := by
  cases move with
  | verifyCmp _ hp => exact ⟨hp, verifyCmp_ok hok⟩
  | verifyCheck => exact nomatch (verifyCheck_endsIn (h := 0) (m := 0) s).vCmp_of_ok hidle hok
  | verifyRange => exact nomatch (verifyRange_endsIn (h := 0) (m := 0) s).vCmp_of_ok hidle hok
  | verifyMul => exact nomatch (verifyMul_endsIn (h := 0) (m := 0) s).vCmp_of_ok hidle hok
  | _ => rename_i hother _; simp [hcmd] at hother

/-- A controller step that sets VALID is the V_CMP of an accepted signature. -/
theorem ControllerMove.sets_valid {s t : State} (h : ControllerMove s t) (hs : s.valid = false)
    (ht : t.valid = true) : s.phase = .vCmp ∧ s.ctrl.cmd = 2 ∧ (s.w.e + s.w.x1) % s.w.n = s.w.r := by
  obtain ⟨hidle, hok, hcmd⟩ := h.outcome.sets_valid hs ht
  obtain ⟨hp, heq⟩ := h.accepts hcmd hidle hok
  exact ⟨hp, hcmd, heq⟩

/-- Settles O33: the invariant gives ERR = OK, and of all moves only an accepting V_CMP sets VALID. -/
theorem validOnlyAfterAccepting : Obligations.ValidOnlyAfterAccepting := by
  intro s t hs hstep ht
  obtain ⟨hok, -⟩ := (stepKeepsConsistent s t hs hstep).valid_ok ht
  refine ⟨hok, fun hvalid => ?_⟩
  rcases step_cases hstep with ⟨-, -, rfl⟩ | ⟨_, _, -, -, move⟩ | ⟨-, -, move⟩ | ⟨-, _, _, -, -, move⟩
  · simp [hvalid] at ht
  · exact absurd (move.valid ht) (by simp [hvalid])
  · exact move.sets_valid hvalid ht
  · exact move.sets_valid hvalid ht

end Sys2Proof.Machine

/-! PROOF. The mask function MGF1 (spec/42_mgf1.md R84 to R87): its loop concatenates hash blocks, so each byte of a mask
lies in the block of its counter, and a shorter mask begins a longer one. -/

namespace Sys2Proof.Machine

open Sys2Proof.Config

/-- The hash blocks with the counters 0 to n - 1, concatenated (R84, R85). -/
def maskBlocks (alg : HashAlg) (seed : List Byte) (n : Nat) : List Byte :=
  (List.range n).flatMap fun i => digest alg (seed ++ be32 (BitVec.ofNat 32 i))

section
variable {alg : HashAlg} {seed : List Byte}

theorem maskBlocks_succ (n : Nat) :
    maskBlocks alg seed (n + 1) = maskBlocks alg seed n ++ digest alg (seed ++ be32 (BitVec.ofNat 32 n)) := by
  simp [maskBlocks, List.range_succ]

@[simp] theorem maskBlocks_length (n : Nat) : (maskBlocks alg seed n).length = n * alg.len := by
  simp [maskBlocks]

/-- Fewer blocks begin more blocks. -/
theorem maskBlocks_eq_append {n m : Nat} (h : n ≤ m) :
    ∃ tail, maskBlocks alg seed m = maskBlocks alg seed n ++ tail := by
  obtain ⟨d, rfl⟩ := Nat.exists_eq_add_of_le h
  exact ⟨_, by rw [maskBlocks, List.range_add, List.flatMap_append, maskBlocks]⟩

/-- Any number of blocks that covers L bytes gives the same L bytes. -/
theorem maskBlocks_take {n m L : Nat} (hn : L ≤ n * alg.len) (hm : L ≤ m * alg.len) :
    (maskBlocks alg seed n).take L = (maskBlocks alg seed m).take L := by
  wlog h : n ≤ m generalizing n m
  · exact (this hm hn (Nat.le_of_not_le h)).symm
  obtain ⟨tail, htail⟩ := maskBlocks_eq_append h
  rw [htail, List.take_append_of_le_length (by rwa [maskBlocks_length])]

/-- Byte j of the blocks lies in the block with counter ⌊j / hm⌋ (R85). -/
theorem maskBlocks_getElem? {n j : Nat} (hj : j < n * alg.len) :
    (maskBlocks alg seed n)[j]? =
      (digest alg (seed ++ be32 (BitVec.ofNat 32 (j / alg.len))))[j % alg.len]? := by
  induction n with
  | zero => simp at hj
  | succ n ih =>
    rw [maskBlocks_succ]
    by_cases hlt : j < n * alg.len
    · rw [List.getElem?_append_left (by rwa [maskBlocks_length]), ih hlt]
    · obtain ⟨r, rfl⟩ := Nat.exists_eq_add_of_le (Nat.le_of_not_lt hlt)
      have hr : r < alg.len := by rw [Nat.succ_mul] at hj; omega
      have hdiv : (n * alg.len + r) / alg.len = n := by
        rw [Nat.mul_comm, Nat.mul_add_div (by omega), Nat.div_eq_of_lt hr, Nat.add_zero]
      rw [List.getElem?_append_right (by simp), hdiv, Nat.mul_add_mod', Nat.mod_eq_of_lt hr,
        maskBlocks_length, Nat.add_sub_cancel_left]

theorem counter_succ (n : Nat) : BitVec.ofNat 32 n + 1 = BitVec.ofNat 32 (n + 1) := (BitVec.ofNat_add n 1).symm

/-- The loop of R84, entered with k blocks, ends with enough blocks when its rounds allow as many. -/
theorem mgf1Loop_blocks {L : Nat} (rounds k : Nat) (henough : L ≤ (k + rounds) * alg.len) :
    ∃ n, L ≤ n * alg.len ∧
      mgf1Loop alg seed L rounds (maskBlocks alg seed k) (BitVec.ofNat 32 k) = maskBlocks alg seed n := by
  induction rounds generalizing k with
  | zero => exact ⟨k, henough, rfl⟩
  | succ rounds ih =>
    rw [mgf1Loop, maskBlocks_length]
    split
    · rw [← maskBlocks_succ, counter_succ]
      exact ih (k + 1) (by rwa [Nat.add_right_comm])
    · exact ⟨k, by omega, rfl⟩

/-- A mask is the first L bytes of any blocks that cover them (R84). -/
theorem mgf1_eq_take {L n : Nat} (hpos : 1 ≤ alg.len) (hn : L ≤ n * alg.len) :
    mgf1 alg seed L = (maskBlocks alg seed n).take L := by
  obtain ⟨n', hn', hloop⟩ := mgf1Loop_blocks (alg := alg) (seed := seed) (L := L) L 0
    (by rw [Nat.zero_add]; exact Nat.le_mul_of_pos_right L hpos)
  have hloop : mgf1Loop alg seed L L [] 0 = maskBlocks alg seed n' := hloop
  rw [mgf1, hloop, maskBlocks_take hn' hn]

end

/-- Settles O34: the mask is taken from L blocks. -/
theorem maskBytesAreHashBytes : Obligations.MaskBytesAreHashBytes := by
  intro alg seed L hpos
  have hcover : L ≤ L * alg.len := Nat.le_mul_of_pos_right L hpos
  rw [mgf1_eq_take hpos hcover]
  refine ⟨by simpa using hcover, fun j hj => ?_⟩
  rw [List.getElem?_take_of_lt hj, maskBlocks_getElem? (Nat.lt_of_lt_of_le hj hcover)]

/-- Settles O35: both masks are taken from the same blocks. -/
theorem maskPrefix : Obligations.MaskPrefix := by
  intro alg seed L L' hpos hle
  have hcover : L' ≤ L' * alg.len := Nat.le_mul_of_pos_right L' hpos
  calc mgf1 alg seed L
      = (maskBlocks alg seed L').take L := mgf1_eq_take hpos (Nat.le_trans hle hcover)
    _ = ((maskBlocks alg seed L').take L').take L := by rw [List.take_take, Nat.min_eq_left hle]
    _ = (mgf1 alg seed L').take L := by rw [mgf1_eq_take hpos hcover]

end Sys2Proof.Machine

/-! PROOF. One block step of each masking phase (spec/42_mgf1.md R88, R89; spec/43_oaep.md R92, R99). -/

namespace Sys2Proof.Machine

open Sys2Proof.Config

/-! ### The three ends of a block step -/

section
variable {src : List Byte} {L : Nat} {fail : State → State} {use : List Byte → State → State} {s : State}
  {alg : HashAlg}

theorem blockStep_of_fault (hfault : s.callFails = true) : blockStep src L fail use s = fail s.drawn := by
  simpa [hfault] using blockStep_cases src L fail use s

theorem blockStep_of_last (hok : s.callFails = false) (halg : hashEntry s.cfg s.w.ms = some alg)
    (hlen : L ≤ s.w.out.length + alg.len) :
    blockStep src L fail use s =
      use ((s.w.out ++ digest alg (src ++ be32 s.w.i)).take L) (s.drawn.setW { s.w with out := [], i := 0 }) := by
  simpa [hok, halg, hlen, hlen.not_gt] using blockStep_cases src L fail use s

theorem blockStep_of_short (hok : s.callFails = false) (halg : hashEntry s.cfg s.w.ms = some alg)
    (hlen : s.w.out.length + alg.len < L) :
    blockStep src L fail use s =
      s.drawn.setW { s.w with out := s.w.out ++ digest alg (src ++ be32 s.w.i), i := s.w.i + 1 } := by
  simpa [hok, halg, hlen, hlen.not_ge] using blockStep_cases src L fail use s

end

/-! ### What a masking phase knows of its selectors and lengths -/

section
variable {i : Instr} {p : Phase} {s : State} (hs : Running i p s)
include hs

theorem Running.mask_alg (hp : p = .mBlock ∨ p.encoding = true ∨ p.decoding = true) :
    ∃ ma, hashEntry s.cfg (resolvedMs s) = some ma ∧ s.w.ms = resolvedMs s := by
  obtain ⟨hms, hvalid, -⟩ := hs.inFlight.mask_sel (by rwa [hs.phase])
  obtain ⟨ma, hma⟩ := Option.isSome_iff_exists.1 hvalid
  exact ⟨ma, hms ▸ hma, hms⟩

theorem Running.oaep_alg (hp : p.encoding = true ∨ p.decoding = true) :
    ∃ ha, hashEntry s.cfg (resolvedHs s) = some ha ∧ s.w.h = ha.len := by
  obtain ⟨hhs, hvalid, hh, -⟩ := hs.inFlight.oaep_sel (by rwa [hs.phase])
  obtain ⟨ha, hha⟩ := Option.isSome_iff_exists.1 hvalid
  exact ⟨ha, hhs ▸ hha, by rw [hh, hlen_of_entry hha]⟩

/-- A failing call of a command with an output string (R115, R123). -/
theorem Running.output_fails (code : ErrCode) (hcode : code ≠ .ok) :
    Completes s (finish code (outputWrites code []) s.drawn) code ∧
      WritesOutput s (finish code (outputWrites code []) s.drawn) [] ∧
      (finish code (outputWrites code []) s.drawn).draws = s.drawn.draws :=
  ⟨outputFinish_completes code [] (sameControl_drawn s), outputFinish_fails [] hs.consistent rfl rfl hcode,
    by simp [finish]⟩

end

/-! ### M_BLOCK (R89) -/

section
variable {h m : Sel} {s : State}

theorem exec_mgf1_block (hs : Running (.mgf1 h m) .mBlock s) : exec (.mgf1 h m) s = .next (mgf1Block s) :=
  (exec_latched (hs.busy (by decide)) hs.latched).trans (by rw [phaseStep, mgf1Phase, hs.phase])

/-- The completion with OK: OUT_BUF has room for a mask of at most TLEN bytes. -/
theorem mgf1Finish_of_block (hs : Running (.mgf1 h m) .mBlock s) (w : Working) {mask : List Byte}
    (hmask : mask.length ≤ s.tlen.toNat) :
    Completes s (mgf1Finish .ok mask (s.drawn.setW w)) .ok ∧
      WritesOutput s (mgf1Finish .ok mask (s.drawn.setW w)) mask ∧
      (mgf1Finish .ok mask (s.drawn.setW w)).draws = s.drawn.draws := by
  obtain ⟨-, -, -, -, htlen, -⟩ := hs.inFlight.mask_sel (.inl hs.phase)
  have worked : WorkedFrom s (s.drawn.setW w) := rfl
  refine ⟨mgf1Finish_completes .ok mask worked.control, ?_, mgf1Finish_draws ..⟩
  exact outputFinish_writes_ok hs.consistent.mem_wf rfl rfl rfl (Nat.le_trans hmask htlen)
    (Nat.lt_of_le_of_lt hmask s.tlen.isLt)

end

/-! ### The masking phases of OAEP_ENC and OAEP_DEC (R92, R99) -/

/-- The use of a finished mask: one of the two strings is masked, and the next phase begins (R92, R99). -/
def useMask (onSeed : Bool) (next : Phase) (mask : List Byte) (s : State) : State :=
  (s.setW { s.w with
    seed := if onSeed then xorBytes s.w.seed mask else s.w.seed
    db := if onSeed then s.w.db else xorBytes s.w.db mask }).goto next

/-- The masking phases: the command's CMD, the phase, the next one, and whether the seed is masked. -/
def maskPhases : List (Sel × Phase × Phase × Bool) :=
  [(4, .eDbmask, .eSeedmask, false), (4, .eSeedmask, .eOut, true), (5, .dSeedmask, .dDbmask, true),
    (5, .dDbmask, .dLhash, false)]

section
variable {i : Instr} {p next : Phase} {onSeed : Bool} {s : State}

theorem maskPhases_oaep (hmem : (i.cmd, p, next, onSeed) ∈ maskPhases) : p.encoding = true ∨ p.decoding = true := by
  simp only [maskPhases, List.mem_cons, Prod.mk.injEq, List.not_mem_nil, or_false] at hmem
  rcases hmem with ⟨-, rfl, -⟩ | ⟨-, rfl, -⟩ | ⟨-, rfl, -⟩ | ⟨-, rfl, -⟩ <;> decide

/-- A step of each is one block step over the other string (R88). -/
theorem exec_maskPhase (hmem : (i.cmd, p, next, onSeed) ∈ maskPhases) (hs : Running i p s) :
    exec i s = .next (blockStep (if onSeed then s.w.db else s.w.seed) (if onSeed then s.w.h else dblen s)
      (finish .arith (outputWrites .arith [])) (useMask onSeed next) s) := by
  have hidle : p ≠ .idle := by rintro rfl; simpa [Phase.encoding, Phase.decoding] using maskPhases_oaep hmem
  rw [exec_latched (hs.busy hidle) hs.latched]
  cases i with
  | oaepEnc h m =>
    have hcases : p = .eDbmask ∧ next = .eSeedmask ∧ onSeed = false ∨ p = .eSeedmask ∧ next = .eOut ∧ onSeed = true := by
      simpa [maskPhases, Instr.cmd] using hmem
    rcases hcases with ⟨rfl, rfl, rfl⟩ | ⟨rfl, rfl, rfl⟩ <;> rw [phaseStep, encPhase, hs.phase] <;> rfl
  | oaepDec h m =>
    have hcases : p = .dSeedmask ∧ next = .dDbmask ∧ onSeed = true ∨ p = .dDbmask ∧ next = .dLhash ∧ onSeed = false := by
      simpa [maskPhases, Instr.cmd] using hmem
    rcases hcases with ⟨rfl, rfl, rfl⟩ | ⟨rfl, rfl, rfl⟩ <;> rw [phaseStep, decPhase, hs.phase] <;> rfl
  | _ => simp [maskPhases, Instr.cmd] at hmem

end

/-- Settles O37, by the three ends of a block step, for M_BLOCK and then for the four masking phases. -/
theorem mgf1BlockOutcome : Obligations.Mgf1BlockOutcome := by
  refine ⟨fun h m s hs => ?_, fun i p next onSeed s hmem hs => ?_⟩
  · obtain ⟨ma, hma, hms⟩ := hs.mask_alg (.inl rfl)
    have halg : hashEntry s.cfg s.w.ms = some ma := hms ▸ hma
    rw [exec_mgf1_block hs, mgf1Block]
    refine ⟨fun hfault => ⟨_, rfl, ?_⟩, fun hok => ⟨ma, hma, ?_⟩⟩
    · rw [blockStep_of_fault hfault]
      exact hs.output_fails .arith (by decide)
    rintro out rfl
    rw [List.length_append, digest_length]
    refine ⟨fun hlast => ⟨_, rfl, ?_⟩, fun hshort => ?_⟩
    · rw [blockStep_of_last hok halg hlast]
      exact mgf1Finish_of_block hs _ (List.length_take_le ..)
    · rw [blockStep_of_short hok halg hshort]
      rfl
  · obtain ⟨ma, hma, hms⟩ := hs.mask_alg (.inr (maskPhases_oaep hmem))
    obtain ⟨ha, hha, hh⟩ := hs.oaep_alg (maskPhases_oaep hmem)
    have halg : hashEntry s.cfg s.w.ms = some ma := hms ▸ hma
    rw [exec_maskPhase hmem hs, dblen, hh]
    refine ⟨fun hfault => ⟨_, rfl, ?_⟩, fun hok => ⟨ha, ma, hha, hma, ?_⟩⟩
    · rw [blockStep_of_fault hfault]
      exact hs.output_fails .arith (by decide)
    rintro out L rfl rfl
    rw [List.length_append, digest_length]
    refine ⟨fun hlast => ?_, fun hshort => ?_⟩
    · rw [blockStep_of_last hok halg hlast]
      rfl
    · rw [blockStep_of_short hok halg hshort]
      rfl

end Sys2Proof.Machine

/-! PROOF. A whole run of MGF1: its step count, and the mask in OUT_BUF (spec/42_mgf1.md R90, R91). -/

namespace Sys2Proof.Machine

open Sys2Proof.Config

theorem Reaches.output {k : Nat} {p : Phase} {d : Draws} {s t u : State} {b : List Byte}
    (h : Reaches k p s.signIter d s t) (hu : WritesOutput t u b) : WritesOutput s u b := by
  obtain ⟨w, rfl⟩ := h.state
  exact { hu with }

theorem ceilDiv_zero {b : Nat} (hb : 1 ≤ b) : ceilDiv 0 b = 0 := Nat.div_eq_of_lt (by omega)

/-- ⌈a / b⌉ of a positive a is the n + 1 with n·b < a ≤ (n + 1)·b. -/
theorem ceilDiv_eq_succ {a b : Nat} (ha : 1 ≤ a) (hb : 1 ≤ b) :
    ∃ n, ceilDiv a b = n + 1 ∧ n * b < a ∧ a ≤ (n + 1) * b := by
  refine ⟨(a - 1) / b, ?_, ?_, ?_⟩
  · rw [ceilDiv, Nat.sub_add_comm ha, Nat.add_div_right _ hb]
  · have := Nat.div_mul_le_self (a - 1) b
    omega
  · have := Nat.lt_mul_of_div_lt (Nat.lt_add_one ((a - 1) / b)) hb
    omega

/-- An assigned hash has at least one byte (R4). -/
theorem State.Consistent.hash_len_pos {s : State} (hs : s.Consistent) {sel : Sel} {alg : HashAlg}
    (halg : hashEntry s.cfg sel = some alg) : 1 ≤ alg.len := by
  have hpos := hlen_pos hs.cfg_wf (Option.isSome_of_eq_some halg)
  rwa [hlen_of_entry halg] at hpos

section
variable {h m : Sel} {s : State} {ma : HashAlg}

/-- A scripted M_BLOCK with n blocks in w.out: it adds the block with counter n, and ends when TLEN bytes are there. -/
theorem mgf1Block_scripted {n : Nat} {fs : List Bool} (hs : Running (.mgf1 h m) .mBlock s)
    (hma : hashEntry s.cfg (resolvedMs s) = some ma) (hout : s.w.out = maskBlocks ma (inputBytes s) n)
    (hi : s.w.i = BitVec.ofNat 32 n) (hfails : s.draws.fails = false :: fs) :
    (s.tlen.toNat ≤ (n + 1) * ma.len →
      ∃ t, exec (.mgf1 h m) s = .next t ∧ Completes s t .ok ∧
        WritesOutput s t (mgf1 ma (inputBytes s) s.tlen.toNat) ∧ t.draws = { s.draws with fails := fs }) ∧
      ((n + 1) * ma.len < s.tlen.toNat → exec (.mgf1 h m) s = .next { s with
        phase := .mBlock, w := { s.w with out := maskBlocks ma (inputBytes s) (n + 1), i := BitVec.ofNat 32 (n + 1) },
        draws := { s.draws with fails := fs } }) := by
  obtain ⟨-, hblock⟩ := mgf1BlockOutcome.1 h m s hs
  obtain ⟨ma', hma', hends⟩ := hblock (callFails_scripted hfails)
  obtain rfl : ma = ma' := Option.some.inj (hma.symm.trans hma')
  obtain ⟨hlast, hshort⟩ := hends (maskBlocks ma (inputBytes s) (n + 1)) (by rw [hout, hi, maskBlocks_succ])
  rw [maskBlocks_length, drawn_scripted hfails] at hlast hshort
  refine ⟨fun hlen => ?_, fun hlen => ?_⟩
  · rw [mgf1_eq_take (hs.consistent.hash_len_pos hma) hlen]
    exact hlast hlen
  · rw [hshort hlen, hi, counter_succ, ← hs.phase]

variable {rest : List Bool} (hs : Running (.mgf1 h m) .check s) (hq : s.inputs = [])
  (hma : hashEntry s.cfg (resolvedMs s) = some ma) (hin : s.inLen.toNat ≤ s.cfg.bmax)
  (htlen : s.tlen.toNat ≤ s.cfg.bmax)
include hs hq hma hin htlen

/-- The empty mask ends in CHECK (R89). -/
theorem mgf1_run_of_empty (hzero : s.tlen = 0) :
    ∃ t, steps 1 s = .next t ∧ Completes s t .ok ∧ WritesOutput s t [] ∧ t.draws = s.draws := by
  obtain ⟨-, hcheck⟩ := mgf1CheckOutcome h m s hs
  obtain ⟨-, hpass⟩ := hcheck ma hma
  obtain ⟨hempty, -⟩ := hpass hin htlen
  obtain ⟨t, hexec, hend⟩ := hempty hzero
  exact ⟨t, steps_one ((hs.step_eq (by decide) hq).trans hexec), hend⟩

/-- After CHECK and n steps of M_BLOCK, with bytes still missing, w.out holds n blocks and w.i counts them (R88). -/
theorem mgf1_reaches_blocks (n : Nat) (hmore : n * ma.len < s.tlen.toNat) (hfails : NoFail n rest s) :
    ∃ t, Reaches (1 + n) .mBlock s.signIter { s.draws with fails := rest } s t ∧
      t.w.out = maskBlocks ma (inputBytes s) n ∧ t.w.i = BitVec.ofNat 32 n := by
  induction n generalizing rest with
  | zero =>
    obtain ⟨-, hcheck⟩ := mgf1CheckOutcome h m s hs
    obtain ⟨-, hpass⟩ := hcheck ma hma
    obtain ⟨-, hstart⟩ := hpass hin htlen
    have hexec := hstart fun hzero => by simp [hzero] at hmore
    obtain rfl : s.draws.fails = rest := hfails
    exact ⟨_, hs.reaches_next (by decide) hq hexec, rfl, rfl⟩
  | succ n ih =>
    have hless : n * ma.len < s.tlen.toNat := by rw [Nat.succ_mul] at hmore; omega
    obtain ⟨t, before, hout, hi⟩ := ih hless (noFail_add.1 hfails)
    have ht := hs.reached before
    obtain ⟨w, rfl⟩ := before.state
    obtain ⟨-, hshort⟩ := mgf1Block_scripted ht hma hout hi rfl
    exact ⟨_, before.trans (ht.reaches_next (by decide) hq (hshort hmore)), rfl, rfl⟩

end

/-- Settles O38: CHECK, the blocks that leave bytes missing, and the last one. -/
theorem mgf1RunsToItsMask : Obligations.Mgf1RunsToItsMask := by
  intro h m s ma rest hs hq hma hin htlen hfails
  have hpos := hs.consistent.hash_len_pos hma
  by_cases hzero : s.tlen = 0
  · have hlen : s.tlen.toNat = 0 := by rw [hzero]; rfl
    rw [hlen, ceilDiv_zero hpos] at hfails ⊢
    obtain rfl : s.draws.fails = rest := hfails
    exact ⟨.one (hs.busy (by decide)), mgf1_run_of_empty hs hq hma hin htlen hzero⟩
  · have hlen : 1 ≤ s.tlen.toNat := Nat.pos_of_ne_zero fun h0 => hzero (BitVec.eq_of_toNat_eq h0)
    obtain ⟨n, hcount, hmore, henough⟩ := ceilDiv_eq_succ hlen hpos
    rw [hcount] at hfails
    rw [hcount, ← Nat.add_assoc]
    obtain ⟨t, before, hout, hi⟩ := mgf1_reaches_blocks hs hq hma hin htlen n hmore (noFail_add.1 hfails)
    have ht := hs.reached before
    have hbusy := before.busy.add before.run (.one (ht.busy (by decide)))
    obtain ⟨w, rfl⟩ := before.state
    obtain ⟨hlast, -⟩ := mgf1Block_scripted ht hma hout hi rfl
    obtain ⟨u, hexec, hdone, hwrites, hdraws⟩ := hlast henough
    have last := steps_one ((ht.step_eq (by decide) hq).trans hexec)
    exact ⟨hbusy, u, (steps_add before.run 1).trans last, before.completes hdone, before.output hwrites, hdraws⟩

end Sys2Proof.Machine

/-! PROOF. OAEP_ENC and OAEP_DEC phase by phase, outside the masking phases: their checks, the label hash, the seed, the
padded block, the scan for the separator and the completions (spec/43_oaep.md R92 to R105). -/

namespace Sys2Proof.Machine

open Sys2Proof.Config

/-! ### The step of a running OAEP_ENC or OAEP_DEC -/

section
variable {h m : Sel} {p : Phase} {s : State}

theorem exec_enc (hs : Running (.oaepEnc h m) p s) (hb : p ≠ .idle) : exec (.oaepEnc h m) s = encPhase s :=
  exec_latched (hs.busy hb) hs.latched

theorem exec_dec (hs : Running (.oaepDec h m) p s) (hb : p ≠ .idle) : exec (.oaepDec h m) s = decPhase s :=
  exec_latched (hs.busy hb) hs.latched

theorem exec_encCheck (hs : Running (.oaepEnc h m) .check s) : exec (.oaepEnc h m) s = .next (encCheck s) :=
  (exec_enc hs (by decide)).trans (by rw [encPhase, hs.phase])

theorem exec_encLhash (hs : Running (.oaepEnc h m) .eLhash s) : exec (.oaepEnc h m) s = .next (encLhash s) :=
  (exec_enc hs (by decide)).trans (by rw [encPhase, hs.phase])

theorem exec_encSeed (hs : Running (.oaepEnc h m) .eSeed s) : exec (.oaepEnc h m) s = .next (encSeed s) :=
  (exec_enc hs (by decide)).trans (by rw [encPhase, hs.phase])

theorem exec_encOut (hs : Running (.oaepEnc h m) .eOut s) : exec (.oaepEnc h m) s = .next (encOut s) :=
  (exec_enc hs (by decide)).trans (by rw [encPhase, hs.phase])

theorem exec_decCheck (hs : Running (.oaepDec h m) .check s) : exec (.oaepDec h m) s = .next (decCheck s) :=
  (exec_dec hs (by decide)).trans (by rw [decPhase, hs.phase])

theorem exec_decPad (hs : Running (.oaepDec h m) .dPad s) : exec (.oaepDec h m) s = .next (decPad s) :=
  (exec_dec hs (by decide)).trans (by rw [decPhase, hs.phase])

theorem exec_decLhash (hs : Running (.oaepDec h m) .dLhash s) : exec (.oaepDec h m) s = .next (decLhash s) :=
  (exec_dec hs (by decide)).trans (by rw [decPhase, hs.phase])

theorem exec_decScan (hs : Running (.oaepDec h m) .dScan s) : exec (.oaepDec h m) s = .next (decScan s) :=
  (exec_dec hs (by decide)).trans (by rw [decPhase, hs.phase])

end

/-! ### The two checks (R93, R100, R113) -/

/-- A failing completion in CHECK uses no draw, whichever the command with an output string. -/
theorem outputFinish_of_check (code : ErrCode) {s : State} (hs : s.Consistent) (w : Working) :
    Completes s (finish code (outputWrites code []) (s.setW w)) code ∧
      WritesOutput s (finish code (outputWrites code []) (s.setW w)) [] ∧
      (finish code (outputWrites code []) (s.setW w)).draws = s.draws := mgf1Finish_of_check code hs w

/-- What CHECK stores when both selectors are assigned (R62). -/
theorem storeSelectors_of_entries {s : State} {ha ma : HashAlg} (hha : hashEntry s.cfg (resolvedHs s) = some ha)
    (hma : hashEntry s.cfg (resolvedMs s) = some ma) :
    storeSelectors s = s.setW { s.w with hs := resolvedHs s, ms := resolvedMs s, h := ha.len, hm := ma.len } := by
  rw [storeSelectors, hlen_of_entry hha, hlen_of_entry hma]

theorem not_validSels_iff {s : State} {a b : Sel} :
    ¬ (validSel s a = true ∧ validSel s b = true) ↔ hashEntry s.cfg a = none ∨ hashEntry s.cfg b = none := by
  rw [← validSel_eq_false_iff, ← validSel_eq_false_iff, not_and_or, Bool.not_eq_true, Bool.not_eq_true]

section
variable {s : State}

theorem encCheck_of_unassigned (hnone : hashEntry s.cfg (resolvedHs s) = none ∨ hashEntry s.cfg (resolvedMs s) = none) :
    encCheck s = encFinish .badCmd [] (storeSelectors s) := by
  rcases encCheck_cases s with ⟨-, hend⟩ | ⟨hvalid, -⟩
  · exact hend
  · exact absurd hvalid (not_validSels_iff.2 hnone)

theorem decCheck_of_unassigned (hnone : hashEntry s.cfg (resolvedHs s) = none ∨ hashEntry s.cfg (resolvedMs s) = none) :
    decCheck s = decFinish .badCmd [] (storeSelectors s) := by
  rcases decCheck_cases s with ⟨-, hend⟩ | ⟨hvalid, -⟩
  · exact hend
  · exact absurd hvalid (not_validSels_iff.2 hnone)

variable {ha ma : HashAlg} (hha : hashEntry s.cfg (resolvedHs s) = some ha)
  (hma : hashEntry s.cfg (resolvedMs s) = some ma)
include hha hma

/-- With both selectors assigned, the lengths decide, in the order of R93. -/
theorem encCheck_of_entries :
    encCheck s =
      if s.cfg.bmax < s.inLen.toNat ∨ s.cfg.bmax < s.tlen.toNat ∨ s.cfg.lmax < s.labelLen.toNat then
        encFinish .alloc [] (storeSelectors s)
      else if s.tlen.toNat < 2 * ha.len + 2 then encFinish .keyTooSmall [] (storeSelectors s)
      else if s.tlen.toNat < s.inLen.toNat + 2 * ha.len + 2 then encFinish .dataTooLarge [] (storeSelectors s)
      else (storeSelectors s).goto .eLhash := by
  have hcases := encCheck_cases s
  rw [hlen_of_entry hha] at hcases
  rcases hcases with
    ⟨hbad, -⟩ | ⟨-, ⟨hlong, hend⟩ | ⟨hin, htlen, hlabel, _, rfl, ⟨hsmall, hend⟩ | ⟨hkey, hlarge, hend⟩ | ⟨hroom, hend⟩⟩⟩
  · exact absurd ⟨validSel_of_entry hha, validSel_of_entry hma⟩ hbad
  · rw [hend, if_pos hlong]
  · rw [hend, if_neg (by omega), if_pos hsmall]
  · rw [hend, if_neg (by omega), if_neg (by omega), if_pos hlarge]
  · rw [hend, if_neg (by omega), if_neg (by omega), if_neg (by omega)]

/-- With both selectors assigned, the lengths decide, in the order of R100. -/
theorem decCheck_of_entries :
    decCheck s =
      if s.cfg.bmax < s.inLen.toNat ∨ s.cfg.bmax < s.tlen.toNat ∨ s.cfg.lmax < s.labelLen.toNat then
        decFinish .alloc [] (storeSelectors s)
      else if s.tlen.toNat < 2 * ha.len + 2 then decFinish .keyTooSmall [] (storeSelectors s)
      else (storeSelectors s).goto .dPad := by
  have hcases := decCheck_cases s
  rw [hlen_of_entry hha] at hcases
  rcases hcases with
    ⟨hbad, -⟩ | ⟨-, ⟨hlong, hend⟩ | ⟨hin, htlen, hlabel, _, rfl, ⟨hsmall, hend⟩ | ⟨hkey, hend⟩⟩⟩
  · exact absurd ⟨validSel_of_entry hha, validSel_of_entry hma⟩ hbad
  · rw [hend, if_pos hlong]
  · rw [hend, if_neg (by omega), if_pos hsmall]
  · rw [hend, if_neg (by omega), if_neg (by omega)]

end

/-- Settles O39, by the order of CHECK's tests. -/
theorem encCheckOutcome : Obligations.EncCheckOutcome := by
  intro h m s hs
  rw [exec_encCheck hs]
  refine ⟨fun hnone => ⟨_, rfl, ?_⟩, fun ha ma hha hma => ?_⟩
  · rw [encCheck_of_unassigned hnone]
    exact outputFinish_of_check .badCmd hs.consistent _
  rw [encCheck_of_entries hha hma]
  refine ⟨fun hlong => ⟨_, rfl, ?_⟩, fun hin htlen hlabel => ?_⟩
  · rw [if_pos hlong]
    exact outputFinish_of_check .alloc hs.consistent _
  rw [if_neg (by omega)]
  refine ⟨fun hsmall => ⟨_, rfl, ?_⟩, fun hkey hlarge => ⟨_, rfl, ?_⟩, fun hroom => ?_⟩
  · rw [if_pos hsmall]
    exact outputFinish_of_check .keyTooSmall hs.consistent _
  · rw [if_neg (by omega), if_pos hlarge]
    exact outputFinish_of_check .dataTooLarge hs.consistent _
  · rw [if_neg (by omega), if_neg (by omega), storeSelectors_of_entries hha hma]
    rfl

/-- Settles O44, by the order of CHECK's tests. -/
theorem decCheckOutcome : Obligations.DecCheckOutcome := by
  intro h m s hs
  rw [exec_decCheck hs]
  refine ⟨fun hnone => ⟨_, rfl, ?_⟩, fun ha ma hha hma => ?_⟩
  · rw [decCheck_of_unassigned hnone]
    exact outputFinish_of_check .badCmd hs.consistent _
  rw [decCheck_of_entries hha hma]
  refine ⟨fun hlong => ⟨_, rfl, ?_⟩, fun hin htlen hlabel => ?_⟩
  · rw [if_pos hlong]
    exact outputFinish_of_check .alloc hs.consistent _
  rw [if_neg (by omega)]
  refine ⟨fun hsmall => ⟨_, rfl, ?_⟩, fun hkey => ?_⟩
  · rw [if_pos hsmall]
    exact outputFinish_of_check .keyTooSmall hs.consistent _
  · rw [if_neg (by omega), storeSelectors_of_entries hha hma]
    rfl

/-! ### E_LHASH and D_LHASH: the label hash (R92, R99, R103) -/

/-- The assigned hash of the selector in w.hs. -/
theorem Running.label_alg {i : Instr} {p : Phase} {s : State} (hs : Running i p s)
    (hp : p.encoding = true ∨ p.decoding = true) :
    ∃ ha, hashEntry s.cfg (resolvedHs s) = some ha ∧ hashEntry s.cfg s.w.hs = some ha ∧ s.w.h = ha.len := by
  obtain ⟨ha, hha, hh⟩ := hs.oaep_alg hp
  obtain ⟨hhs, -⟩ := hs.inFlight.oaep_sel (by rwa [hs.phase])
  exact ⟨ha, hha, by rwa [hhs], hh⟩

/-- DB as OAEP_ENC lays it out is that of R94, for a label hash of h bytes. -/
theorem dataBlock_eq {s : State} {lhash : List Byte} (hlen : lhash.length = s.w.h) :
    dataBlock s lhash = encodedDB lhash (inputBytes s) (s.tlen.toNat - 1 - s.w.h) := by
  rw [dataBlock, encodedDB, hlen, dblen, inputBytes, State.winBytes_length]

/-- Settles O40, by the two ends of the hash call. -/
theorem encLhashOutcome : Obligations.EncLhashOutcome := by
  intro h m s hs
  obtain ⟨ha, hha, halg, hh⟩ := hs.label_alg (.inl rfl)
  rw [exec_encLhash hs]
  rcases encLhash_cases s with ⟨hfault, hend⟩ | ⟨hok, ha', halg', hend⟩ <;> rw [hend]
  · have hfails : s.callFails = true := by simpa [halg] using hfault
    exact ⟨fun _ => ⟨_, rfl, hs.output_fails .arith (by decide)⟩, fun hok => by simp [hfails] at hok⟩
  · obtain rfl : ha = ha' := Option.some.inj (halg.symm.trans halg')
    refine ⟨fun hfails => by simp [hok] at hfails, fun _ => ⟨ha, hha, ?_⟩⟩
    rintro _ rfl
    rw [dataBlock_eq ((digest_length ..).trans hh.symm), hh]
    rfl

theorem cteq_eq_decide (a b : List Byte) : cteq a b = decide (a = b) := by
  rw [Bool.eq_iff_iff, cteq_iff, decide_eq_true_iff]

/-- Settles O46, by the two ends of the hash call; CTEQ is equality. -/
theorem decLhashOutcome : Obligations.DecLhashOutcome := by
  intro h m s hs
  obtain ⟨ha, hha, halg, hh⟩ := hs.label_alg (.inr rfl)
  rw [exec_decLhash hs]
  rcases decLhash_cases s with ⟨hfault, hend⟩ | ⟨hok, ha', halg', hend⟩ <;> rw [hend]
  · have hfails : s.callFails = true := by simpa [halg] using hfault
    exact ⟨fun _ => ⟨_, rfl, hs.output_fails .arith (by decide)⟩, fun hok => by simp [hfails] at hok⟩
  · obtain rfl : ha = ha' := Option.some.inj (halg.symm.trans halg')
    refine ⟨fun hfails => by simp [hok] at hfails, fun _ => ⟨ha, hha, ?_⟩⟩
    rintro _ rfl
    rw [← hh, ← cteq_eq_decide]
    rfl

/-! ### E_SEED: one draw of h bytes (R95) -/

/-- Scripted bytes are drawn in their order. -/
theorem drawBytes_scripted {d : Draws} {b more : List Byte} (h : d.bytes = b ++ more) :
    drawBytes b.length d = (b, { d with bytes := more }) := by
  induction b generalizing d with
  | nil =>
    obtain rfl : d.bytes = more := h
    rfl
  | cons x b ih =>
    have hdraw : drawByte d = (x, { d with bytes := b ++ more }) := by rw [drawByte, h]; rfl
    rw [List.length_cons, drawBytes, hdraw, ih (d := { d with bytes := b ++ more }) rfl]

theorem drawFail_bytes (d : Draws) : (drawFail d).2.bytes = d.bytes := by
  rw [drawFail]
  split <;> rfl

/-- An answered draw is the next h bytes of the provider. -/
theorem encSeed_of_answer {s : State} (hok : s.callFails = false) :
    encSeed s = ((s.setDraws (drawBytes s.w.h s.drawn.draws).2).setW
      { s.w with seed := (drawBytes s.w.h s.drawn.draws).1, out := [], i := 0 }).goto .eDbmask :=
  afterCall_bytes_some hok _ _

/-- Settles O41, by the two ends of the random call. -/
theorem encSeedOutcome : Obligations.EncSeedOutcome := by
  intro h m s hs
  rw [exec_encSeed hs]
  refine ⟨fun hfault => ⟨_, rfl, ?_⟩, fun hok => ⟨_, (drawBytes s.w.h s.drawn.draws).2,
    drawBytes_length s.w.h s.drawn.draws, ?_, ?_⟩⟩
  · rw [encSeed, afterCall_bytes_none hfault]
    exact hs.output_fails .rng (by decide)
  · intro b more hbytes hlen
    rw [← hlen, drawBytes_scripted (by rw [State.drawn_draws, drawFail_bytes, hbytes])]
    exact ⟨rfl, rfl⟩
  · rw [encSeed_of_answer hok]
    rfl

/-! ### E_OUT: the block (R96) -/

/-- The block of E_OUT is exactly TLEN bytes long. -/
theorem encOut_block_length {h m : Sel} {s : State} (hs : Running (.oaepEnc h m) .eOut s) :
    ((0x00 : Byte) :: (s.w.seed ++ s.w.db)).length = s.tlen.toNat := by
  have hseed := hs.inFlight.seed_length (.inr (.inr (.inl hs.phase)))
  have hdb := hs.inFlight.db_length (.inl (by rw [hs.phase]; decide))
  obtain ⟨-, -, -, -, hkey⟩ := hs.inFlight.oaep_sel (.inl (by rw [hs.phase]; rfl))
  rw [List.length_cons, List.length_append, hseed, hdb, dblen]
  omega

/-- Settles O42: the block fits OUT_BUF, whose capacity CHECK compared with TLEN. -/
theorem encOutCompletes : Obligations.EncOutCompletes := by
  intro h m s hs
  have hlen := encOut_block_length hs
  obtain ⟨-, -, -, -, htlen, -⟩ := hs.inFlight.mask_sel (.inr (.inl (by rw [hs.phase]; rfl)))
  have hwrites := outputFinish_writes_ok (s₀ := s) hs.consistent.mem_wf rfl rfl rfl (hlen.trans_le htlen)
    (hlen.trans_lt s.tlen.isLt)
  exact ⟨_, exec_encOut hs, encFinish_completes .ok _ (.rfl' s), hwrites,
    BitVec.eq_of_toNat_eq (hwrites.length.trans hlen), encFinish_draws ..⟩

/-! ### D_PAD: the working block and its parts (R99, R101, R102) -/

/-- Fewer bytes of a window begin more of them. -/
theorem State.winBytes_take (s : State) (win : Win) {n k : Nat} (h : k ≤ n) :
    (s.winBytes win n).take k = s.winBytes win k := by
  rw [State.winBytes, State.winBytes, readBytes, readBytes, ← List.map_take, List.take_range, Nat.min_eq_left h]

theorem paddedBlock_of_fits {s : State} (h : s.inLen.toNat ≤ s.tlen.toNat) :
    paddedBlock s = zeros (s.tlen.toNat - s.inLen.toNat) ++ inputBytes s := if_neg h.not_gt

theorem paddedBlock_of_long {s : State} (h : s.tlen.toNat < s.inLen.toNat) :
    paddedBlock s = (inputBytes s).take s.tlen.toNat := by
  rw [paddedBlock, if_pos h, inputBytes, s.winBytes_take .inBuf h.le]

/-- w.good after D_PAD: the input is not longer than num and the leading byte is 0. -/
theorem padGood_eq (inLen tlen : Nat) (em : List Byte) :
    (em.head? == some 0x00 && !decide (tlen < inLen)) = decide (inLen ≤ tlen ∧ em[0]? = some 0x00) := by
  rw [Bool.eq_iff_iff]
  simp [List.head?_eq_getElem?, and_comm]

/-- Settles O45: the block is `paddedBlock`, whose two cases are the two lengths. -/
theorem decPadOutcome : Obligations.DecPadOutcome := by
  intro h m s hs
  refine ⟨paddedBlock s, paddedBlock_length s, paddedBlock_of_fits, paddedBlock_of_long, ?_⟩
  rw [exec_decPad hs, ← padGood_eq, Nat.add_comm 1]
  rfl

/-! ### D_SCAN: the separator (R99, R104, R105) -/

/-- The index found is that of the first nonzero byte from index h on. -/
theorem separatorIndex_eq_some_iff {db : List Byte} {h idx : Nat} :
    separatorIndex db h = some idx ↔
      h ≤ idx ∧ (∃ b, db[idx]? = some b ∧ b ≠ 0x00) ∧ ∀ j, h ≤ j → j < idx → db[j]? = some 0x00 := by
  rw [separatorIndex, Option.map_eq_some_iff]
  simp only [List.findIdx?_eq_some_iff_getElem, List.getElem_drop, List.length_drop, bne_iff_ne, Decidable.not_not]
  constructor
  · rintro ⟨i, ⟨hlt, hne, hzero⟩, rfl⟩
    refine ⟨Nat.le_add_left h i, ⟨_, by rw [Nat.add_comm]; exact List.getElem?_eq_getElem (by omega), hne⟩, ?_⟩
    intro j hj hji
    obtain ⟨k, rfl⟩ := Nat.exists_eq_add_of_le hj
    rw [List.getElem?_eq_getElem (by omega), hzero k (by omega)]
  · rintro ⟨hle, ⟨b, hb, hne⟩, hzero⟩
    obtain ⟨i, rfl⟩ := Nat.exists_eq_add_of_le hle
    obtain ⟨hlt, rfl⟩ := List.getElem?_eq_some_iff.1 hb
    refine ⟨i, ⟨by omega, hne, fun j hj => ?_⟩, Nat.add_comm i h⟩
    exact (List.getElem?_eq_some_iff.1 (hzero (h + j) (by omega) (by omega))).2

theorem separatorIndex_of_separator {db : List Byte} {h idx : Nat} (hsep : SeparatorAt db h idx) :
    separatorIndex db h = some idx := by
  obtain ⟨hle, hone, hzero⟩ := hsep
  exact separatorIndex_eq_some_iff.2 ⟨hle, ⟨0x01, hone, by decide⟩, hzero⟩

theorem recoveredMessage_of_separator {db : List Byte} {h idx : Nat} (hsep : SeparatorAt db h idx) :
    recoveredMessage db h = db.drop (idx + 1) := by
  rw [recoveredMessage, separatorIndex_of_separator hsep]

theorem separatorGood_iff {db : List Byte} {h : Nat} : separatorGood db h = true ↔ ∃ idx, SeparatorAt db h idx := by
  constructor
  · intro hgood
    cases hidx : separatorIndex db h with
    | none => simp [separatorGood, hidx] at hgood
    | some idx =>
      obtain ⟨hle, -, hzero⟩ := separatorIndex_eq_some_iff.1 hidx
      exact ⟨idx, hle, by simpa [separatorGood, hidx] using hgood, hzero⟩
  · rintro ⟨idx, hsep⟩
    rw [separatorGood, separatorIndex_of_separator hsep]
    exact beq_iff_eq.2 hsep.2.1

/-- The flag that D_SCAN completes by. -/
theorem scanGood_iff {s : State} :
    (s.w.good && separatorGood s.w.db s.w.h) = true ↔ s.w.good = true ∧ ∃ idx, SeparatorAt s.w.db s.w.h idx := by
  rw [Bool.and_eq_true, separatorGood_iff]

theorem decScan_of_separator {s : State} {idx : Nat} (hgood : s.w.good = true) (hsep : SeparatorAt s.w.db s.w.h idx) :
    ∃ w, decScan s = decFinish .ok (s.w.db.drop (idx + 1)) (s.setW w) := by
  obtain ⟨u, rfl, ⟨-, hend⟩ | ⟨hbad, -⟩⟩ := decScan_cases s
  · exact ⟨_, by rw [hend, recoveredMessage_of_separator hsep]⟩
  · exact absurd (scanGood_iff.2 ⟨hgood, idx, hsep⟩) (Bool.eq_false_iff.1 hbad)

theorem decScan_of_failure {s : State} (hbad : s.w.good = false ∨ ∀ idx, ¬ SeparatorAt s.w.db s.w.h idx) :
    ∃ w, decScan s = decFinish .oaepDecode [] (s.setW w) := by
  obtain ⟨u, rfl, ⟨hgood, -⟩ | ⟨-, hend⟩⟩ := decScan_cases s
  · obtain ⟨hgood, idx, hsep⟩ := scanGood_iff.1 hgood
    rcases hbad with hfalse | hnone
    · simp [hgood] at hfalse
    · exact absurd hsep (hnone idx)
  · exact ⟨_, hend⟩

/-- Settles O47: the message is part of DB, so OUT_BUF has room for it. -/
theorem decScanOutcome : Obligations.DecScanOutcome := by
  intro h m s hs
  rw [exec_decScan hs]
  refine ⟨fun idx hgood hsep => ⟨_, rfl, ?_⟩, fun hbad => ⟨_, rfl, ?_⟩⟩
  · obtain ⟨w, hend⟩ := decScan_of_separator hgood hsep
    have hdb := hs.inFlight.db_length (.inr (by rw [hs.phase]; decide))
    obtain ⟨-, -, -, -, htlen, -⟩ := hs.inFlight.mask_sel (.inr (.inr (by rw [hs.phase]; rfl)))
    have hlen : (s.w.db.drop (idx + 1)).length ≤ s.tlen.toNat := by
      rw [List.length_drop, hdb, dblen]
      omega
    rw [hend]
    exact ⟨decFinish_completes .ok _ (sameControl_setW s w),
      outputFinish_writes_ok hs.consistent.mem_wf rfl rfl rfl (hlen.trans htlen) (hlen.trans_lt s.tlen.isLt),
      decFinish_draws ..⟩
  · obtain ⟨w, hend⟩ := decScan_of_failure hbad
    rw [hend]
    exact outputFinish_of_check .oaepDecode hs.consistent w

end Sys2Proof.Machine

/-! PROOF. A masking phase of OAEP_ENC or OAEP_DEC from its first block to its last (spec/42_mgf1.md R88;
spec/43_oaep.md R98, R106), for any draws whose calls do not fail. -/

namespace Sys2Proof.Machine

open Sys2Proof.Config

/-! ### Draws of failures (R123, assumption log 6) -/

/-- The draws left once n provider calls have drawn whether they fail. -/
def afterCalls : Nat → Draws → Draws
  | 0, d => d
  | n + 1, d => (drawFail (afterCalls n d)).2

theorem drawFail_fails (d : Draws) : (drawFail d).2.fails = d.fails.tail := by
  rw [drawFail]
  split <;> simp [*]

theorem afterCalls_fails (n : Nat) (d : Draws) : (afterCalls n d).fails = d.fails.drop n := by
  induction n with
  | zero => rfl
  | succ n ih => rw [afterCalls, drawFail_fails, ih, List.tail_drop]

theorem afterCalls_add (n k : Nat) (d : Draws) : afterCalls (n + k) d = afterCalls k (afterCalls n d) := by
  induction k with
  | zero => rfl
  | succ k ih => rw [← Nat.add_assoc, afterCalls, ih, afterCalls]

/-- Scripted failures are taken from the script, and nothing else is used. -/
theorem afterCalls_scripted {n : Nat} {d : Draws} {rest : List Bool} (h : d.fails = List.replicate n false ++ rest) :
    afterCalls n d = { d with fails := rest } := by
  induction n generalizing rest with
  | zero =>
    obtain rfl : d.fails = rest := h
    rfl
  | succ n ih =>
    rw [List.replicate_succ', List.append_assoc] at h
    rw [afterCalls, ih h]
    rfl

/-- Inside a script of n answered calls, none fails. -/
theorem callFails_of_noFail {n j : Nat} {s u : State} {rest : List Bool} (hfails : NoFail n rest s) (hj : j < n)
    (hdraws : u.draws.fails = s.draws.fails.drop j) : u.callFails = false := by
  refine callFails_scripted (fs := List.replicate (n - j - 1) false ++ rest) ?_
  obtain ⟨k, rfl⟩ := Nat.exists_eq_add_of_lt hj
  rw [hdraws, hfails, Nat.add_assoc, List.replicate_add, List.append_assoc, List.drop_left' (by simp),
    show j + (k + 1) - j - 1 = k by omega]
  rfl

/-! ### The blocks of a masking phase (R88) -/

/-- The string that makes the mask of a masking phase. -/
def maskSource (onSeed : Bool) (s : State) : List Byte := if onSeed then s.w.db else s.w.seed

/-- How many bytes of mask it needs. -/
def maskTarget (onSeed : Bool) (s : State) : Nat := if onSeed then s.w.h else dblen s

/-- The working registers at its end: the other string is masked (R92, R99). -/
def maskedWorking (onSeed : Bool) (ma : HashAlg) (s : State) : Working :=
  let mask := mgf1 ma (maskSource onSeed s) (maskTarget onSeed s)
  { s.w with
    out := [], i := 0
    seed := if onSeed then xorBytes s.w.seed mask else s.w.seed
    db := if onSeed then s.w.db else xorBytes s.w.db mask }

section
variable {i : Instr} {p next : Phase} {onSeed : Bool} {s : State} {ma : HashAlg}
  (hmem : (i.cmd, p, next, onSeed) ∈ maskPhases)
include hmem

theorem maskPhases_busy : p ≠ .idle := by
  rintro rfl
  simpa [Phase.encoding, Phase.decoding] using maskPhases_oaep hmem

theorem maskLength_maskPhase (hp : s.phase = p) : maskLength s = some (maskTarget onSeed s) := by
  simp only [maskPhases, List.mem_cons, Prod.mk.injEq, List.not_mem_nil, or_false] at hmem
  rcases hmem with ⟨-, rfl, -, rfl⟩ | ⟨-, rfl, -, rfl⟩ | ⟨-, rfl, -, rfl⟩ | ⟨-, rfl, -, rfl⟩ <;>
    rw [maskLength, hp] <;> rfl

variable (hs : Running i p s)
include hs

theorem maskTarget_pos : 1 ≤ maskTarget onSeed s :=
  Nat.one_le_of_lt (hs.inFlight.mask_partial _ (maskLength_maskPhase hmem hs.phase))

variable (hma : hashEntry s.cfg (resolvedMs s) = some ma)
include hma

theorem Running.hash_ms : hashEntry s.cfg s.w.ms = some ma := by
  obtain ⟨_, -, hms⟩ := hs.mask_alg (.inr (maskPhases_oaep hmem))
  rwa [hms]

section
variable {n : Nat} (hok : s.callFails = false) (hout : s.w.out = maskBlocks ma (maskSource onSeed s) n)
  (hi : s.w.i = BitVec.ofNat 32 n)
include hok hout hi

/-- The block with counter n, when it leaves bytes missing. -/
theorem exec_maskPhase_of_short (hshort : (n + 1) * ma.len < maskTarget onSeed s) :
    exec i s = .next (s.drawn.setW { s.w with
      out := maskBlocks ma (maskSource onSeed s) (n + 1), i := BitVec.ofNat 32 (n + 1) }) := by
  rw [exec_maskPhase hmem hs,
    blockStep_of_short hok (Running.hash_ms hmem hs hma) (by rwa [hout, maskBlocks_length, ← Nat.succ_mul]),
    maskBlocks_succ, ← hout, ← counter_succ, ← hi]
  rfl

/-- The block with counter n, when it is the last. -/
theorem exec_maskPhase_of_last (hlast : maskTarget onSeed s ≤ (n + 1) * ma.len) :
    exec i s = .next ((s.drawn.setW (maskedWorking onSeed ma s)).goto next) := by
  have hpos := hs.consistent.hash_len_pos hma
  rw [exec_maskPhase hmem hs,
    blockStep_of_last hok (Running.hash_ms hmem hs hma) (by rwa [hout, maskBlocks_length, ← Nat.succ_mul]),
    maskedWorking, mgf1_eq_take hpos hlast, maskBlocks_succ, ← hout, ← hi]
  rfl

end

variable (hq : s.inputs = []) (hout : s.w.out = []) (hi : s.w.i = 0)
include hq hout hi

/-- After n blocks that leave bytes missing, w.out holds them and w.i counts them. -/
theorem mask_reaches_blocks (n : Nat) (hmore : n * ma.len < maskTarget onSeed s)
    (hcalls : ∀ j < n, ∀ u, Reaches j p s.signIter (afterCalls j s.draws) s u → u.callFails = false) :
    ∃ t, Reaches n p s.signIter (afterCalls n s.draws) s t ∧
      t.w = { s.w with out := maskBlocks ma (maskSource onSeed s) n, i := BitVec.ofNat 32 n } := by
  induction n with
  | zero =>
    refine ⟨s, hs.phase ▸ .zero s, ?_⟩
    rw [show maskBlocks ma (maskSource onSeed s) 0 = s.w.out from hout.symm,
      show BitVec.ofNat 32 0 = s.w.i from hi.symm]
  | succ n ih =>
    have hless : n * ma.len < maskTarget onSeed s := by rw [Nat.succ_mul] at hmore; omega
    obtain ⟨t, before, hw⟩ := ih hless fun j hj => hcalls j (by omega)
    have ht := hs.reached before
    have hok := hcalls n (by omega) t before
    obtain ⟨w, rfl⟩ := before.state
    obtain rfl : w = _ := hw
    have hexec := exec_maskPhase_of_short hmem ht hma hok rfl rfl hmore
    exact ⟨_, before.trans (ht.reaches_next (maskPhases_busy hmem) hq hexec), rfl⟩

/-- A whole masking phase: ⌈L / hm⌉ steps with one answered call each. -/
theorem mask_reaches_next {n : Nat} (hn : n = ceilDiv (maskTarget onSeed s) ma.len)
    (hcalls : ∀ j < n, ∀ u, Reaches j p s.signIter (afterCalls j s.draws) s u → u.callFails = false) :
    ∃ t, Reaches n next s.signIter (afterCalls n s.draws) s t ∧ t.w = maskedWorking onSeed ma s := by
  obtain ⟨k, hcount, hmore, henough⟩ := ceilDiv_eq_succ (maskTarget_pos hmem hs) (hs.consistent.hash_len_pos hma)
  obtain rfl := hn.trans hcount
  obtain ⟨t, before, hw⟩ := mask_reaches_blocks hmem hs hma hq hout hi k hmore fun j hj => hcalls j (by omega)
  have ht := hs.reached before
  have hok := hcalls k (by omega) t before
  obtain ⟨w, rfl⟩ := before.state
  obtain rfl : w = _ := hw
  have hexec := exec_maskPhase_of_last hmem ht hma hok rfl rfl henough
  exact ⟨_, before.trans (ht.reaches_next (maskPhases_busy hmem) hq hexec), rfl⟩

/-- The same with a script of answered calls. -/
theorem mask_reaches_next_scripted {n : Nat} {rest : List Bool} (hn : n = ceilDiv (maskTarget onSeed s) ma.len)
    (hfails : NoFail n rest s) :
    ∃ t, Reaches n next s.signIter { s.draws with fails := rest } s t ∧ t.w = maskedWorking onSeed ma s := by
  rw [← afterCalls_scripted hfails]
  refine mask_reaches_next hmem hs hma hq hout hi hn fun j hj u before => callFails_of_noFail hfails hj ?_
  rw [before.draws, afterCalls_fails]

end

end Sys2Proof.Machine

/-! PROOF. A whole run of OAEP_ENC: its step count and the block of R94, for any draws whose calls do not fail
(spec/43_oaep.md R92 to R98). -/

namespace Sys2Proof.Machine

open Sys2Proof.Config

theorem encodedDB_length {lhash message : List Byte} {L : Nat} (h : message.length + lhash.length + 1 ≤ L) :
    (encodedDB lhash message L).length = L := by
  simp only [encodedDB, List.length_append, zeros_length, List.length_singleton]
  omega

theorem drawBytes_fails (L : Nat) (d : Draws) : (drawBytes L d).2.fails = d.fails := by
  induction L generalizing d with
  | zero => rfl
  | succ L ih =>
    rw [drawBytes, ih, drawByte]
    split <;> rfl

/-- What CHECK asks of the lengths (R93). -/
structure EncFits (ha : HashAlg) (s : State) : Prop where
  tlen : s.tlen.toNat ≤ s.cfg.bmax
  label : s.labelLen.toNat ≤ s.cfg.lmax
  room : s.inLen.toNat + 2 * ha.len + 2 ≤ s.tlen.toNat

/-! ### The steps that are no masking phase -/

section
variable {h m : Sel} {s : State} {ha ma : HashAlg}

theorem encCheck_reaches (hs : Running (.oaepEnc h m) .check s) (hq : s.inputs = [])
    (hha : hashEntry s.cfg (resolvedHs s) = some ha) (hma : hashEntry s.cfg (resolvedMs s) = some ma)
    (hfits : EncFits ha s) : ∃ t, Reaches 1 .eLhash s.signIter s.draws s t := by
  obtain ⟨htlen, hlabel, hroom⟩ := hfits
  obtain ⟨-, hcheck⟩ := encCheckOutcome h m s hs
  obtain ⟨-, hlens⟩ := hcheck ha ma hha hma
  obtain ⟨-, -, hpass⟩ := hlens (by omega) htlen hlabel
  exact ⟨_, hs.reaches_next (by decide) hq (hpass hroom)⟩

theorem encLhash_reaches (hs : Running (.oaepEnc h m) .eLhash s) (hq : s.inputs = [])
    (hha : hashEntry s.cfg (resolvedHs s) = some ha) (hok : s.callFails = false) :
    ∃ t, Reaches 1 .eSeed s.signIter s.drawn.draws s t ∧
      t.w.db = encodedDB (digest ha (labelBytes s)) (inputBytes s) (s.tlen.toNat - 1 - ha.len) := by
  obtain ⟨-, hanswer⟩ := encLhashOutcome h m s hs
  obtain ⟨ha', hha', hexec⟩ := hanswer hok
  obtain rfl : ha = ha' := Option.some.inj (hha.symm.trans hha')
  exact ⟨_, hs.reaches_next (by decide) hq (hexec _ rfl), rfl⟩

theorem encSeed_reaches (hs : Running (.oaepEnc h m) .eSeed s) (hq : s.inputs = []) (hok : s.callFails = false) :
    ∃ t, Reaches 1 .eDbmask s.signIter (drawBytes s.w.h s.drawn.draws).2 s t ∧
      t.w = { s.w with seed := (drawBytes s.w.h s.drawn.draws).1, out := [], i := 0 } := by
  have hexec := exec_encSeed hs
  rw [encSeed_of_answer hok] at hexec
  exact ⟨_, hs.reaches_next (by decide) hq hexec, rfl⟩

end

theorem Running.w_h {i : Instr} {p : Phase} {s : State} {ha : HashAlg} (hs : Running i p s)
    (hp : p.encoding = true ∨ p.decoding = true) (hha : hashEntry s.cfg (resolvedHs s) = some ha) : s.w.h = ha.len := by
  obtain ⟨ha', hha', hh⟩ := hs.oaep_alg hp
  rwa [Option.some.inj (hha.symm.trans hha')]

/-! ### The two masking phases (R94) -/

/-- The two maskings of a seed and DB make the block of R94. -/
theorem encodedBlock_eq {ma : HashAlg} {seed db : List Byte} {h L : Nat} (hseed : seed.length = h)
    (hdb : db.length = L) :
    encodedBlock ma seed db = 0x00 :: (xorBytes seed (mgf1 ma (xorBytes db (mgf1 ma seed L)) h) ++
      xorBytes db (mgf1 ma seed L)) := by
  subst hseed hdb
  rfl

theorem enc_masks_reach_eOut {h m : Sel} {s : State} {ma : HashAlg} {n : Nat}
    (hs : Running (.oaepEnc h m) .eDbmask s) (hq : s.inputs = []) (hma : hashEntry s.cfg (resolvedMs s) = some ma)
    (hout : s.w.out = []) (hi : s.w.i = 0) (hn : n = ceilDiv (dblen s) ma.len + ceilDiv s.w.h ma.len)
    (hcalls : ∀ j < n, ∀ p u, p.encoding = true → p ≠ .eOut →
      Reaches j p s.signIter (afterCalls j s.draws) s u → u.callFails = false) :
    ∃ t, Reaches n .eOut s.signIter (afterCalls n s.draws) s t ∧
      0x00 :: (t.w.seed ++ t.w.db) = encodedBlock ma s.w.seed s.w.db := by
  subst hn
  obtain ⟨u, first, hw⟩ := mask_reaches_next (next := .eSeedmask) (onSeed := false) (by simp [maskPhases, Instr.cmd])
    hs hma hq hout hi rfl fun j hj u => hcalls j (Nat.lt_add_right _ hj) _ u rfl (by decide)
  have hu := hs.reached first
  have hseed := hs.inFlight.seed_length (.inl hs.phase)
  have hdb := hs.inFlight.db_length (.inl (by rw [hs.phase]; decide))
  obtain ⟨w, rfl⟩ := first.state
  obtain rfl : w = _ := hw
  obtain ⟨t, second, hw⟩ := mask_reaches_next (next := .eOut) (onSeed := true) (by simp [maskPhases, Instr.cmd])
    hu hma hq rfl rfl rfl fun j hj u before => hcalls _ (Nat.add_lt_add_left hj _) _ u rfl (by decide)
      (afterCalls_add .. ▸ first.trans before)
  refine ⟨t, afterCalls_add .. ▸ first.trans second, ?_⟩
  rw [hw, encodedBlock_eq hseed hdb]
  rfl

/-! ### From CHECK to E_OUT -/

/-- Before its step k a run has made k - 1 calls; when each is answered, E_OUT finds the block's two parts. -/
theorem enc_reaches_eOut {h m : Sel} {s : State} {ha ma : HashAlg} {n : Nat} (hs : Running (.oaepEnc h m) .check s)
    (hq : s.inputs = []) (hha : hashEntry s.cfg (resolvedHs s) = some ha)
    (hma : hashEntry s.cfg (resolvedMs s) = some ma) (hfits : EncFits ha s)
    (hn : n = ceilDiv (s.tlen.toNat - 1 - ha.len) ma.len + ceilDiv ha.len ma.len)
    (hcalls : ∀ k < 3 + n, ∀ p d u, p.encoding = true → p ≠ .eOut → Reaches k p s.signIter d s u →
      d.fails = s.draws.fails.drop (k - 1) → u.callFails = false) :
    ∃ t seed d, drawBytes ha.len (afterCalls 2 s.draws) = (seed, d) ∧
      Reaches (3 + n) .eOut s.signIter (afterCalls n d) s t ∧
      0x00 :: (t.w.seed ++ t.w.db) =
        encodedBlock ma seed (encodedDB (digest ha (labelBytes s)) (inputBytes s) (s.tlen.toNat - 1 - ha.len)) := by
  obtain ⟨u, toLhash⟩ := encCheck_reaches hs hq hha hma hfits
  have hok := hcalls 1 (by omega) _ _ _ rfl (by decide) toLhash rfl
  have hlhash := hs.reached toLhash
  obtain ⟨w, rfl⟩ := toLhash.state
  obtain ⟨u, step, hdb⟩ := encLhash_reaches hlhash hq hha hok
  have toSeed : Reaches 2 .eSeed s.signIter (afterCalls 1 s.draws) s u := toLhash.trans step
  have hok := hcalls 2 (by omega) _ _ _ rfl (by decide) toSeed (afterCalls_fails 1 _)
  have hseed := hs.reached toSeed
  obtain ⟨w, rfl⟩ := toSeed.state
  have hh : w.h = ha.len := hseed.w_h (.inl rfl) hha
  obtain ⟨u, step, hw⟩ := encSeed_reaches hseed hq hok
  have toDbmask : Reaches 3 .eDbmask s.signIter (drawBytes w.h (afterCalls 2 s.draws)).2 s u := toSeed.trans step
  have hdbmask := hs.reached toDbmask
  have hfails : (drawBytes w.h (afterCalls 2 s.draws)).2.fails = s.draws.fails.drop 2 := by
    rw [drawBytes_fails, afterCalls_fails]
  obtain ⟨w', rfl⟩ := toDbmask.state
  obtain rfl : w' = _ := hw
  obtain ⟨t, masks, hblock⟩ := enc_masks_reach_eOut (n := n) hdbmask hq hma rfl rfl (by rw [hn, ← hh]; rfl)
    fun j hj p u hp hne before => hcalls _ (Nat.add_lt_add_left hj 3) p _ u hp hne (toDbmask.trans before) (by
      rw [afterCalls_fails, hfails, List.drop_drop]
      congr 1
      omega)
  rw [← hh] at hdb ⊢
  exact ⟨t, _, _, rfl, toDbmask.trans masks, hdb ▸ hblock⟩

theorem Reaches.tlen {k : Nat} {p : Phase} {iter : Word} {d : Draws} {s t : State} (h : Reaches k p iter d s t) :
    t.tlen = s.tlen := by obtain ⟨w, rfl⟩ := h.state; rfl

/-- Settles O43: E_OUT after 3 + n steps, and its completion. -/
theorem encRunsToItsBlock : Obligations.EncRunsToItsBlock := by
  rintro h m s ha ma seed more _ n rest hs hq hha hma htlen hlabel hroom rfl hn hbytes hseed hfails
  obtain ⟨u, _, d, hdraw, before, hblock⟩ := enc_reaches_eOut hs hq hha hma ⟨htlen, hlabel, hroom⟩ hn
    fun k hk p d u _ _ before hd => callFails_of_noFail hfails (by omega) (before.draws ▸ hd)
  have htwo : afterCalls 2 s.draws = { s.draws with fails := List.replicate n false ++ rest } :=
    afterCalls_scripted (noFail_add.1 hfails)
  rw [← hseed, drawBytes_scripted (more := more) (by rw [htwo]; exact hbytes), htwo] at hdraw
  obtain ⟨rfl, rfl⟩ := Prod.mk.inj hdraw
  have hu := hs.reached before
  obtain ⟨t, hexec, hdone, hwrites, hout, hdraws⟩ := encOutCompletes h m u hu
  rw [hblock] at hwrites
  rw [before.draws, afterCalls_scripted rfl] at hdraws
  have last := steps_one ((hu.step_eq (by decide) (before.inputs.trans hq)).trans hexec)
  rw [show 4 + n = 3 + n + 1 by omega]
  exact ⟨before.busy.add before.run (.one (hu.busy (by decide))), t, (steps_add before.run 1).trans last,
    before.completes hdone, before.output hwrites, hout.trans before.tlen, hdraws⟩

end Sys2Proof.Machine

/-! PROOF. A whole run of OAEP_DEC: its step count and its outcome, which OAEP_DECODE and OK share up to the last step
(spec/43_oaep.md R99 to R106). -/

namespace Sys2Proof.Machine

open Sys2Proof.Config

/-! ### The steps that are no masking phase -/

section
variable {h m : Sel} {s : State} {ha ma : HashAlg}

theorem decCheck_reaches (hs : Running (.oaepDec h m) .check s) (hq : s.inputs = [])
    (hha : hashEntry s.cfg (resolvedHs s) = some ha) (hma : hashEntry s.cfg (resolvedMs s) = some ma)
    (hin : s.inLen.toNat ≤ s.cfg.bmax) (htlen : s.tlen.toNat ≤ s.cfg.bmax) (hlabel : s.labelLen.toNat ≤ s.cfg.lmax)
    (hkey : 2 * ha.len + 2 ≤ s.tlen.toNat) : ∃ t, Reaches 1 .dPad s.signIter s.draws s t := by
  obtain ⟨-, hcheck⟩ := decCheckOutcome h m s hs
  obtain ⟨-, hlens⟩ := hcheck ha ma hha hma
  obtain ⟨-, hpass⟩ := hlens hin htlen hlabel
  exact ⟨_, hs.reaches_next (by decide) hq (hpass hkey)⟩

/-- What D_PAD makes of the working block (R99, R101). -/
def paddedWorking (s : State) : Working :=
  { s.w with
    em := paddedBlock s, bad := decide (s.tlen.toNat < s.inLen.toNat)
    good := decide (s.inLen.toNat ≤ s.tlen.toNat ∧ (paddedBlock s)[0]? = some 0x00)
    seed := ((paddedBlock s).drop 1).take s.w.h, db := (paddedBlock s).drop (s.w.h + 1), out := [], i := 0 }

theorem decPad_reaches (hs : Running (.oaepDec h m) .dPad s) (hq : s.inputs = []) :
    ∃ t, Reaches 1 .dSeedmask s.signIter s.draws s t ∧ t.w = paddedWorking s := by
  refine ⟨_, hs.reaches_next (w := paddedWorking s) (by decide) hq ?_, rfl⟩
  rw [exec_decPad hs, paddedWorking, ← padGood_eq]
  rfl

theorem decLhash_reaches {fs : List Bool} (hs : Running (.oaepDec h m) .dLhash s) (hq : s.inputs = [])
    (hha : hashEntry s.cfg (resolvedHs s) = some ha) (hfails : s.draws.fails = false :: fs) :
    ∃ t, Reaches 1 .dScan s.signIter { s.draws with fails := fs } s t ∧
      t.w = { s.w with
        lhash := digest ha (labelBytes s)
        good := s.w.good && decide (s.w.db.take ha.len = digest ha (labelBytes s)) } := by
  obtain ⟨-, hanswer⟩ := decLhashOutcome h m s hs
  obtain ⟨ha', hha', hexec⟩ := hanswer (callFails_scripted hfails)
  obtain rfl : ha = ha' := Option.some.inj (hha.symm.trans hha')
  have hexec := hexec _ rfl
  rw [drawn_scripted hfails] at hexec
  exact ⟨_, hs.reaches_next (by decide) hq hexec, rfl⟩

end

/-! ### The two masking phases (R99) -/

/-- Both masks undone: w.db is DB; the label and the flags stay. -/
theorem dec_masks_reach_dLhash {h m : Sel} {s : State} {ma : HashAlg} {n : Nat} {em : List Byte} {rest : List Bool}
    (hs : Running (.oaepDec h m) .dSeedmask s) (hq : s.inputs = []) (hma : hashEntry s.cfg (resolvedMs s) = some ma)
    (hout : s.w.out = []) (hi : s.w.i = 0) (hseed : s.w.seed = (em.drop 1).take s.w.h)
    (hdb : s.w.db = em.drop (s.w.h + 1)) (hn : n = ceilDiv s.w.h ma.len + ceilDiv (dblen s) ma.len)
    (hfails : NoFail n rest s) :
    ∃ t, Reaches n .dLhash s.signIter { s.draws with fails := rest } s t ∧ t.w.db = unmaskedDB ma s.w.h em ∧
      t.w.good = s.w.good := by
  subst hn
  obtain ⟨u, first, hw⟩ := mask_reaches_next_scripted (next := .dDbmask) (onSeed := true)
    (by simp [maskPhases, Instr.cmd]) hs hma hq hout hi rfl (noFail_add.1 hfails)
  have hu := hs.reached first
  have hlen := hs.inFlight.db_length (.inr (by rw [hs.phase]; decide))
  obtain ⟨w, rfl⟩ := first.state
  obtain rfl : w = _ := hw
  obtain ⟨t, second, hw⟩ := mask_reaches_next_scripted (next := .dLhash) (onSeed := false)
    (by simp [maskPhases, Instr.cmd]) hu hma hq rfl rfl rfl (rest := rest) rfl
  refine ⟨t, first.trans second, ?_, by rw [hw]; rfl⟩
  rw [hw, unmaskedDB, ← hdb, ← hseed, hlen]
  rfl

/-! ### From CHECK to D_SCAN -/

/-- The working block as R101 gives it. -/
theorem paddedBlock_eq (s : State) :
    paddedBlock s = if s.tlen.toNat < s.inLen.toNat then (inputBytes s).take s.tlen.toNat
      else zeros (s.tlen.toNat - s.inLen.toNat) ++ inputBytes s := by
  split
  · exact paddedBlock_of_long ‹_›
  · exact paddedBlock_of_fits (by omega)

/-- A run without faults reaches D_SCAN after 3 + n steps, whatever the input; w.good then says that the input fits,
that its leading byte is 0 and that the label hash matches. -/
theorem dec_reaches_dScan {h m : Sel} {s : State} {ha ma : HashAlg} {db : List Byte} {n : Nat} {rest : List Bool}
    (hs : Running (.oaepDec h m) .check s) (hq : s.inputs = []) (hha : hashEntry s.cfg (resolvedHs s) = some ha)
    (hma : hashEntry s.cfg (resolvedMs s) = some ma) (hin : s.inLen.toNat ≤ s.cfg.bmax)
    (htlen : s.tlen.toNat ≤ s.cfg.bmax) (hlabel : s.labelLen.toNat ≤ s.cfg.lmax)
    (hkey : 2 * ha.len + 2 ≤ s.tlen.toNat) (hdb : db = unmaskedDB ma ha.len (paddedBlock s))
    (hn : n = ceilDiv ha.len ma.len + ceilDiv (s.tlen.toNat - 1 - ha.len) ma.len) (hfails : NoFail (n + 1) rest s) :
    ∃ t, Reaches (3 + n) .dScan s.signIter { s.draws with fails := rest } s t ∧ t.w.h = ha.len ∧ t.w.db = db ∧
      t.w.good = (decide (s.inLen.toNat ≤ s.tlen.toNat ∧ (paddedBlock s)[0]? = some 0x00) &&
        decide (db.take ha.len = digest ha (labelBytes s))) := by
  obtain ⟨u, toPad⟩ := decCheck_reaches hs hq hha hma hin htlen hlabel hkey
  have hpad := hs.reached toPad
  obtain ⟨w, rfl⟩ := toPad.state
  have hh : w.h = ha.len := hpad.w_h (.inr rfl) hha
  obtain ⟨u, step, hw⟩ := decPad_reaches hpad hq
  have toMasks : Reaches 2 .dSeedmask s.signIter s.draws s u := toPad.trans step
  have hmasks := hs.reached toMasks
  obtain ⟨_, rfl⟩ := toMasks.state
  obtain rfl := hw
  obtain ⟨u, step, hu, hgood⟩ := dec_masks_reach_dLhash (n := n) hmasks hq hma rfl rfl rfl rfl
    (by rw [hn, ← hh]; rfl) (noFail_add.1 hfails)
  have toLhash : Reaches (2 + n) .dLhash s.signIter { s.draws with fails := false :: rest } s u := toMasks.trans step
  have hlhash := hs.reached toLhash
  obtain ⟨w', rfl⟩ := toLhash.state
  obtain ⟨t, step, hw⟩ := decLhash_reaches hlhash hq hha rfl
  have toScan : Reaches (3 + n) .dScan s.signIter { s.draws with fails := rest } s t := by
    rw [show 3 + n = 2 + n + 1 by omega]
    exact toLhash.trans step
  have hdb' : w'.db = db := by rw [hdb, ← hh]; exact hu
  refine ⟨t, toScan, ?_, by rw [hw, ← hdb'], ?_⟩
  · rw [hw]
    exact hlhash.w_h (.inr rfl) hha
  · rw [hw, ← hdb']
    exact congrArg (· && _) hgood

theorem SeparatorAt.unique {db : List Byte} {h i j : Nat} (hi : SeparatorAt db h i) (hj : SeparatorAt db h j) : i = j :=
  Option.some.inj ((separatorIndex_of_separator hi).symm.trans (separatorIndex_of_separator hj))

/-- Settles O48: D_SCAN after 3 + n steps, and either of its completions. -/
theorem decRunsToItsOutcome : Obligations.DecRunsToItsOutcome := by
  rintro h m s ha ma em db n rest hs hq hha hma hin htlen hlabel hkey hem rfl hn hfails
  obtain rfl := hem.trans (paddedBlock_eq s).symm
  obtain ⟨u, before, hh, hdb, hgood⟩ := dec_reaches_dScan hs hq hha hma hin htlen hlabel hkey rfl hn hfails
  have hu := hs.reached before
  have last {t : State} (hexec : exec (.oaepDec h m) u = .next t) : steps (3 + n + 1) s = .next t :=
    (steps_add before.run 1).trans (steps_one ((hu.step_eq (by decide) (before.inputs.trans hq)).trans hexec))
  obtain ⟨hok, hbad⟩ := decScanOutcome h m u hu
  rw [hh, hdb, before.draws] at hok hbad
  rw [show 4 + n = 3 + n + 1 by omega]
  refine ⟨before.busy.add before.run (.one (hu.busy (by decide))), ?_⟩
  by_cases hdecodes : u.w.good = true ∧ ∃ idx, SeparatorAt (unmaskedDB ma ha.len (paddedBlock s)) ha.len idx
  · obtain ⟨hgood', idx, hsep⟩ := hdecodes
    obtain ⟨t, hexec, hdone, hwrites, hdraws⟩ := hok idx hgood' hsep
    refine ⟨t, last hexec, hdraws, fun idx' _ _ _ hsep' => ?_, fun hfailure => ?_⟩
    · obtain rfl := hsep.unique hsep'
      exact ⟨before.completes hdone, before.output hwrites⟩
    · rw [hgood, Bool.and_eq_true, decide_eq_true_iff, decide_eq_true_iff] at hgood'
      obtain ⟨⟨hfits, hlead⟩, hmatch⟩ := hgood'
      rcases hfailure with hlong | hnonzero | hmismatch | hnone
      · exact absurd hfits hlong.not_ge
      · exact absurd hlead hnonzero
      · exact absurd hmatch hmismatch
      · exact absurd hsep (hnone idx)
  · have hfailure := hdecodes
    rw [not_and_or, Bool.not_eq_true, not_exists] at hfailure
    obtain ⟨t, hexec, hdone, hwrites, hdraws⟩ := hbad hfailure
    refine ⟨t, last hexec, hdraws, fun idx hfits hlead hmatch hsep => ?_, fun _ => ?_⟩
    · exact absurd ⟨by simp [hgood, hfits, hlead, hmatch], idx, hsep⟩ hdecodes
    · exact ⟨before.completes hdone, before.output hwrites⟩

end Sys2Proof.Machine

/-! PROOF. OAEP_DEC takes back what OAEP_ENC encoded (spec/43_oaep.md R107): what a run of OAEP_ENC that completed with
OK says of its start and of OUT_BUF, and the two maskings and the separator undone. -/

namespace Sys2Proof.Machine

open Sys2Proof.Config

/-! ### A run of OAEP_ENC that completed with OK -/

theorem steps_idle {s : State} (hq : s.inputs = []) (hp : s.phase = .idle) (k : Nat) : steps k s = .next s := by
  induction k with
  | zero => rfl
  | succ k ih => rw [steps_succ (step_idle hq hp), ih]

/-- Where a run completes, every IDLE state of the run is the completed one. -/
theorem Reaches.eq_completed {i : Instr} {j k : Nat} {p : Phase} {iter : Word} {d : Draws} {s t u v : State}
    {code : ErrCode} (before : Reaches j p iter d s u) (hu : Running i p u) (hb : p ≠ .idle) (hq : s.inputs = [])
    (hexec : exec i u = .next v) (hdone : Completes u v code) (hrun : steps k s = .next t) (ht : t.phase = .idle) :
    t = v := by
  have hqu := before.inputs.trans hq
  have last : steps (j + 1) s = .next v :=
    (steps_add before.run 1).trans (steps_one ((hu.step_eq hb hqu).trans hexec))
  by_cases hk : k < j + 1
  · obtain ⟨t', hrun', hbusy⟩ := (before.busy.add before.run (.one (hu.busy hb))) k hk
    rw [hrun] at hrun'
    cases hrun'
    exact absurd ht hbusy
  · obtain ⟨l, rfl⟩ := Nat.exists_eq_add_of_le (Nat.le_of_not_lt hk)
    rw [steps_add last, steps_idle (hdone.control.inputs.trans hqu) hdone.phase] at hrun
    cases hrun
    rfl

/-- A failing call ends OAEP_ENC, and not with OK (R123). -/
theorem encoding_fault {h m : Sel} {p : Phase} {s : State} (hs : Running (.oaepEnc h m) p s) (hp : p.encoding = true)
    (hne : p ≠ .eOut) (hfault : s.callFails = true) :
    ∃ t code, exec (.oaepEnc h m) s = .next t ∧ Completes s t code ∧ code ≠ .ok := by
  have hmask {next : Phase} {onSeed : Bool} (hmem : ((Instr.oaepEnc h m).cmd, p, next, onSeed) ∈ maskPhases) :
      ∃ t code, exec (.oaepEnc h m) s = .next t ∧ Completes s t code ∧ code ≠ .ok := by
    obtain ⟨hend, -⟩ := mgf1BlockOutcome.2 _ p next onSeed s hmem hs
    obtain ⟨t, hexec, hdone, -⟩ := hend hfault
    exact ⟨t, _, hexec, hdone, by decide⟩
  cases p with
  | eLhash =>
    obtain ⟨hend, -⟩ := encLhashOutcome h m s hs
    obtain ⟨t, hexec, hdone, -⟩ := hend hfault
    exact ⟨t, _, hexec, hdone, by decide⟩
  | eSeed =>
    obtain ⟨hend, -⟩ := encSeedOutcome h m s hs
    obtain ⟨t, hexec, hdone, -⟩ := hend hfault
    exact ⟨t, _, hexec, hdone, by decide⟩
  | eDbmask => exact hmask (next := .eSeedmask) (onSeed := false) (by simp [maskPhases, Instr.cmd])
  | eSeedmask => exact hmask (next := .eOut) (onSeed := true) (by simp [maskPhases, Instr.cmd])
  | eOut => exact absurd rfl hne
  | _ => simp [Phase.encoding] at hp

/-- CHECK of OAEP_ENC completes with OK in no case: one that passes found the lengths to fit. -/
theorem encFits_of_check {s : State} {ha : HashAlg} (hha : hashEntry s.cfg (resolvedHs s) = some ha)
    (hpass : ∀ code, Completes s (encCheck s) code → code = .ok) : EncFits ha s := by
  have hstop {code : ErrCode} (hend : encCheck s = encFinish code [] (storeSelectors s)) : code = .ok :=
    hpass code (hend ▸ encFinish_completes code [] (sameControl_setW s _))
  have hcases := encCheck_cases s
  rw [hlen_of_entry hha] at hcases
  rcases hcases with
    ⟨-, hend⟩ | ⟨-, ⟨-, hend⟩ | ⟨-, htlen, hlabel, _, rfl, ⟨-, hend⟩ | ⟨-, -, hend⟩ | ⟨hroom, -⟩⟩⟩
  · cases hstop hend
  · cases hstop hend
  · cases hstop hend
  · cases hstop hend
  · exact ⟨htlen, hlabel, hroom⟩

section
variable {h m : Sel} {s t : State} {k : Nat} {ha ma : HashAlg} (hs : Running (.oaepEnc h m) .check s)
  (hq : s.inputs = []) (hrun : steps k s = .next t) (hidle : t.phase = .idle) (hok : t.err = .ok)
include hs hq hrun hidle hok

theorem encFits_of_ok (hha : hashEntry s.cfg (resolvedHs s) = some ha) : EncFits ha s := by
  refine encFits_of_check hha fun code hdone => ?_
  have here : Reaches 0 .check s.signIter s.draws s s := hs.phase ▸ .zero s
  obtain rfl := here.eq_completed hs (by decide) hq (exec_encCheck hs) hdone hrun hidle
  exact hdone.err.symm.trans hok

/-- No call of the run failed. -/
theorem enc_answers_of_ok {j : Nat} {p : Phase} {d : Draws} {u : State} (hp : p.encoding = true) (hne : p ≠ .eOut)
    (before : Reaches j p s.signIter d s u) : u.callFails = false := by
  refine Bool.eq_false_iff.2 fun hfault => ?_
  have hb : p ≠ .idle := by rintro rfl; cases hp
  have hu := hs.reached before
  obtain ⟨v, code, hexec, hdone, hcode⟩ := encoding_fault hu hp hne hfault
  obtain rfl := before.eq_completed hu hb hq hexec hdone hrun hidle
  exact hcode (hdone.err.symm.trans hok)

/-- OUT_BUF holds the block of R94 for the seed that was drawn. -/
theorem enc_output_of_ok (hha : hashEntry s.cfg (resolvedHs s) = some ha)
    (hma : hashEntry s.cfg (resolvedMs s) = some ma) :
    ∃ seed, seed.length = ha.len ∧ WritesOutput s t
      (encodedBlock ma seed (encodedDB (digest ha (labelBytes s)) (inputBytes s) (s.tlen.toNat - 1 - ha.len))) := by
  have hfits := encFits_of_ok hs hq hrun hidle hok hha
  obtain ⟨u, seed, d, hdraw, before, hblock⟩ := enc_reaches_eOut hs hq hha hma hfits rfl
    fun j _ p d u hp hne before _ => enc_answers_of_ok hs hq hrun hidle hok hp hne before
  have hu := hs.reached before
  obtain ⟨v, hexec, hdone, hwrites, -⟩ := encOutCompletes h m u hu
  obtain rfl := before.eq_completed hu (by decide) hq hexec hdone hrun hidle
  refine ⟨seed, ?_, hblock ▸ before.output hwrites⟩
  rw [show seed = _ from congrArg Prod.fst hdraw.symm, drawBytes_length]

end

/-! ### The block taken apart -/

theorem mgf1_length {alg : HashAlg} (hpos : 1 ≤ alg.len) (seed : List Byte) (L : Nat) :
    (mgf1 alg seed L).length = L := by
  obtain ⟨hlen, -⟩ := maskBytesAreHashBytes alg seed L hpos
  exact hlen

section
variable {ma : HashAlg} (hpos : 1 ≤ ma.len) (seed db : List Byte)
include hpos

theorem encodedBlock_length : (encodedBlock ma seed db).length = 1 + seed.length + db.length := by
  rw [encodedBlock_eq rfl rfl]
  simp only [List.length_cons, List.length_append, xorBytes_length, mgf1_length hpos, Nat.min_self]
  omega

/-- Unmasking a block gives DB back: each mask is made again over the same string (R99). -/
theorem unmaskedDB_encodedBlock : unmaskedDB ma seed.length (encodedBlock ma seed db) = db := by
  have hmasked (x y : List Byte) : (xorBytes x (mgf1 ma y x.length)).length = x.length := by
    rw [xorBytes_length, mgf1_length hpos, Nat.min_self]
  have hunmask (x y : List Byte) : xorBytes (xorBytes x (mgf1 ma y x.length)) (mgf1 ma y x.length) = x :=
    xorBytes_xorBytes (mgf1_length hpos ..).symm
  rw [encodedBlock_eq rfl rfl, unmaskedDB, List.drop_succ_cons, List.drop_left' (hmasked ..), List.drop_succ_cons,
    List.drop_zero, List.take_left' (hmasked ..), hunmask, hmasked, hunmask]

end

section
variable (lhash message : List Byte) (L : Nat)

theorem encodedDB_take : (encodedDB lhash message L).take lhash.length = lhash := by
  rw [encodedDB, List.append_assoc, List.append_assoc, List.take_left' rfl]

/-- The separator of DB stands after the label hash and the zeros, and the message after it (R94). -/
theorem encodedDB_separator :
    ∃ idx, SeparatorAt (encodedDB lhash message L) lhash.length idx ∧
      (encodedDB lhash message L).drop (idx + 1) = message := by
  have hlen : (lhash ++ zeros (L - message.length - lhash.length - 1)).length =
      lhash.length + (L - message.length - lhash.length - 1) := by rw [List.length_append, zeros_length]
  refine ⟨_, ⟨Nat.le_add_right _ (L - message.length - lhash.length - 1), ?_, fun j hj hlt => ?_⟩, ?_⟩
  · rw [encodedDB, List.append_assoc, List.getElem?_append_right hlen.le, hlen, Nat.sub_self]
    rfl
  · rw [encodedDB, List.append_assoc, List.getElem?_append_left (hlt.trans_eq hlen.symm),
      List.getElem?_append_right hj, zeros, List.getElem?_replicate, if_pos (by omega)]
  · rw [encodedDB, List.drop_left' (by rw [List.length_append, hlen]; rfl)]

end

/-- The block of R94 passes every content test of R104, and its message comes back. -/
theorem encodedBlock_decodes {ma : HashAlg} {seed lhash message : List Byte} {h L : Nat} (hpos : 1 ≤ ma.len)
    (hseed : seed.length = h) (hlhash : lhash.length = h) (hroom : message.length + h + 1 ≤ L) :
    (encodedBlock ma seed (encodedDB lhash message L)).length = 1 + h + L ∧
      ∃ db, db = unmaskedDB ma h (encodedBlock ma seed (encodedDB lhash message L)) ∧ db.take h = lhash ∧
        ∃ idx, SeparatorAt db h idx ∧ db.drop (idx + 1) = message := by
  subst hlhash
  refine ⟨by rw [encodedBlock_length hpos, hseed, encodedDB_length hroom], encodedDB lhash message L, ?_,
    encodedDB_take .., encodedDB_separator ..⟩
  rw [← hseed, unmaskedDB_encodedBlock hpos]

/-! ### The round trip (R107) -/

/-- OUT_BUF read back for the length of the output. -/
theorem WritesOutput.winBytes {s t : State} {b : List Byte} {n : Nat} (hb : WritesOutput s t b) (hn : b.length = n)
    (hle : n ≤ s.cfg.bmax) : t.winBytes .outBuf n = b := by
  rw [← t.winBytes_take .outBuf hle, hb.buffer, List.take_left' hn]

/-- Padding gives back the zero bytes that were stripped (R101, R107). -/
theorem paddedBlock_of_stripped {s : State} {z : Nat} (hz : z + s.inLen.toNat = s.tlen.toNat) :
    paddedBlock s = zeros z ++ inputBytes s := by
  rw [paddedBlock_of_fits (by omega), ← hz, Nat.add_sub_cancel]

/-- Two commands with the same selector fields under equal parameters resolve them alike (R62). -/
theorem resolved_eq {i i' : Instr} {s u : State} (hs : Latched i s) (hu : Latched i' u) (hhsel : i'.hsel = i.hsel)
    (hmsel : i'.msel = i.msel) (hcfg : u.cfg = s.cfg) : resolvedHs u = resolvedHs s ∧ resolvedMs u = resolvedMs s := by
  have hs : s.ctrl = { cmd := i.cmd, hsel := i.hsel, msel := i.msel } := hs
  have hu : u.ctrl = { cmd := i'.cmd, hsel := i'.hsel, msel := i'.msel } := hu
  simp only [resolvedMs, resolvedHs, hs, hu, hhsel, hmsel, hcfg, and_self]

/-- Settles O49: the padded input is the block again, whose content passes every test of R104. -/
theorem oaepRoundTrip : Obligations.OaepRoundTrip := by
  intro h m s t u k z n ha ma rest hs hq hrun hidle hok hha hma hn hu hqu hcfg htlen hlabelLen hlabel hinput hfails
  have hpos := hs.consistent.hash_len_pos hma
  obtain ⟨hhs, hms⟩ := resolved_eq hs.latched hu.latched rfl rfl hcfg
  obtain ⟨hbmax, hlmax, hroom⟩ := encFits_of_ok hs hq hrun hidle hok hha
  obtain ⟨seed, hseed, hwrites⟩ := enc_output_of_ok hs hq hrun hidle hok hha hma
  have hmessage : (inputBytes s).length = s.inLen.toNat := State.winBytes_length ..
  obtain ⟨hblock, db, hdb, hmatch, idx, hsep, hmessage⟩ := encodedBlock_decodes (message := inputBytes s)
    (L := s.tlen.toNat - 1 - ha.len) hpos hseed (digest_length ha (labelBytes s)) (by omega)
  rw [show 1 + ha.len + (s.tlen.toNat - 1 - ha.len) = s.tlen.toNat by omega] at hblock
  rw [hwrites.winBytes hblock hbmax] at hinput
  have hinLen : z + u.inLen.toNat = s.tlen.toNat := by
    rw [← hblock, ← hinput, List.length_append, zeros_length, inputBytes, State.winBytes_length]
  have hbmax_u : u.tlen.toNat ≤ u.cfg.bmax := by rwa [hcfg, htlen]
  rw [← htlen] at hinLen hn hroom
  have hpadded := (hinput.symm.trans (paddedBlock_of_stripped hinLen).symm).trans (paddedBlock_eq u)
  obtain ⟨-, v, hrun', -, hdecodes, -⟩ := decRunsToItsOutcome h m u ha ma _ db n rest hu hqu
    (by rw [hcfg, hhs, hha]) (by rw [hcfg, hms, hma]) (by omega) hbmax_u (by rwa [hcfg, hlabelLen]) (by omega)
    hpadded hdb hn hfails
  rw [hlabel] at hdecodes
  exact ⟨v, hrun', hmessage ▸ hdecodes idx (by omega) rfl hmatch hsep⟩

end Sys2Proof.Machine

/-! PROOF. The steps and hash calls of OAEP_DEC do not depend on data (spec/43_oaep.md R103): each step keeps two states
that agree on everything public so. -/

namespace Sys2Proof.Machine

open Sys2Proof.Config

/-! ### A step of OAEP_DEC and its hash call -/

/-- A step with a hash call is that call, and then a use of its digest. -/
theorem decPhase_of_request {s : State} {sel : Sel} {msg : List Byte} (h : decHashRequest s = some (sel, msg)) :
    decPhase s = .next (afterCall (callHash sel msg s) (decFinish .arith []) (decWithDigest s)) := by
  cases hp : s.phase with
  | dSeedmask | dDbmask | dLhash =>
    simp only [decHashRequest, hp, Option.some.injEq, Prod.mk.injEq] at h
    obtain ⟨rfl, rfl⟩ := h
    rw [decPhase, decWithDigest, hp]
    rfl
  | _ => simp [decHashRequest, hp] at h

/-- What CHECK of OAEP_DEC asks for (R63, R100, R113). -/
def DecPasses (s : State) : Prop :=
  validSel s (resolvedHs s) = true ∧ validSel s (resolvedMs s) = true ∧ s.inLen.toNat ≤ s.cfg.bmax ∧
    s.tlen.toNat ≤ s.cfg.bmax ∧ s.labelLen.toNat ≤ s.cfg.lmax ∧ 2 * hlen s.cfg (resolvedHs s) + 2 ≤ s.tlen.toNat

theorem decCheck_passes_or_completes (s : State) :
    (DecPasses s ∧ decCheck s = (storeSelectors s).goto .dPad) ∨
      (¬ DecPasses s ∧ ∃ code, decCheck s = decFinish code [] (storeSelectors s)) := by
  rcases decCheck_cases s with
    ⟨hbad, hend⟩ | ⟨⟨hhs, hms⟩, ⟨hlong, hend⟩ | ⟨hin, htlen, hlabel, _, rfl, ⟨hsmall, hend⟩ | ⟨hkey, hend⟩⟩⟩
  · exact .inr ⟨fun ⟨hhs, hms, _⟩ => hbad ⟨hhs, hms⟩, _, hend⟩
  · exact .inr ⟨fun ⟨_, _, hin, htlen, hlabel, _⟩ => by omega, _, hend⟩
  · exact .inr ⟨fun ⟨_, _, _, _, _, hkey⟩ => by omega, _, hend⟩
  · exact .inl ⟨⟨hhs, hms, hin, htlen, hlabel, hkey⟩, hend⟩

theorem decScan_completes (s : State) : ∃ code b w, decScan s = decFinish code b (s.setW w) := by
  obtain ⟨u, rfl, ⟨-, hend⟩ | ⟨-, hend⟩⟩ := decScan_cases s
  · exact ⟨_, _, _, hend⟩
  · exact ⟨_, _, _, hend⟩

/-- The steps without a hash call use no draw. -/
theorem decPhase_of_no_request {s : State} (hp : phaseOf 5 s.phase = true) (hb : s.phase ≠ .idle)
    (h : decHashRequest s = none) : ∃ t, decPhase s = .next t ∧ t.draws = s.draws := by
  cases hphase : s.phase with
  | check =>
    refine ⟨_, by rw [decPhase, hphase], ?_⟩
    rcases decCheck_passes_or_completes s with ⟨-, hend⟩ | ⟨-, code, hend⟩ <;> rw [hend]
    · rfl
    · exact decFinish_draws ..
  | dPad => exact ⟨decPad s, by rw [decPhase, hphase], rfl⟩
  | dScan =>
    refine ⟨_, by rw [decPhase, hphase], ?_⟩
    obtain ⟨code, b, w, hend⟩ := decScan_completes s
    rw [hend]
    exact decFinish_draws ..
  | idle => exact absurd hphase hb
  | dSeedmask | dDbmask | dLhash => simp [decHashRequest, hphase] at h
  | _ => simp [hphase, phaseOf] at hp

/-! ### What is public after each part of a step -/

namespace SamePublic

variable {s t : State} (same : SamePublic s t)
include same

theorem drawn : SamePublic s.drawn t.drawn :=
  { same with draws := by rw [State.drawn_draws, State.drawn_draws, same.draws] }

theorem callFails : t.callFails = s.callFails := by rw [State.callFails, State.callFails, same.draws]

theorem resolvedHs : resolvedHs t = resolvedHs s := by rw [Machine.resolvedHs, Machine.resolvedHs, same.ctrl, same.cfg]

theorem resolvedMs : resolvedMs t = resolvedMs s := by
  rw [Machine.resolvedMs, Machine.resolvedMs, same.ctrl, same.resolvedHs]

theorem decPasses : DecPasses t ↔ DecPasses s := by
  simp only [DecPasses, validSel, same.resolvedHs, same.resolvedMs, same.cfg, same.inLen, same.tlen, same.labelLen]

theorem dblen : dblen t = dblen s := by rw [Machine.dblen, Machine.dblen, same.tlen, same.h]

theorem storeSelectors : SamePublic (storeSelectors s) (storeSelectors t) :=
  { same with
    hs := same.resolvedHs
    ms := same.resolvedMs
    h := by simp only [storeSelectors_h, same.resolvedHs, same.cfg]
    hm := congrArg₂ hlen same.cfg same.resolvedMs }

theorem goto (p : Phase) : SamePublic (s.goto p) (t.goto p) := { same with phase := rfl }

/-- Every completion leaves the same public state: the code, the output and the working registers are no part of it. -/
theorem decFinish (code code' : ErrCode) (b b' : List Byte) (w w' : Working) :
    SamePublic (decFinish code b (s.setW w)) (decFinish code' b' (t.setW w')) := by
  constructor <;> simp [same.cfg, same.ctrl, same.inLen, same.tlen, same.labelLen, same.inputs, same.draws]

theorem decCheck : SamePublic (decCheck s) (decCheck t) := by
  rcases decCheck_passes_or_completes s with ⟨hpass, hs⟩ | ⟨hfail, _, hs⟩ <;>
    rcases decCheck_passes_or_completes t with ⟨hpass', ht⟩ | ⟨hfail', _, ht⟩ <;> rw [hs, ht]
  · exact same.storeSelectors.goto .dPad
  · exact absurd (same.decPasses.2 hpass) hfail'
  · exact absurd (same.decPasses.1 hpass') hfail
  · exact same.decFinish ..

theorem decPad : SamePublic (decPad s) (decPad t) :=
  { same with
    phase := rfl
    i := rfl
    out := rfl
    seed := by simp [Machine.decPad, paddedBlock_length, same.tlen, same.h]
    db := by simp [Machine.decPad, paddedBlock_length, same.tlen, same.h] }

theorem decScan : SamePublic (decScan s) (decScan t) := by
  obtain ⟨code, b, w, hs⟩ := decScan_completes s
  obtain ⟨code', b', w', ht⟩ := decScan_completes t
  rw [hs, ht]
  exact same.decFinish ..

theorem foldLhash (x y : List Byte) : SamePublic (foldLhash x s) (foldLhash y t) := { same with phase := rfl }

section
variable {x y : List Byte} (hlen : y.length = x.length)
include hlen

theorem unmaskSeed : SamePublic (unmaskSeed x s) (unmaskSeed y t) :=
  { same with phase := rfl, seed := by simp [Machine.unmaskSeed, same.seed, hlen] }

theorem unmaskDb : SamePublic (unmaskDb x s) (unmaskDb y t) :=
  { same with phase := rfl, db := by simp [Machine.unmaskDb, same.db, hlen] }

/-- A hash block ends the mask at the same step, whatever its bytes (R88). -/
theorem takeBlock {use : List Byte → State → State} (L : Nat)
    (huse : ∀ {a b : List Byte} {u v : State}, SamePublic u v → b.length = a.length → SamePublic (use a u) (use b v)) :
    SamePublic (takeBlock L use x s) (takeBlock L use y t) := by
  have hout : (t.w.out ++ y).length = (s.w.out ++ x).length := by simp [same.out, hlen]
  rw [Machine.takeBlock, Machine.takeBlock, hout]
  split
  · refine huse { same with i := rfl, out := rfl } ?_
    rw [List.length_take, List.length_take, hout]
  · exact { same with i := congrArg (· + 1) same.i, out := hout }

theorem decWithDigest {u v : State} (huv : SamePublic u v) :
    SamePublic (decWithDigest s x u) (decWithDigest t y v) := by
  rw [Machine.decWithDigest, Machine.decWithDigest, same.phase, same.h, same.dblen]
  cases s.phase with
  | dSeedmask => exact huv.takeBlock hlen _ fun huv hlen => huv.unmaskSeed hlen
  | dDbmask => exact huv.takeBlock hlen _ fun huv hlen => huv.unmaskDb hlen
  | dLhash => exact huv.foldLhash x y
  | _ => exact huv

end

/-- Equal selectors, and messages of any bytes: both calls fail, or both digests have the selector's length. -/
theorem afterHash (sel : Sel) (msg msg' : List Byte) :
    SamePublic (afterCall (callHash sel msg s) (Machine.decFinish .arith []) (Machine.decWithDigest s))
      (afterCall (callHash sel msg' t) (Machine.decFinish .arith []) (Machine.decWithDigest t)) := by
  by_cases hfault : s.callFails = true ∨ hashEntry s.cfg sel = none
  · rw [callHash, callHash, afterCall_none (by simpa using hfault),
      afterCall_none (by simpa [same.callFails, same.cfg] using hfault)]
    exact same.drawn.decFinish ..
  · obtain ⟨hok, hentry⟩ := not_or.1 hfault
    obtain ⟨alg, halg⟩ := Option.ne_none_iff_exists'.1 hentry
    have hok : s.callFails = false := Bool.eq_false_iff.2 hok
    rw [callHash, callHash, same.cfg, halg, Option.map_some, Option.map_some, afterCall_some hok rfl,
      afterCall_some (same.callFails.trans hok) rfl]
    exact same.decWithDigest (by simp) same.drawn

/-- The hash calls ask for the same selector and as many bytes. -/
theorem request :
    (decHashRequest s).map (fun q => (q.1, q.2.length)) = (decHashRequest t).map fun q => (q.1, q.2.length) := by
  rw [decHashRequest, decHashRequest, same.phase]
  split <;> simp [same.ms, same.hs, same.db, same.seed, same.labelLen, labelBytes]

/-- A step of OAEP_DEC keeps two such states so. -/
theorem decPhase (hp : phaseOf 5 s.phase = true) (hb : s.phase ≠ .idle) :
    ∃ s' t', decPhase s = .next s' ∧ decPhase t = .next t' ∧ SamePublic s' t' := by
  have hrequest := same.request
  cases hs : decHashRequest s with
  | some q =>
    rw [hs] at hrequest
    obtain ⟨q', ht, hq⟩ := Option.map_eq_some_iff.1 hrequest.symm
    obtain ⟨hsel, -⟩ := Prod.mk.inj hq
    refine ⟨_, _, decPhase_of_request hs, decPhase_of_request ht, ?_⟩
    rw [hsel]
    exact same.afterHash q.1 q.2 q'.2
  | none =>
    rw [Machine.decPhase, Machine.decPhase, same.phase]
    cases hphase : s.phase with
    | check => exact ⟨_, _, rfl, rfl, same.decCheck⟩
    | dPad => exact ⟨_, _, rfl, rfl, same.decPad⟩
    | dScan => exact ⟨_, _, rfl, rfl, same.decScan⟩
    | idle => exact absurd hphase hb
    | dSeedmask | dDbmask | dLhash => simp [decHashRequest, hphase] at hs
    | _ => simp [hphase, phaseOf] at hp

end SamePublic

/-! ### Runs -/

/-- The step of a block running OAEP_DEC, with no host operation queued. -/
theorem step_dec {s : State} (hcmd : s.ctrl.cmd = 5) (hq : s.inputs = []) (hb : s.phase ≠ .idle) :
    step s = decPhase s := by
  have hl : Latched (.oaepDec s.ctrl.hsel s.ctrl.msel) s := by
    rw [Latched, Instr.cmd, ← hcmd]
    rfl
  exact (step_busy hq hb hl).trans (exec_latched hb hl)

/-- With no host operation queued a step keeps CTRL and the empty queue. -/
theorem step_keeps_command {s t : State} (hq : s.inputs = []) (hstep : step s = .next t) :
    t.ctrl = s.ctrl ∧ t.inputs = [] := by
  rcases step_cases hstep with ⟨-, -, rfl⟩ | ⟨_, _, hcons, -⟩ | ⟨-, -, move⟩ | ⟨-, _, _, hcons, -⟩
  · exact ⟨rfl, hq⟩
  · simp [hq] at hcons
  · exact ⟨move.outcome.control.ctrl, move.outcome.control.inputs.trans hq⟩
  · simp [hq] at hcons

theorem SamePublic.step {s t : State} (same : SamePublic s t) (hs : s.Consistent) (hcmd : s.ctrl.cmd = 5)
    (hq : s.inputs = []) : ∃ s' t', step s = .next s' ∧ step t = .next t' ∧ SamePublic s' t' := by
  by_cases hb : s.phase = .idle
  · exact ⟨s, t, step_idle hq hb, step_idle (same.inputs.trans hq) (same.phase.trans hb), same⟩
  · rw [step_dec hcmd hq hb, step_dec (by rwa [same.ctrl]) (same.inputs.trans hq) (by rwa [same.phase])]
    exact same.decPhase (hcmd ▸ hs.phase_cmd) hb

theorem SamePublic.steps {s t : State} (same : SamePublic s t) (hs : s.Consistent) (hcmd : s.ctrl.cmd = 5)
    (hq : s.inputs = []) (k : Nat) : ∃ s' t', steps k s = .next s' ∧ steps k t = .next t' ∧ SamePublic s' t' := by
  induction k generalizing s t with
  | zero => exact ⟨s, t, rfl, rfl, same⟩
  | succ k ih =>
    obtain ⟨s', t', hs', ht', same'⟩ := same.step hs hcmd hq
    obtain ⟨hctrl, hq'⟩ := step_keeps_command hq hs'
    rw [steps_succ hs', steps_succ ht']
    exact ih same' (stepKeepsConsistent s s' hs hs') (by rwa [hctrl]) hq'

/-- Settles O50: the two kinds of steps, and the induction over the steps. -/
theorem decStepsAreDataIndependent : Obligations.DecStepsAreDataIndependent := by
  refine ⟨fun h m p s hs hb => ?_, fun k s t hs _ hcmd hq same => ?_⟩
  · rw [exec_dec hs hb]
    have hcmd : s.ctrl.cmd = 5 := congrArg Ctrl.cmd hs.latched
    exact ⟨fun sel msg => decPhase_of_request,
      decPhase_of_no_request (hcmd ▸ hs.consistent.phase_cmd) (hs.busy hb)⟩
  · obtain ⟨s', t', hs', ht', same'⟩ := same.steps hs hcmd hq k
    exact ⟨s', t', hs', ht', same', same'.request⟩

end Sys2Proof.Machine

/-! PROOF. Completion is precise (spec/60_exceptions.md R115, R116): before it a controller step writes only the hidden
registers and SIGN_ITER. -/

namespace Sys2Proof.Machine

/-- A controller step that leaves the block BUSY keeps every register and byte the host can see, but for SIGN_ITER
(R116). -/
theorem ControllerOutcome.staysRunning {s t : State} (h : ControllerOutcome s t) (busy : t.phase ≠ .idle) :
    StaysRunning s t t.phase ∧ t.mem = s.mem := by
  have hcontrol : SameControl s t := h.control
  cases h with
  | runs => exact ⟨⟨hcontrol, rfl, rfl, rfl, rfl, rfl, fun _ _ => rfl⟩, rfl⟩
  | completes _ done => exact absurd done.phase busy

/-- A controller step that leaves the block IDLE is a completion with the code that STATUS.ERR then holds (R115). -/
theorem ControllerOutcome.completes_of_idle {s t : State} (h : ControllerOutcome s t) (idle : t.phase = .idle) :
    Completes s t t.err := by
  cases h with
  | runs busy => exact absurd idle busy
  | completes code done => exact done.err.symm ▸ done

/-- Settles O56, by the two outcomes of a controller step: it runs on, or it completes. -/
theorem completionIsPrecise : Obligations.CompletionIsPrecise := by
  intro i p s t hrun hbusy hexec
  have hp : s.phase = p := hrun.phase
  have outcome : ControllerOutcome s t := (exec_busy_cases (hp ▸ hbusy) hrun.latched hexec).outcome
  refine ⟨fun busy => ?_, outcome.completes_of_idle⟩
  obtain ⟨stays, hmem⟩ := outcome.staysRunning busy
  refine ⟨stays, hmem, ?_⟩
  rcases outcome.countsDraw with same | ⟨counts, hdraw, -⟩
  · exact .inl same
  · exact .inr ⟨hp ▸ hdraw, counts⟩

end Sys2Proof.Machine

/-! PROOF. Reset (spec/70_reset_and_hazards.md R132, R133): the step of the reset input, and what the host reads after
it. -/

namespace Sys2Proof.Machine

/-- Reset takes one step, whatever the phase (R132). -/
theorem step_reset {rest : List HostEvent} {s : State} (h : HostNext .reset rest s) :
    step s = .next (applyReset { s with inputs := rest }) :=
  step_host h

/-! ### The words, the bytes and the interrupt after reset -/

@[simp] theorem ctrlWord_applyReset (s : State) : ctrlWord (applyReset s) = 0 := by
  rw [ctrlWord, applyReset_ctrl]
  rfl

@[simp] theorem statusWord_applyReset (s : State) : statusWord (applyReset s) = 0 := by
  rw [statusWord, applyReset_err, applyReset_werr, applyReset_valid, applyReset_done, State.busy, applyReset_phase]
  rfl

@[simp] theorem irqEnWord_applyReset (s : State) : irqEnWord (applyReset s) = 0 := by
  rw [irqEnWord, applyReset_irqEn]
  rfl

@[simp] theorem readByte_applyReset (s : State) (a : Nat) : readByte (applyReset s).mem a = 0 := by
  rw [applyReset_mem, readByte]

@[simp] theorem irq_applyReset (s : State) : (applyReset s).irq = false := by
  rw [State.irq, applyReset_done, Bool.false_and]

/-- Settles O18, row by row of the table of R133; the constants are functions of the instance, which reset keeps. -/
theorem resetSetsEveryState : Obligations.ResetSetsEveryState := by
  intro s rest hnext
  have hcfg : (applyReset { s with inputs := rest }).cfg = s.cfg := applyReset_cfg _
  exact ⟨_, step_reset hnext, hcfg, ctrlWord_applyReset _, statusWord_applyReset _, irqEnWord_applyReset _,
    applyReset_inLen _, applyReset_tlen _, applyReset_labelLen _, applyReset_eLen _, applyReset_outLen _,
    applyReset_signIter _, readByte_applyReset _, applyReset_phase _, applyReset_w _, irq_applyReset _, rfl,
    congrArg cap0Word hcfg, congrArg cap1Word hcfg⟩

end Sys2Proof.Machine
